-- ==== Sys2Proof/Word.lean ====
section
/-!
DEFINITION. The two word types of the block: a byte of buffer memory (8 bits) and a register (32 bits), R8.
-/

namespace Sys2Proof

/-- A byte: 8 bits (R8). -/
abbrev Byte := BitVec 8

/-- A word: 32 bits, the width of every register (R7 `XLEN`, R8). -/
abbrev Word := BitVec 32

end Sys2Proof
end

