-- ==== Sys2Proof/Config.lean ====
section
/-!
DEFINITION. What an implementation fixes (the parameters of R7) and the free values: constants without a body, so that
no proof can lean on what they are.
-/

namespace Sys2Proof.Config

/-- The number of bytes of buffer memory, `2^ADDR_BITS` with `ADDR_BITS = 32` (R7, R60). -/
def memSize : Nat := 2 ^ 32

/-- `DIM_MAX = 2^DIM_BITS - 1` with `DIM_BITS = 16` (R7). -/
def dimMax : Nat := 65535

/-- `NREG`, the number of registers (R7, R20). -/
def nreg : Nat := 17

/-- FREE VALUE (log 1, 2). The byte an address holds while its content is unspecified (R72, R350, R351): a function of the
number of the event that made it unspecified (0 is power-up) and of the address. -/
opaque unspecifiedByte : Nat → Nat → Byte

/-- FREE VALUE (log 3). What a host read returns while the engine is busy where the spec leaves it open (R37, R76):
a function of the draw's number and of the register index or address. -/
opaque busyRead : Nat → Nat → Word

/-- FREE VALUE (log 4). How a command ends that the host has disturbed (R76): the code of the outcome, taken modulo 7. -/
opaque disturbedOutcome : Nat → Nat

/-- FREE VALUE (log 4). What a disturbed command leaves in a register it writes (R76): by draw and register index. -/
opaque disturbedRegister : Nat → Nat → Word

end Sys2Proof.Config
end

