-- ==== Sys2Proof/Machine/HeaderText.lean ====
section
/-!
DEFINITION. The text of a Radiance header: where it ends (R142), its lines (R144), its FORMAT field (R145, R146) and its
resolution line (R147 to R151). Functions of bytes alone; the machine's part is in Machine/Header.lean.
-/

namespace Sys2Proof

/-- The states of the header-terminator automaton `HS` (R41, R142). -/
inductive HState where
  | s0 | s1 | s2 | s3
  deriving DecidableEq, Repr

namespace Machine

/-- `LF`, the only newline (R100). -/
def lf : Byte := 0x0A

/-- One move of the automaton on a byte that does not accept (R142). -/
def HState.next : HState → Bool → HState
  | .s0, true => .s1
  | .s1, true => .s2
  | .s2, true => .s2
  | .s3, true => .s3
  | .s0, false => .s0
  | .s1, false => .s0
  | .s2, false => .s3
  | .s3, false => .s3

/-- `FindTerminator` (R142): how many bytes the automaton reads up to and including the accepting one. -/
def headerLength : HState → List Byte → Option Nat
  | _, [] => none
  | hs, b :: bs =>
    if hs = .s3 ∧ b = lf then some 1
    else (headerLength (HState.next hs (b = lf)) bs).map (· + 1)

/-- A header token is terminated when the terminator pattern is first complete at its last byte (R100). -/
def headerTerminated (text : List Byte) : Bool := headerLength .s0 text = some text.length

/-- The bytes up to the first `LF`, and the rest after it, collecting lines (R144); `cur` is the line so far, reversed. A
tail without `LF` is no line (a header ends with `LF`). -/
def headerLinesFrom (cur : List Byte) : List Byte → List (List Byte)
  | [] => []
  | b :: bs => if b = lf then cur.reverse :: headerLinesFrom [] bs else headerLinesFrom (b :: cur) bs

/-- The lines of the header text, in stream order (R144). -/
def headerLines (text : List Byte) : List (List Byte) := headerLinesFrom [] text

/-- The key `FORMAT=` (R101). -/
def formatKey : List Byte := [0x46, 0x4F, 0x52, 0x4D, 0x41, 0x54, 0x3D]

/-- The one supported value, `32-bit_rle_rgbe` (R101). -/
def formatSupported : List Byte :=
  [0x33, 0x32, 0x2D, 0x62, 0x69, 0x74, 0x5F, 0x72, 0x6C, 0x65, 0x5F, 0x72, 0x67, 0x62, 0x65]

/-- `FormatValue` (R145): the rest of the first line that begins with the key. -/
def formatValue (text : List Byte) : Option (List Byte) :=
  ((headerLines text).find? (fun l => formatKey.isPrefixOf l)).map (fun l => l.drop formatKey.length)

/-- Whitespace of the resolution line: space, 0x09, 0x0B, 0x0C, 0x0D (R102, R147). -/
def isSpace (b : Byte) : Bool := b = 0x20 || b = 0x09 || b = 0x0B || b = 0x0C || b = 0x0D

/-- The words of a line: maximal runs of bytes that are not whitespace (R147); `cur` is the word so far, reversed. -/
def wordsFrom (cur : List Byte) : List Byte → List (List Byte)
  | [] => if cur = [] then [] else [cur.reverse]
  | b :: bs =>
    if isSpace b then (if cur = [] then wordsFrom [] bs else cur.reverse :: wordsFrom [] bs)
    else wordsFrom (b :: cur) bs

/-- `Words(line)` (R147). -/
def lineWords (line : List Byte) : List (List Byte) := wordsFrom [] line

/-- An ASCII digit, 0x30 to 0x39 (R150). -/
def isDigit (b : Byte) : Bool := 0x30 ≤ b.toNat && b.toNat ≤ 0x39

/-- The decimal number that digits spell, unbounded (R150). -/
def decimal (tok : List Byte) : Nat := tok.foldl (fun v b => 10 * v + (b.toNat - 0x30)) 0

/-- `Dim(tok)` with its range check (R150, R151): none where the word is no dimension. -/
def headerDim (tok : List Byte) : Option Nat :=
  if tok.all isDigit ∧ 1 ≤ decimal tok ∧ decimal tok ≤ Config.dimMax then some (decimal tok) else none

/-- `ResolutionLine(t)`: the last line of the header text (R147). -/
def resolutionLine (text : List Byte) : List Byte := (headerLines text).getLast?.getD []

/-- Height and width from the resolution line: words 1 and 3 of exactly four (R148 to R151); the flag words are not
examined (R149). -/
def headerDims (text : List Byte) : Option (Nat × Nat) :=
  match lineWords (resolutionLine text) with
  | [_, t1, _, t3] =>
    match headerDim t1, headerDim t3 with
    | some h, some w => some (h, w)
    | _, _ => none
  | _ => none

end Machine
end Sys2Proof
end

