-- ==== Sys2Proof/Syntax.lean ====
section
/-!
DEFINITION. The instructions: one constructor for each row of spec/opcode_table.json, in the table's order. The first nine are the
host's commands (R90); the last seven are the tokens of the Radiance stream (R100 to R111).
-/

namespace Sys2Proof

inductive Instr where
  /-- `HDRP`, parse the header of the stream in the source region (R140). -/
  | hdrp
  /-- `SCAN`, decode one scanline at `POS` (R170). -/
  | scan
  /-- `DHDR`, decode a whole stream (R290). -/
  | dhdr
  /-- `RGBE2F`, RGBE pixels to float pixels (R211). -/
  | rgbe2f
  /-- `F2RGBE`, float pixels to RGBE pixels (R220). -/
  | f2rgbe
  /-- `F2RGB9E5`, float pixels to RGB9_E5 words (R230). -/
  | f2rgb9e5
  /-- `RGB9E52F`, RGB9_E5 words to float pixels (R241). -/
  | rgb9e52f
  /-- `RGBE2LDR`, RGBE pixels to display pixels (R265). -/
  | rgbe2ldr
  /-- `F2LDR`, float pixels to display pixels (R270). -/
  | f2ldr
  /-- `HDR`, the header token; `text` is its bytes (R100). -/
  | hdr (text : List Byte)
  /-- `NS.SIG`, the new-style signature with its 15-bit width (R104, R105). -/
  | nsSig (width16 : BitVec 15)
  /-- `OS.MARK`, the old-style repeat marker (R111). -/
  | osMark (e : Byte)
  /-- `OS.PIX`, an old-style literal pixel (R110). -/
  | osPix (r g b e : Byte)
  /-- `NS.NOP0`, the new-style control byte 0 (R108). -/
  | nsNop0
  /-- `NS.RUN`, a new-style run: the 7-bit count and the value (R106). -/
  | nsRun (n : BitVec 7) (v : Byte)
  /-- `NS.LIT`, a new-style literal: its data bytes, whose number is the control byte (R107). -/
  | nsLit (data : List Byte)
  deriving DecidableEq, Repr

end Sys2Proof
end

