-- ==== Sys2Proof/WellFormed.lean ====
section
/-!
DEFINITION. Which terms of Instr are instructions of the encoding: each check is a constraint of the token's own rule
(R100, R106, R107, R110).
-/

namespace Sys2Proof

/-- The constraints of the encoding on an instruction's operands: a header ends where its terminator first is complete
(R100); a run's count is not 0 (R106); a literal has 1 to 128 data bytes (R107); a literal pixel is not `(1,1,1,e)` (R110). -/
def WellFormed : Instr → Bool
  | .hdrp | .scan | .dhdr | .rgbe2f | .f2rgbe | .f2rgb9e5 | .rgb9e52f | .rgbe2ldr | .f2ldr => true
  | .hdr text => Machine.headerTerminated text
  | .nsSig _ => true
  | .osMark _ => true
  | .osPix r g b _ => !(r = 1 && g = 1 && b = 1)
  | .nsNop0 => true
  | .nsRun n _ => n ≠ 0
  | .nsLit data => 1 ≤ data.length && data.length ≤ 128

end Sys2Proof
end

