-- ==== Sys2Proof/Decode.lean ====
section
/-!
DEFINITION. Decoding: the nine command words (R90 to R92) and the seven stream tokens, each in the place where it is recognised
(R103 to R113), and after it the encoder, written from the same encodings.
-/

namespace Sys2Proof

/-- Where an instruction is recognised (R113, R118 `context`): in `CMD`, at the start of the source region, at the start of a
scanline, at a control byte of a channel plane, inside an old-style scanline. -/
inductive Place where
  | command
  | header (hs : HState)
  | lineStart
  | plane
  | oldStyle
  deriving DecidableEq, Repr

/-- What an instruction is made of: a command is one 32-bit word (R91), a token the bytes of the stream. -/
inductive Code where
  | word (w : Word)
  | bytes (bs : List Byte)
  deriving DecidableEq, Repr

/-- Why nothing is decoded. -/
inductive DecodeError where
  /-- A command word with a reserved opcode or a bit of 31:4 set (R92). -/
  | illegalCommand
  /-- The source region ends inside the token (R172, R173, R183). -/
  | truncated
  /-- A word where a token is due, or bytes where a command is. -/
  | wrongForm
  deriving DecidableEq, Repr

/-- The opcode map of command words (R90); every other word is illegal (R92). -/
def decodeCommand (w : Word) : Except DecodeError Instr :=
  match w.toNat with
  | 1 => .ok .hdrp
  | 2 => .ok .scan
  | 3 => .ok .dhdr
  | 4 => .ok .rgbe2f
  | 5 => .ok .f2rgbe
  | 6 => .ok .f2rgb9e5
  | 7 => .ok .rgb9e52f
  | 8 => .ok .rgbe2ldr
  | 9 => .ok .f2ldr
  | _ => .error .illegalCommand

/-- A 4-byte group of an old-style scanline: a marker or a pixel (R110, R111). -/
def decodeGroup (b0 b1 b2 b3 : Byte) : Instr :=
  if b0 = 1 ∧ b1 = 1 ∧ b2 = 1 then .osMark b3 else .osPix b0 b1 b2 b3

/-- The new-style signature `2, 2, 0hhhhhhh, llllllll` (R104). -/
def isSignature (b0 b1 b2 : Byte) : Bool := b0 = 2 && b1 = 2 && b2.toNat < 128

/-- `width16 = b2 * 256 + b3`, big-endian, with `b2[7] = 0` (R105). -/
def width16 (b2 b3 : Byte) : BitVec 15 := BitVec.ofNat 15 (b2.toNat * 256 + b3.toNat)

/-- The token at the head of the bytes left in the source region. -/
def decodeToken (p : Place) (bs : List Byte) : Except DecodeError Instr :=
  match p, bs with
  | .header hs, bs => .ok (.hdr (bs.take ((Machine.headerLength hs bs).getD bs.length)))
  | .lineStart, b0 :: b1 :: b2 :: b3 :: _ =>
    if isSignature b0 b1 b2 then .ok (.nsSig (width16 b2 b3)) else .ok (decodeGroup b0 b1 b2 b3)
  | .oldStyle, b0 :: b1 :: b2 :: b3 :: _ => .ok (decodeGroup b0 b1 b2 b3)
  | .plane, c :: rest =>
    if c = 0 then .ok .nsNop0
    else if c.toNat ≤ 128 then
      (if c.toNat ≤ rest.length then .ok (.nsLit (rest.take c.toNat)) else .error .truncated)
    else
      match rest with
      | v :: _ => .ok (.nsRun (BitVec.ofNat 7 (c.toNat - 128)) v)
      | [] => .error .truncated
  | .command, _ => .error .wrongForm
  | _, _ => .error .truncated

/-- The instruction a code holds in a place. -/
def decode (p : Place) (c : Code) : Except DecodeError Instr :=
  match p, c with
  | .command, .word w => decodeCommand w
  | .command, .bytes _ => .error .wrongForm
  | _, .word _ => .error .wrongForm
  | p, .bytes bs => decodeToken p bs

/-- The code of a well-formed instruction (R90, R100, R104 to R111). -/
def encode : Instr → Code
  | .hdrp => .word 1
  | .scan => .word 2
  | .dhdr => .word 3
  | .rgbe2f => .word 4
  | .f2rgbe => .word 5
  | .f2rgb9e5 => .word 6
  | .rgb9e52f => .word 7
  | .rgbe2ldr => .word 8
  | .f2ldr => .word 9
  | .hdr text => .bytes text
  | .nsSig w => .bytes [2, 2, BitVec.ofNat 8 (w.toNat / 256), BitVec.ofNat 8 (w.toNat % 256)]
  | .osMark e => .bytes [1, 1, 1, e]
  | .osPix r g b e => .bytes [r, g, b, e]
  | .nsNop0 => .bytes [0]
  | .nsRun n v => .bytes [BitVec.ofNat 8 (128 + n.toNat), v]
  | .nsLit data => .bytes (BitVec.ofNat 8 data.length :: data)

/-- Where the stream may hold an instruction (the `context` entries of R118; at a scanline's start the signature is tried
first, so a pixel that reads as one is not recognised there, R104, R115 item c). -/
def recognisedAt (p : Place) : Instr → Bool
  | .hdrp | .scan | .dhdr | .rgbe2f | .f2rgbe | .f2rgb9e5 | .rgb9e52f | .rgbe2ldr | .f2ldr => p = .command
  | .hdr _ => p = .header .s0
  | .nsSig _ => p = .lineStart
  | .osMark _ => p = .lineStart || p = .oldStyle
  | .osPix r g b _ => (p = .lineStart && !(isSignature r g b)) || p = .oldStyle
  | .nsNop0 => p = .plane
  | .nsRun _ _ => p = .plane
  | .nsLit _ => p = .plane

/-- The length of a token in bytes (R113); a command is no token and moves no cursor. -/
def tokenLength : Instr → Nat
  | .hdrp | .scan | .dhdr | .rgbe2f | .f2rgbe | .f2rgb9e5 | .rgb9e52f | .rgbe2ldr | .f2ldr => 0
  | .hdr text => text.length
  | .nsSig _ => 4
  | .osMark _ => 4
  | .osPix _ _ _ _ => 4
  | .nsNop0 => 1
  | .nsRun _ _ => 2
  | .nsLit data => 1 + data.length

/-- The longest token of a scanline: a literal of 128 bytes and its control byte (R107). -/
def longestToken : Nat := 129

/-- The place in which a row of the opcode table is recognised, told by the row's bits alone (log 14): 32 bits are a command
word if they are a legal one, else a 4-byte group at the start of a scanline; 16 bits are the two `LF` of the header's
terminator or a run; 8 bits are a control byte. -/
def tablePlace (nbits w : Nat) : Option Place :=
  if nbits = 32 then
    (match decodeCommand (BitVec.ofNat 32 w) with
     | .ok _ => some .command
     | .error _ => some .lineStart)
  else if nbits = 16 then (if w = 0x0A0A then some (.header .s0) else some .plane)
  else if nbits = 8 then some .plane
  else none

/-- The bytes of a table row as the stream stores them: the first byte is the most significant of the row's bits (R118), and
every byte after them is 0. -/
def tableBytes (nbits w : Nat) : List Byte :=
  (List.range (nbits / 8)).map (fun k => BitVec.ofNat 8 (w / 2 ^ (nbits - 8 * (k + 1)))) ++
    List.replicate (longestToken - nbits / 8) 0

/-- The instruction the decoder reads from a row's bits, numbered as spec/opcode_table.json numbers them. -/
def decodeTableWord (nbits w : Nat) : Option Instr :=
  match tablePlace nbits w with
  | none => none
  | some .command => (decode .command (.word (BitVec.ofNat 32 w))).toOption
  | some p => (decode p (.bytes (tableBytes nbits w))).toOption

end Sys2Proof
end

