-- ==== Sys2Proof/Machine/State.lean ====
section
/-!
DEFINITION. The state of the machine as plain data: the 17 registers (R20), the buffer memory (R60), the hidden state of a running
command (R41), the host's pending moves, and the reasons a step can stop.
-/

namespace Sys2Proof.Machine

/-- The 17 registers of R20, in their order. -/
structure Regs where
  /-- index 0, R21 -/
  srcAddr : Word
  /-- index 1, R22 -/
  srcLen : Word
  /-- index 2, R23 -/
  dstAddr : Word
  /-- index 3, R24 -/
  dstLen : Word
  /-- index 4, R25, a binary32 pattern -/
  exposure : Word
  /-- index 5, R26, a binary32 pattern -/
  gamma : Word
  /-- index 6, R27 -/
  cmd : Word
  /-- index 7, R28 -/
  status : Word
  /-- index 8, R29 -/
  errcode : Word
  /-- index 9, R30 -/
  width : Word
  /-- index 10, R30 -/
  height : Word
  /-- index 11, R32 -/
  dataOff : Word
  /-- index 12, R31: the program counter, a cursor in the source region -/
  pos : Word
  /-- index 13, R33 -/
  ipos : Word
  /-- index 14, R34 -/
  row : Word
  /-- index 15, R35: the last pixel emitted -/
  prev : Word
  /-- index 16, R36 -/
  count : Word
  deriving DecidableEq, Repr

/-- Every register at its reset value (R20, R44, R352). -/
def Regs.reset : Regs where
  srcAddr := 0
  srcLen := 0
  dstAddr := 0
  dstLen := 0
  exposure := 0x3F800000
  gamma := 0x400CCCCD
  cmd := 0
  status := 0
  errcode := 0
  width := 0
  height := 0
  dataOff := 0
  pos := 0
  ipos := 0
  row := 0
  prev := 0
  count := 0

/-- A range of addresses whose content became unspecified, and the number of the draw that did it (R72, R350). -/
structure Span where
  lo : Nat
  len : Nat
  draw : Nat
  deriving DecidableEq, Repr

/-- Buffer memory: the bytes somebody has written, at strictly rising addresses, and the ranges that became unspecified, most
recent first. An address that is not listed holds no specified value (R351); what a read of it gives is said in Ops. -/
structure Memory where
  cells : List Host.Cell
  unspec : List Span
  deriving DecidableEq, Repr

/-- The four channel planes of a new-style scanline, R, G, B, E (R109). -/
inductive Chan where
  | r | g | b | e
  deriving DecidableEq, Repr

/-- `TMP[c][i]`: the bytes of each channel plane filled so far (R41); `FILLED` is the length of the plane being filled. -/
structure Planes where
  r : List Byte
  g : List Byte
  b : List Byte
  e : List Byte
  deriving DecidableEq, Repr

/-- Where the decoder stands in a scanline (R113): at its start, in a channel plane with `TMP`, or in an old-style scanline with
`EMITTED` and `SHIFT` (R41). -/
inductive LinePos where
  | start
  | plane (c : Chan) (tmp : Planes)
  | old (emitted shift : Nat)
  deriving DecidableEq, Repr

/-- What a running command does next: it has been issued and its word stands in `CMD` (R27); the header token is due, with the
automaton `HS`, in `HDRP` or (`thenScan`) in `DHDR` (R291); a scanline is being decoded, by `SCAN` (`rc` none) or by `DHDR`
with `RC` scanlines still to decode (R290). -/
inductive Phase where
  | issued
  | header (thenScan : Bool) (hs : HState)
  | line (rc : Option Nat) (lp : LinePos)
  deriving DecidableEq, Repr

/-- The staged registers: the new values a command has for the registers it writes, committed only on success (R41). -/
structure Staged where
  width : Word
  height : Word
  dataOff : Word
  pos : Word
  ipos : Word
  row : Word
  prev : Word
  count : Word
  deriving DecidableEq, Repr

/-- The engine while a command runs (R41). `disturbed` records that the host has touched a region of the running command, after
which its results are unspecified (R76). -/
structure Run where
  phase : Phase
  staged : Staged
  disturbed : Bool
  deriving DecidableEq, Repr

/-- What the host can do between two steps of the engine (R37, R74, R350, R358): write or read a register by index, write or
read a byte of buffer memory, reset the block, or let the engine go on. -/
inductive HostMove where
  | write (index : Nat) (v : Word)
  | read (index : Nat)
  | store (addr : Nat) (b : Byte)
  | load (addr : Nat)
  | reset
  | wait
  deriving DecidableEq, Repr

/-- The whole machine. `regs`, `mem` and `run` are the spec's; `inputs` (the host's pending moves, oldest first), `busData` (what
the host's last read returned) and `draws` (how many free values have been drawn) are the model's own fields. -/
structure State where
  regs : Regs
  mem : Memory
  run : Option Run
  inputs : List HostMove
  busData : Word
  draws : Nat
  deriving DecidableEq, Repr

/-- The machine right after reset at power-up (R44, R350 to R353): the engine is idle and nobody has written memory. -/
def State.reset : State where
  regs := Regs.reset
  mem := { cells := [], unspec := [] }
  run := none
  inputs := []
  busData := 0
  draws := 0

/-- Why a step stops with a fault. -/
inductive Fault where
  /-- An access at an address that buffer memory does not have (R60): raised by a host move, or by an engine access of a state
  whose regions were never checked. Safe: the spec gives such an access no effect. -/
  | outsideMemory (addr : Nat)
  deriving DecidableEq, Repr

/-- Why a step is refused. -/
inductive Refusal where
  /-- Raised by an arm of exec whose instruction has no meaning yet. Safe. -/
  | notModelled (mnemonic : String)
  /-- Raised by a stream token outside the context that recognises it (R113), where the token does not exist. Safe: no step of a
  reachable state meets it. -/
  | outOfContext (mnemonic : String)
  deriving DecidableEq, Repr

end Sys2Proof.Machine
end

