-- ==== Sys2Proof/Machine/Flags.lean ====
section
/-!
DEFINITION. The block's only flags, the three bits of STATUS (R28, R38), and the failure kinds with their codes (R29, R312).
-/

namespace Sys2Proof.Machine

/-- The failure kinds of R312. -/
inductive FailKind where
  | malformedHeader
  | unsupportedFormat
  | scanlineWidthMismatch
  | inputUnderrun
  | outputTooSmall
  | badOperand
  deriving DecidableEq, Repr

/-- The code of a failure kind in `ERRCODE` (R29, R312). -/
def FailKind.code : FailKind → Nat
  | .malformedHeader => 1
  | .unsupportedFormat => 2
  | .scanlineWidthMismatch => 3
  | .inputUnderrun => 4
  | .outputTooSmall => 5
  | .badOperand => 6

/-- `STATUS` from issue to finish: `BUSY` alone (R28). -/
def statusBusy : Word := 0b001

/-- `STATUS` after success: `DONE` (R311). -/
def statusDone : Word := 0b010

/-- `STATUS` after a failure: `DONE` and `ERR` (R312). -/
def statusFailed : Word := 0b110

/-- The bit `STATUS.BUSY` (R28). -/
def busyBit (status : Word) : Bool := status.getLsbD 0

/-- The bit `STATUS.DONE` (R28). -/
def doneBit (status : Word) : Bool := status.getLsbD 1

/-- The bit `STATUS.ERR` (R28). -/
def errBit (status : Word) : Bool := status.getLsbD 2

/-- `STATUS` and `ERRCODE` as a command leaves them: code 0 is success (R311), any other the failure's (R312). -/
def Regs.withOutcome (regs : Regs) (code : Nat) : Regs :=
  { regs with
    status := if code = 0 then statusDone else statusFailed
    errcode := BitVec.ofNat 32 code }

/-- The code a command ends with: 0 or its failure kind's (R311, R312). -/
def outcomeCode : Option FailKind → Nat
  | none => 0
  | some k => k.code

end Sys2Proof.Machine
end

