-- ==== Sys2Proof/Machine/Operands.lean ====
section
/-!
DEFINITION. The operand formats: the pixel formats of R93 to R98, little-endian words (R66), binary32 values (R11 to R13) and the
exact numbers they denote. A number is held exactly, as a natural multiple of a power of two; nothing is rounded before the
end (R10).
-/

namespace Sys2Proof.Machine

/-- An RGBE pixel, four bytes at increasing addresses (R93). -/
structure Rgbe where
  r : Byte
  g : Byte
  b : Byte
  e : Byte
  deriving DecidableEq, Repr

/-- A float pixel, three binary32 patterns (R95). -/
structure FloatPixel where
  r : Word
  g : Word
  b : Word
  deriving DecidableEq, Repr

/-- A display pixel, four bytes at increasing addresses (R98). -/
structure Ldr where
  r : Byte
  g : Byte
  b : Byte
  a : Byte
  deriving DecidableEq, Repr

/-- Four bytes, the lowest address first, as a little-endian word (R66). -/
def leWord (b0 b1 b2 b3 : Byte) : Word :=
  BitVec.ofNat 32 (b0.toNat + 256 * b1.toNat + 65536 * b2.toNat + 16777216 * b3.toNat)

/-- Byte `k` of a word: bits `8k+7` to `8k` (R66). -/
def wordByte (w : Word) (k : Nat) : Byte := BitVec.ofNat 8 (w.toNat / 2 ^ (8 * k))

/-- The bytes of a word in memory, little-endian (R66). -/
def leBytes (w : Word) : List Byte := [wordByte w 0, wordByte w 1, wordByte w 2, wordByte w 3]

/-- An RGBE pixel in memory (R63). -/
def Rgbe.bytes (p : Rgbe) : List Byte := [p.r, p.g, p.b, p.e]

/-- A float pixel in memory (R65). -/
def FloatPixel.bytes (p : FloatPixel) : List Byte := leBytes p.r ++ leBytes p.g ++ leBytes p.b

/-- A display pixel in memory (R67). -/
def Ldr.bytes (p : Ldr) : List Byte := [p.r, p.g, p.b, p.a]

/-- The pixel that `PREV` holds (R35). -/
def pixelOfPrev (w : Word) : Rgbe := ⟨wordByte w 0, wordByte w 1, wordByte w 2, wordByte w 3⟩

/-- `PREV` for a pixel: R in bits 7:0, E in bits 31:24 (R35). -/
def prevOfPixel (p : Rgbe) : Word := leWord p.r p.g p.b p.e

/-- The fields of an RGB9_E5 word (R97). -/
def r9 (w : Word) : Nat := w.toNat / 2 ^ 23
def g9 (w : Word) : Nat := w.toNat / 2 ^ 14 % 512
def b9 (w : Word) : Nat := w.toNat / 2 ^ 5 % 512
def e5 (w : Word) : Nat := w.toNat % 32

/-- The fields of a binary32 pattern (R96). -/
def f32Sign (w : Word) : Bool := 2 ^ 31 ≤ w.toNat
def f32Exponent (w : Word) : Nat := w.toNat / 2 ^ 23 % 256
def f32Fraction (w : Word) : Nat := w.toNat % 2 ^ 23

/-- NaN: exponent 255, fraction not 0 (R11). -/
def f32IsNaN (w : Word) : Bool := f32Exponent w = 255 && f32Fraction w ≠ 0

/-- An infinity of either sign (R11). -/
def f32IsInf (w : Word) : Bool := f32Exponent w = 255 && f32Fraction w = 0

/-- Neither NaN nor infinite (R25). -/
def f32IsFinite (w : Word) : Bool := f32Exponent w ≠ 255

/-- A non-negative real `mant * 2^(shift - 149)`: every value the block computes with, a power function apart, is one. -/
structure Scaled where
  mant : Nat
  shift : Nat
  deriving DecidableEq, Repr

/-- The value in units of `2^-149`, the smallest binary32 step. -/
def Scaled.units (x : Scaled) : Nat := x.mant * 2 ^ x.shift

/-- The magnitude of a finite pattern (R11): `t * 2^-149`, or `(2^23 + t) * 2^(q-150)`. -/
def f32Magnitude (w : Word) : Scaled :=
  if f32Exponent w = 0 then ⟨f32Fraction w, 0⟩ else ⟨2 ^ 23 + f32Fraction w, f32Exponent w - 1⟩

/-- The value of a finite pattern in units of `2^-149`, with its sign (R11). -/
def f32Units (w : Word) : Int :=
  if f32Sign w then -((f32Magnitude w).units : Int) else ((f32Magnitude w).units : Int)

/-- `MAXF = (2^24 - 1) * 2^104` (R11). -/
def maxFinite : Scaled := ⟨2 ^ 24 - 1, 253⟩

/-- `san(w)`, the sanitised value (R13): NaN and everything negative is 0, `+Inf` is `MAXF`. -/
def san (w : Word) : Scaled :=
  if f32IsNaN w ∨ f32Sign w then ⟨0, 0⟩ else if f32IsInf w then maxFinite else f32Magnitude w

/-- `n / 2^k` rounded to the nearest integer, ties to even (R14 `rne`). -/
def rneDiv (n k : Nat) : Nat :=
  let q := n / 2 ^ k
  let twice := 2 * (n % 2 ^ k)
  if 2 ^ k < twice ∨ (twice = 2 ^ k ∧ q % 2 = 1) then q + 1 else q

/-- `n / 2^k` rounded to the nearest integer, ties up (R14 `rhu`). -/
def rhuDiv (n k : Nat) : Nat := (2 * n + 2 ^ k) / 2 ^ (k + 1)

/-- `rnd32` of the real `n * 2^-149` (R12): below `2^24` units the pattern is `n` itself; above, 24 significant bits remain. -/
def rnd32 (n : Nat) : Word :=
  if n < 2 ^ 24 then BitVec.ofNat 32 n
  else
    let k := Nat.log2 n - 23
    BitVec.ofNat 32 (min 0x7F800000 (k * 2 ^ 23 + rneDiv n k))

/-- `ceil(log2(n))` for `n > 0` (R15). -/
def ceilLog2 (n : Nat) : Nat := if 2 ^ Nat.log2 n = n then Nat.log2 n else Nat.log2 n + 1

/-- The exact value of an RGBE channel: `m * 2^(E - 136)` (R93). -/
def rgbeChannel (m e : Byte) : Scaled := ⟨m.toNat, e.toNat + 13⟩

/-- The exact value of an RGB9_E5 channel: `m * 2^(E5 - 24)` (R97). -/
def rgb9e5Channel (m e : Nat) : Scaled := ⟨m, e + 125⟩

end Sys2Proof.Machine
end

