-- ==== Sys2Proof/Machine/Ops.lean ====
section
/-!
DEFINITION. The operations the meanings share: memory, registers, the region checks, how a command starts and how it ends. A failure
(the block's form of an exception, R312) is `raise`; there is no return from one (R326).
-/

namespace Sys2Proof.Machine

/-- What every step of the machine answers. -/
abbrev Result := Host.Outcome State Fault Refusal

/-! ### Memory -/

/-- The byte written at an address, if one is. DESIGN CHOICE (log 25): every address of memory is backed by plain storage. -/
def lookupCell : List Host.Cell → Nat → Option Byte
  | [], _ => none
  | (a, b) :: rest, x => if a = x then some b else lookupCell rest x

/-- Writing a byte keeps the addresses strictly rising. -/
def insertCell : List Host.Cell → Nat → Byte → List Host.Cell
  | [], x, v => [(x, v)]
  | (a, b) :: rest, x, v =>
    if x < a then (x, v) :: (a, b) :: rest
    else if x = a then (x, v) :: rest
    else (a, b) :: insertCell rest x v

/-- The draw that last made an address unspecified; 0 is power-up. -/
def drawAt : List Span → Nat → Nat
  | [], _ => 0
  | sp :: rest, x => if sp.lo ≤ x ∧ x < sp.lo + sp.len then sp.draw else drawAt rest x

/-- What an address that is not listed reads as: the free value of the event that made it unspecified (log 1, 2). -/
def Memory.unlisted (m : Memory) (a : Nat) : Byte := Config.unspecifiedByte (drawAt m.unspec a) a

/-- `MemRead(a, 1)` (R9): the last byte written there (R70). -/
def Memory.read (m : Memory) (a : Nat) : Byte := (lookupCell m.cells a).getD (m.unlisted a)

/-- `MemWrite(a, 1, b)` (R9). -/
def Memory.write (m : Memory) (a : Nat) (b : Byte) : Memory := { m with cells := insertCell m.cells a b }

/-- Bytes at consecutive addresses, the first at `a` (R70). -/
def Memory.writeBytes (m : Memory) (a : Nat) : List Byte → Memory
  | [] => m
  | b :: bs => (m.write a b).writeBytes (a + 1) bs

/-- The `n` bytes from address `a` up. -/
def Memory.readBytes (m : Memory) (a : Nat) : Nat → List Byte
  | 0 => []
  | n + 1 => m.read a :: m.readBytes (a + 1) n

/-- A range of addresses loses its content (R72): from now on draw number `d` says what its bytes read as. -/
def Memory.spoil (m : Memory) (lo len d : Nat) : Memory where
  cells := m.cells.filter (fun c => c.1 < lo || lo + len ≤ c.1)
  unspec := ⟨lo, len, d⟩ :: m.unspec

/-- The addresses of a list of cells rise strictly and lie in memory. -/
def cellsRise : Nat → List Host.Cell → Bool
  | _, [] => true
  | least, (a, _) :: rest => least ≤ a && a < Config.memSize && cellsRise (a + 1) rest

/-- The canonical form of memory. A listed address holds a specified byte and an unlisted one none, so no entry can equal what an
unlisted address reads as. -/
def Memory.wf (m : Memory) : Bool := cellsRise 0 m.cells

/-- `MemRead(a, 4)`, little-endian (R9, R66). -/
def Memory.readWord (m : Memory) (a : Nat) : Word :=
  leWord (m.read a) (m.read (a + 1)) (m.read (a + 2)) (m.read (a + 3))

/-- The RGBE pixel at an address (R63). -/
def Memory.rgbeAt (m : Memory) (a : Nat) : Rgbe := ⟨m.read a, m.read (a + 1), m.read (a + 2), m.read (a + 3)⟩

/-- The float pixel at an address (R65). -/
def Memory.floatAt (m : Memory) (a : Nat) : FloatPixel := ⟨m.readWord a, m.readWord (a + 4), m.readWord (a + 8)⟩

/-! ### Registers -/

/-- A register by its index; an index that does not exist reads as 0 (R20). -/
def Regs.get (r : Regs) : Nat → Word
  | 0 => r.srcAddr
  | 1 => r.srcLen
  | 2 => r.dstAddr
  | 3 => r.dstLen
  | 4 => r.exposure
  | 5 => r.gamma
  | 6 => r.cmd
  | 7 => r.status
  | 8 => r.errcode
  | 9 => r.width
  | 10 => r.height
  | 11 => r.dataOff
  | 12 => r.pos
  | 13 => r.ipos
  | 14 => r.row
  | 15 => r.prev
  | 16 => r.count
  | _ => 0

/-- A host write to a register other than `CMD` while idle: the read-only registers and the indices that do not exist ignore it
(R20, R37). -/
def Regs.hostSet (r : Regs) (i : Nat) (v : Word) : Regs :=
  match i with
  | 0 => { r with srcAddr := v }
  | 1 => { r with srcLen := v }
  | 2 => { r with dstAddr := v }
  | 3 => { r with dstLen := v }
  | 4 => { r with exposure := v }
  | 5 => { r with gamma := v }
  | 9 => { r with width := v }
  | 10 => { r with height := v }
  | 12 => { r with pos := v }
  | 13 => { r with ipos := v }
  | 14 => { r with row := v }
  | 15 => { r with prev := v }
  | _ => r

/-- The staged copies as a command finds them: the registers' own values (R41). -/
def Staged.ofRegs (r : Regs) : Staged :=
  ⟨r.width, r.height, r.dataOff, r.pos, r.ipos, r.row, r.prev, r.count⟩

/-- The staged copies while the header token is due: `POS` is the offset of that token, 0 (R31, R142), and the scan for its end does not
move it (R305); the other values are still the registers' own. -/
def Staged.atHeader (r : Regs) : Staged := { Staged.ofRegs r with pos := 0 }

/-- Every staged value is committed to its register (R311). -/
def Regs.commit (r : Regs) (st : Staged) : Regs :=
  { r with
    width := st.width
    height := st.height
    dataOff := st.dataOff
    pos := st.pos
    ipos := st.ipos
    row := st.row
    prev := st.prev
    count := st.count }

/-! ### The regions of a command -/

/-- `x[SRC_ADDR] + x[SRC_LEN]`, a natural (R302). -/
def Regs.srcEnd (r : Regs) : Nat := r.srcAddr.toNat + r.srcLen.toNat

/-- `x[DST_ADDR] + x[DST_LEN]`, a natural (R302). -/
def Regs.dstEnd (r : Regs) : Nat := r.dstAddr.toNat + r.dstLen.toNat

/-- Check (a) of R68. -/
def Regs.srcFits (r : Regs) : Bool := r.srcEnd ≤ Config.memSize

/-- Check (b) of R68. -/
def Regs.dstFits (r : Regs) : Bool := r.dstEnd ≤ Config.memSize

/-- Check (c) of R68. -/
def Regs.regionsApart (r : Regs) : Bool :=
  r.srcLen = 0 || r.dstLen = 0 || r.srcEnd ≤ r.dstAddr.toNat || r.dstEnd ≤ r.srcAddr.toNat

/-- All three region checks of R68. -/
def Regs.regionsOk (r : Regs) : Bool := r.srcFits && r.dstFits && r.regionsApart

/-- The command word names a command, which then has a source region (R90, R92). -/
def hasSource (cmd : Word) : Bool := 1 ≤ cmd.toNat && cmd.toNat ≤ 9

/-- Every command but `HDRP` has a destination region (R62). -/
def hasDestination (cmd : Word) : Bool := 2 ≤ cmd.toNat && cmd.toNat ≤ 9

/-- The address lies in the source region of the running command. -/
def Regs.inSource (r : Regs) (a : Nat) : Bool :=
  hasSource r.cmd && r.srcAddr.toNat ≤ a && a < r.srcEnd

/-- The address lies in the destination region of the running command. -/
def Regs.inDestination (r : Regs) (a : Nat) : Bool :=
  hasDestination r.cmd && r.dstAddr.toNat ≤ a && a < r.dstEnd

/-- The indices of the registers that a command writes on success, `STATUS` and `ERRCODE` apart (R43). -/
def writtenRegs (cmd : Word) : List Nat :=
  match cmd.toNat with
  | 1 => [9, 10, 11, 12, 13, 14, 15]
  | 2 => [12, 13, 14, 15]
  | 3 => [9, 10, 11, 12, 13, 14, 15]
  | n => if 4 ≤ n ∧ n ≤ 9 then [16] else []

/-! ### How a command starts and ends -/

/-- The issue of a command by a write of `c` to `CMD` while idle (R27): `BUSY` is set, `DONE`, `ERR` and `ERRCODE` are cleared, and
the engine has the command before it. -/
def State.issue (s : State) (c : Word) : State :=
  { s with
    regs := { s.regs with cmd := c, status := statusBusy, errcode := 0 }
    run := some { phase := .issued, staged := Staged.ofRegs s.regs, disturbed := false } }

/-- The host has disturbed the command that runs (R76). -/
def State.disturbed (s : State) : Bool :=
  match s.run with
  | none => false
  | some r => r.disturbed

/-- A decode command whose issue checks have passed goes on to its first token, with the staged copies `st`. -/
def State.start (s : State) (ph : Phase) (st : Staged) : State :=
  { s with run := some { phase := ph, staged := st, disturbed := s.disturbed } }

/-- The engine is decoding scanlines, the only phase that writes the destination before the command ends (R322). -/
def State.inScanlines (s : State) : Bool :=
  match s.run with
  | some { phase := .line _ _, .. } => true
  | _ => false

/-- The destination region of the command in `CMD`, if it has one, becomes unspecified (R72, R350). -/
def State.spoilDestination (s : State) : State :=
  if hasDestination s.regs.cmd then
    { s with
      mem := s.mem.spoil s.regs.dstAddr.toNat s.regs.dstLen.toNat (s.draws + 1)
      draws := s.draws + 1 }
  else s

/-- The registers after a disturbed command: each register it writes holds a free value (R76). -/
def Regs.scramble (r : Regs) (d : Nat) : Regs :=
  let f := fun i old => if i ∈ writtenRegs r.cmd then Config.disturbedRegister d i else old
  { r with
    width := f 9 r.width
    height := f 10 r.height
    dataOff := f 11 r.dataOff
    pos := f 12 r.pos
    ipos := f 13 r.ipos
    row := f 14 r.row
    prev := f 15 r.prev
    count := f 16 r.count }

/-- The end of a command that the host disturbed: the outcome, the registers it writes and its destination region are free
values (R76). -/
def State.endDisturbed (s : State) : State :=
  let s1 := s.spoilDestination
  let d := s1.draws + 1
  { s1 with
    regs := (s1.regs.scramble d).withOutcome (Config.disturbedOutcome d % 7)
    run := none
    draws := d }

/-- The end of a command (R310): the engine is idle and `STATUS` and `ERRCODE` say how it ended; `regs` are the other registers. -/
def State.conclude (s : State) (outcome : Option FailKind) (regs : Regs) : State :=
  if s.disturbed then s.endDisturbed
  else { s with regs := regs.withOutcome (outcomeCode outcome), run := none }

/-- `done` (R311): the given registers are committed. -/
def State.finish (s : State) (regs : Regs) : State := s.conclude none regs

/-- `raise K` (R312): no register but `STATUS` and `ERRCODE` changes (R320); while scanlines are decoded the destination region
becomes unspecified, before that memory is unchanged (R322). -/
def State.raise (s : State) (k : FailKind) : State :=
  if s.inScanlines then s.spoilDestination.conclude (some k) s.regs else s.conclude (some k) s.regs

/-! ### The source stream -/

/-- Up to `n` bytes of the source region from offset `o`; no byte at or beyond `SRC_LEN` is read (R172). -/
def State.srcBytes (s : State) (o n : Nat) : List Byte :=
  s.mem.readBytes (s.regs.srcAddr.toNat + o) (min n (s.regs.srcLen.toNat - o))

end Sys2Proof.Machine
end

