-- ==== Sys2Proof/Machine/Orchestrator.lean ====
section
/-!
DEFINITION. The decode orchestrator: the command DHDR and what it adds between the header and the scanlines (R290 to R301).
-/

namespace Sys2Proof.Machine

/-- `DHDR` (R290): the region checks (R294), then the header phase (R291); the scanlines follow through `startImage`. -/
def execDhdr (s : State) : Result :=
  if s.regs.regionsOk then .next (s.start (.header true .s0) (Staged.atHeader s.regs)) else .next (s.raise .badOperand)

/-- After the header phase of `DHDR`, with the values just parsed staged: the capacity check of R292, then the loop over `h`
scanlines (R293). -/
def startImage (r : Run) (st : Staged) (w h : Nat) (s : State) : State :=
  if 4 * w * h ≤ s.regs.dstLen.toNat then
    { s with run := some { r with phase := .line (some h) .start, staged := st } }
  else s.raise .outputTooSmall

end Sys2Proof.Machine
end

