-- ==== Sys2Proof/Machine/Header.lean ====
section
/-!
DEFINITION. The header parser: the command HDRP and the token HDR, which is also the header phase of DHDR (R140 to R156, R291).
-/

namespace Sys2Proof.Machine

/-- The checks of a header in the order of R153: the terminator (R143), the FORMAT field (R146), the resolution line (R148 to
R151). The value is the height and the width. -/
def parseHeader (hs : HState) (text : List Byte) : Except FailKind (Nat × Nat) :=
  if headerLength hs text = some text.length then
    if formatValue text = some formatSupported then
      match headerDims text with
      | some hw => .ok hw
      | none => .error .malformedHeader
    else .error .unsupportedFormat
  else .error .malformedHeader

/-- What a header of `t` bytes stages (R152): the dimensions, the offset of the pixel data, and the scan registers ready for the
first scanline. `POS` was at the token's offset, 0, and so advances by the token's length (R31, R113). -/
def stageHeader (st : Staged) (t h w : Nat) : Staged :=
  { st with
    width := BitVec.ofNat 32 w
    height := BitVec.ofNat 32 h
    dataOff := BitVec.ofNat 32 t
    pos := BitVec.ofNat 32 t
    ipos := 0
    row := 0
    prev := 0 }

/-- `HDRP` (R140): the check of the source region (R141), then the header token, which is at offset 0. -/
def execHdrp (s : State) : Result :=
  if s.regs.srcFits then .next (s.start (.header false .s0) (Staged.atHeader s.regs)) else .next (s.raise .badOperand)

/-- `HDR`, the header token (R142 to R152): `HDRP` ends with it, `DHDR` goes on to the image (R291). -/
def execHdr (text : List Byte) (s : State) : Result :=
  match s.run with
  | some { phase := .header thenScan hs, staged := st, disturbed := d } =>
    match parseHeader hs text with
    | .error k => .next (s.raise k)
    | .ok (h, w) =>
      let st' := stageHeader st text.length h w
      if thenScan then
        .next (startImage { phase := .header thenScan hs, staged := st, disturbed := d } st' w h s)
      else .next (s.finish (s.regs.commit st'))
  | _ => .refused (.outOfContext "HDR")

end Sys2Proof.Machine
end

