-- ==== Sys2Proof/Machine/Scanline.lean ====
section
/-!
DEFINITION. The scanline RLE decoder: the command SCAN and the six tokens of a scanline (R170 to R193). DHDR runs the same tokens
(R293).
-/

namespace Sys2Proof.Machine

/-- The issue checks of `SCAN` in the order of R171: none where all pass. -/
def scanFailure (r : Regs) : Option FailKind :=
  if !r.regionsOk then some .badOperand
  else if r.width = 0 ∨ Config.dimMax < r.width.toNat then some .badOperand
  else if r.srcLen.toNat < r.pos.toNat then some .badOperand
  else if r.dstLen.toNat < r.ipos.toNat + 4 * r.width.toNat then some .outputTooSmall
  else none

/-- `SCAN` (R170): the issue checks, then the tokens of one scanline. -/
def execScan (s : State) : Result :=
  match scanFailure s.regs with
  | some k => .next (s.raise k)
  | none => .next (s.start (.line none .start) (Staged.ofRegs s.regs))

/-- The cursor moves past a token of `n` bytes (R31). -/
def Staged.skip (st : Staged) (n : Nat) : Staged := { st with pos := BitVec.ofNat 32 (st.pos.toNat + n) }

/-- The staged effect of emitting pixels (R182): `IPOS` moves on by 4 a pixel and `PREV` holds the last one. -/
def Staged.emitted (st : Staged) (px : List Rgbe) : Staged :=
  { st with
    ipos := BitVec.ofNat 32 (st.ipos.toNat + 4 * px.length)
    prev := (px.getLast?.map prevOfPixel).getD st.prev }

/-- The bytes of pixels in a row (R63). -/
def pixelBytes (px : List Rgbe) : List Byte := px.flatMap Rgbe.bytes

/-- Where the next pixel goes: `x[DST_ADDR] + x[IPOS]` (R305). -/
def emitAddr (regs : Regs) (st : Staged) : Nat := regs.dstAddr.toNat + st.ipos.toNat

/-- The end of a scanline (R188, R290): `ROW` grows by 1 modulo `2^32`; `SCAN` ends, `DHDR` ends with its last scanline and else goes
on to the next. -/
def endLine (rc : Option Nat) (r : Run) (s : State) : State :=
  let st := { r.staged with row := r.staged.row + 1 }
  match rc with
  | some (n + 2) => { s with run := some { r with phase := .line (some (n + 1)) .start, staged := st } }
  | _ => s.finish (s.regs.commit st)

/-- `Emit` for pixels in order (R182), then on: to `rest` in the same scanline, or to its end. -/
def emitThen (px : List Rgbe) (rc : Option Nat) (rest : Option LinePos) (r : Run) (s : State) : Result :=
  let a := emitAddr s.regs r.staged
  if a + 4 * px.length ≤ Config.memSize then
    let r' : Run := { r with staged := r.staged.emitted px }
    let s' := { s with mem := s.mem.writeBytes a (pixelBytes px) }
    match rest with
    | some lp => .next { s' with run := some { r' with phase := .line rc lp } }
    | none => .next (endLine rc r' s')
  else .fault (.outsideMemory a)

/-! ### New-style scanlines -/

/-- The empty planes at the start of a new-style scanline (R175). -/
def Planes.empty : Planes := ⟨[], [], [], []⟩

/-- The plane of a channel. -/
def Planes.get (tmp : Planes) : Chan → List Byte
  | .r => tmp.r
  | .g => tmp.g
  | .b => tmp.b
  | .e => tmp.e

/-- Bytes appended to the plane of a channel. -/
def Planes.put (tmp : Planes) (c : Chan) (bs : List Byte) : Planes :=
  match c with
  | .r => { tmp with r := tmp.r ++ bs }
  | .g => { tmp with g := tmp.g ++ bs }
  | .b => { tmp with b := tmp.b ++ bs }
  | .e => { tmp with e := tmp.e ++ bs }

/-- The next plane, in the order R, G, B, E (R175). -/
def Chan.next : Chan → Option Chan
  | .r => some .g
  | .g => some .b
  | .b => some .e
  | .e => none

/-- The interleave of four planes (R181). -/
def interleave : List Byte → List Byte → List Byte → List Byte → List Rgbe
  | r :: rs, g :: gs, b :: bs, e :: es => ⟨r, g, b, e⟩ :: interleave rs gs bs es
  | _, _, _, _ => []

/-- A token of a channel plane, `n` bytes long, that brings the bytes `bs` (R177 to R179): what passes the end of the plane is
dropped, a full plane gives way to the next (R176), and after the fourth the scanline is interleaved and emitted (R181). -/
def planeToken (rc : Option Nat) (c : Chan) (tmp : Planes) (n : Nat) (bs : List Byte) (r : Run) (s : State) : Result :=
  let w := r.staged.width.toNat
  let tmp' := tmp.put c (bs.take (w - (tmp.get c).length))
  let r' : Run := { r with staged := r.staged.skip n }
  if (tmp'.get c).length < w then
    .next { s with run := some { r' with phase := .line rc (.plane c tmp') } }
  else
    match Chan.next c with
    | some c' => .next { s with run := some { r' with phase := .line rc (.plane c' tmp') } }
    | none => emitThen (interleave tmp'.r tmp'.g tmp'.b tmp'.e) rc none r' s

/-- `NS.SIG` (R173 to R175): the width must be the scanline's (R174); then the signature is consumed and the R plane begins. -/
def execNsSig (width16 : BitVec 15) (s : State) : Result :=
  match s.run with
  | some { phase := .line rc .start, staged := st, disturbed := d } =>
    if width16.toNat = st.width.toNat then
      .next { s with run := some { phase := .line rc (.plane .r Planes.empty), staged := st.skip 4, disturbed := d } }
    else .next (s.raise .scanlineWidthMismatch)
  | _ => .refused (.outOfContext "NS.SIG")

/-- `NS.RUN` (R177): the value, `n` times, clipped to the plane; 2 bytes long. -/
def execNsRun (n : BitVec 7) (v : Byte) (s : State) : Result :=
  match s.run with
  | some { phase := .line rc (.plane c tmp), staged := st, disturbed := d } =>
    planeToken rc c tmp 2 (List.replicate n.toNat v) { phase := .line rc (.plane c tmp), staged := st, disturbed := d } s
  | _ => .refused (.outOfContext "NS.RUN")

/-- `NS.LIT` (R178): the data bytes, clipped to the plane, all of them consumed; `1 + c` bytes long. -/
def execNsLit (data : List Byte) (s : State) : Result :=
  match s.run with
  | some { phase := .line rc (.plane c tmp), staged := st, disturbed := d } =>
    planeToken rc c tmp (1 + data.length) data { phase := .line rc (.plane c tmp), staged := st, disturbed := d } s
  | _ => .refused (.outOfContext "NS.LIT")

/-- `NS.NOP0` (R179): a literal of no bytes, 1 byte long. -/
def execNsNop0 (s : State) : Result :=
  match s.run with
  | some { phase := .line rc (.plane c tmp), staged := st, disturbed := d } =>
    planeToken rc c tmp 1 [] { phase := .line rc (.plane c tmp), staged := st, disturbed := d } s
  | _ => .refused (.outOfContext "NS.NOP0")

/-! ### Old-style scanlines -/

/-- `EMITTED` and `SHIFT` where an old-style group may stand: both are 0 at the start of a scanline (R183, R187). -/
def groupCounters : LinePos → Option (Nat × Nat)
  | .start => some (0, 0)
  | .plane _ _ => none
  | .old emitted shift => some (emitted, shift)

/-- After an old-style group: the scanline goes on until `WIDTH` pixels are emitted (R183). -/
def oldRest (w emitted shift : Nat) : Option LinePos := if emitted < w then some (.old emitted shift) else none

/-- `OS.PIX` (R185): one pixel, copied; it ends a marker chain. -/
def execOsPix (r g b e : Byte) (s : State) : Result :=
  match s.run with
  | some { phase := .line rc lp, staged := st, disturbed := d } =>
    match groupCounters lp with
    | some (em, _) =>
      emitThen [⟨r, g, b, e⟩] rc (oldRest st.width.toNat (em + 1) 0)
        { phase := .line rc lp, staged := st.skip 4, disturbed := d } s
    | none => .refused (.outOfContext "OS.PIX")
  | _ => .refused (.outOfContext "OS.PIX")

/-- The number of pixels a marker emits: the request `e * 2^SHIFT`, a natural number, cut at the end of the scanline (R186). -/
def markerCount (w em shift : Nat) (e : Byte) : Nat := min (e.toNat * 2 ^ shift) (w - em)

/-- `OS.MARK` (R186): the pixel in `PREV` is repeated, and `SHIFT` grows by 8 up to 248. -/
def execOsMark (e : Byte) (s : State) : Result :=
  match s.run with
  | some { phase := .line rc lp, staged := st, disturbed := d } =>
    match groupCounters lp with
    | some (em, shift) =>
      let k := markerCount st.width.toNat em shift e
      emitThen (List.replicate k (pixelOfPrev st.prev)) rc (oldRest st.width.toNat (em + k) (min (shift + 8) 248))
        { phase := .line rc lp, staged := st.skip 4, disturbed := d } s
    | none => .refused (.outOfContext "OS.MARK")
  | _ => .refused (.outOfContext "OS.MARK")

end Sys2Proof.Machine
end

