-- ==== Sys2Proof/Machine/Convert.lean ====
section
/-!
DEFINITION. The four pixel-format converters: RGBE2F, F2RGBE, F2RGB9E5, RGB9E52F, and the frame that the two tone mappers share
(R210 to R243).
-/

namespace Sys2Proof.Machine

/-- `N`, the number of pixels of a conversion (R210). -/
def pixelCount (r : Regs) (strideIn : Nat) : Nat := r.srcLen.toNat / strideIn

/-- The issue checks of a conversion in the order of R210 and R323; `paramsOk` is the check of the tone mappers (R261). -/
def convertOk (r : Regs) (strideIn strideOut : Nat) (paramsOk : Bool) : Bool :=
  r.regionsOk && r.srcLen.toNat % strideIn = 0 && r.dstLen.toNat = pixelCount r strideIn * strideOut && paramsOk

/-- The bytes a conversion writes: the results of the pixels in index order (R77, R210). `pixel m a` is the output for the
input pixel at address `a`. -/
def convertedBytes (s : State) (strideIn : Nat) (pixel : Memory → Nat → List Byte) : List Byte :=
  (List.range (pixelCount s.regs strideIn)).flatMap (fun i => pixel s.mem (s.regs.srcAddr.toNat + i * strideIn))

/-- The common frame of the six conversions (R210): the checks, all pixels, `COUNT`. -/
def convert (strideIn strideOut : Nat) (paramsOk : Bool) (pixel : Memory → Nat → List Byte) (s : State) : Result :=
  if convertOk s.regs strideIn strideOut paramsOk then
    let s' := { s with mem := s.mem.writeBytes s.regs.dstAddr.toNat (convertedBytes s strideIn pixel) }
    .next (s'.finish { s.regs with count := BitVec.ofNat 32 (pixelCount s.regs strideIn) })
  else .next (s.raise .badOperand)

/-! ### The pixel functions -/

/-- `f_RGBE2F` (R211). -/
def rgbeToFloat (p : Rgbe) : FloatPixel :=
  ⟨rnd32 (rgbeChannel p.r p.e).units, rnd32 (rgbeChannel p.g p.e).units, rnd32 (rgbeChannel p.b p.e).units⟩

/-- The exponent `e` of `f_F2RGBE` for a largest channel of `v` units, before the clamp: 0 for one half (R222), else
`ceil(log2)` (R220). -/
def rgbeExponent (v : Nat) : Int := if v = 2 ^ 148 then 0 else (ceilLog2 v : Int) - 149

/-- The exponent `ec`, clamped to `-128 .. 127` (R223). -/
def rgbeExponentClamped (v : Nat) : Int := min (max (rgbeExponent v) (-128)) 127

/-- A mantissa (R224, R225): `floor(c / 2^(ec - 8))`, saturated at 255. -/
def rgbeMantissa (ec : Int) (c : Nat) : Byte := BitVec.ofNat 8 (min 255 (c / 2 ^ (141 + ec).toNat))

/-- `f_F2RGBE` (R220). -/
def floatToRgbe (p : FloatPixel) : Rgbe :=
  let r := (san p.r).units
  let g := (san p.g).units
  let b := (san p.b).units
  let v := max r (max g b)
  if v = 0 then ⟨0, 0, 0, 0⟩
  else
    let ec := rgbeExponentClamped v
    ⟨rgbeMantissa ec r, rgbeMantissa ec g, rgbeMantissa ec b, BitVec.ofNat 8 (ec + 128).toNat⟩

/-- 32768 in units of `2^-149`, the input clamp of `F2RGB9E5` (R231). -/
def rgb9e5Clamp : Nat := 2 ^ 164

/-- The shared exponent before re-normalisation (R232), for a largest channel of `maxC` units. -/
def sharedExponent (maxC : Nat) : Nat := if maxC < 2 ^ 133 then 0 else Nat.log2 maxC - 133

/-- The shared exponent after the one re-normalisation step (R233). -/
def finalExponent (maxC : Nat) : Nat :=
  let es := sharedExponent maxC
  if 511 < rhuDiv maxC (125 + es) then es + 1 else es

/-- `f_F2RGB9E5` (R230, R234). -/
def floatToRgb9e5 (p : FloatPixel) : Word :=
  let r := min (san p.r).units rgb9e5Clamp
  let g := min (san p.g).units rgb9e5Clamp
  let b := min (san p.b).units rgb9e5Clamp
  let es := finalExponent (max r (max g b))
  BitVec.ofNat 32
    (rhuDiv r (125 + es) * 2 ^ 23 + rhuDiv g (125 + es) * 2 ^ 14 + rhuDiv b (125 + es) * 2 ^ 5 + es)

/-- `f_RGB9E52F` (R241). -/
def rgb9e5ToFloat (w : Word) : FloatPixel :=
  ⟨rnd32 (rgb9e5Channel (r9 w) (e5 w)).units, rnd32 (rgb9e5Channel (g9 w) (e5 w)).units,
    rnd32 (rgb9e5Channel (b9 w) (e5 w)).units⟩

/-! ### The commands -/

/-- `RGBE2F` (R211): RGBE pixels of 4 bytes to float pixels of 12. -/
def execRgbe2f (s : State) : Result :=
  convert 4 12 true (fun m a => (rgbeToFloat (m.rgbeAt a)).bytes) s

/-- `F2RGBE` (R220): float pixels of 12 bytes to RGBE pixels of 4. -/
def execF2rgbe (s : State) : Result :=
  convert 12 4 true (fun m a => (floatToRgbe (m.floatAt a)).bytes) s

/-- `F2RGB9E5` (R230): float pixels of 12 bytes to RGB9_E5 words of 4. -/
def execF2rgb9e5 (s : State) : Result :=
  convert 12 4 true (fun m a => leBytes (floatToRgb9e5 (m.floatAt a))) s

/-- `RGB9E52F` (R241): RGB9_E5 words of 4 bytes to float pixels of 12. -/
def execRgb9e52f (s : State) : Result :=
  convert 4 12 true (fun m a => (rgb9e5ToFloat (m.readWord a)).bytes) s

end Sys2Proof.Machine
end

