-- ==== Sys2Proof/Machine/Tone.lean ====
section
/-!
DEFINITION. The two tone mappers: RGBE2LDR and F2LDR (R260 to R278). The power function is the exact real power (R262 with
`POW_EPS = 0`): a threshold is decided by comparing powers of integers (R277), and where a bound on the logarithms already
decides it, by that bound.
-/

namespace Sys2Proof.Machine

/-- The parameter check (R261): a finite exposure, a finite gamma above zero. -/
def toneParamsOk (exposure gamma : Word) : Bool :=
  f32IsFinite exposure && f32IsFinite gamma && !f32Sign gamma && (f32Magnitude gamma).units ≠ 0

/-- How many fraction bits of a base-2 logarithm are looked at before the exact comparison. -/
def logBits : Nat := 16

/-- `floor(2^logBits * log2 n)` for `n > 0`: the integer part of the logarithm, then its fraction bit by bit. -/
def logFloor (n : Nat) : Nat :=
  (List.range logBits).foldl
    (fun e k => let e' := e + 2 ^ (logBits - 1 - k); if 2 ^ e' ≤ n ^ 2 ^ logBits then e' else e) (2 ^ logBits * Nat.log2 n)

/-- `ceil(2^logBits * log2 n)` for `n > 0`. -/
def logCeil (n : Nat) : Nat := if 2 ^ logFloor n = n ^ 2 ^ logBits then logFloor n else logFloor n + 1

/-- The comparison of R277 by exact powers. With `y = 255 * (m * 2^(q / 2^149))^(2^149 / g)` and `d = 2n - 1`, `y >= n - 1/2`
(`>` where `strict`) holds exactly when `m^(2^149) * 2^q * 510^g >= d^g`; the exponents are first divided by their greatest
common divisor, and a negative power of two moves to the other side. -/
def powReaches (strict : Bool) (m : Nat) (q : Int) (g d : Nat) : Bool :=
  let k := Nat.gcd (2 ^ 149) (Nat.gcd g q.natAbs)
  let lhs := m ^ (2 ^ 149 / k) * 510 ^ (g / k) * 2 ^ (q.toNat / k)
  let rhs := d ^ (g / k) * 2 ^ ((-q).toNat / k)
  if strict then rhs < lhs else rhs ≤ lhs

/-- The same comparison decided by bounds on the logarithms, `2^149 * log2 m + q` against `g * (log2 d - log2 510)`: none where
the bounds leave it open. -/
def logReaches (m : Nat) (q : Int) (g d : Nat) : Option Bool :=
  let lhsLo : Int := 2 ^ 149 * logFloor m + 2 ^ logBits * q
  let lhsHi : Int := 2 ^ 149 * logCeil m + 2 ^ logBits * q
  let rhsLo : Int := g * ((logFloor d : Int) - logCeil 510)
  let rhsHi : Int := g * ((logCeil d : Int) - logFloor 510)
  if rhsHi < lhsLo then some true else if lhsHi < rhsLo then some false else none

/-- The exponent of two in the exposed value of a channel, in units of `2^-149`: `x * ef = mant * 2^(q / 2^149)` with
`ef = 2^(ex - 1)` (R263). -/
def exposedExponent (exposure : Word) (x : Scaled) : Int :=
  f32Units exposure - 2 ^ 149 + 2 ^ 149 * ((x.shift : Int) - 149)

/-- Whether the rounded result of a channel is at least `n`, `n` in 1 to 255: `y >= n - 1/2` for an even `n`, `y > n - 1/2` for an
odd one, since ties go to the even integer (R264, R273). DEDUCED (log 26): where R271 (e) says that the smallest gamma takes every exposed
value below 1 to 0, a value very close below 1 can reach more by R264, and R264 is followed. -/
def toneReaches (exposure gamma : Word) (x : Scaled) (n : Nat) : Bool :=
  if x.mant = 0 then false
  else
    let q := exposedExponent exposure x
    let g := (f32Magnitude gamma).units
    (logReaches x.mant q g (2 * n - 1)).getD (powReaches (n % 2 = 1) x.mant q g (2 * n - 1))

/-- `T(x)` (R264): the largest `n` up to 255 that the channel reaches, found bit by bit. -/
def toneByte (exposure gamma : Word) (x : Scaled) : Byte :=
  BitVec.ofNat 8
    ([128, 64, 32, 16, 8, 4, 2, 1].foldl (fun n k => if toneReaches exposure gamma x (n + k) then n + k else n) 0)

/-- `f_RGBE2LDR` (R265): alpha is 255 (R274). -/
def rgbeToLdr (exposure gamma : Word) (p : Rgbe) : Ldr :=
  ⟨toneByte exposure gamma (rgbeChannel p.r p.e), toneByte exposure gamma (rgbeChannel p.g p.e),
    toneByte exposure gamma (rgbeChannel p.b p.e), 255⟩

/-- `f_F2LDR` (R270): alpha is 255 (R274). -/
def floatToLdr (exposure gamma : Word) (p : FloatPixel) : Ldr :=
  ⟨toneByte exposure gamma (san p.r), toneByte exposure gamma (san p.g), toneByte exposure gamma (san p.b), 255⟩

/-- `RGBE2LDR` (R265): RGBE pixels to display pixels, both of 4 bytes. -/
def execRgbe2ldr (s : State) : Result :=
  convert 4 4 (toneParamsOk s.regs.exposure s.regs.gamma)
    (fun m a => (rgbeToLdr s.regs.exposure s.regs.gamma (m.rgbeAt a)).bytes) s

/-- `F2LDR` (R270): float pixels of 12 bytes to display pixels of 4. -/
def execF2ldr (s : State) : Result :=
  convert 12 4 (toneParamsOk s.regs.exposure s.regs.gamma)
    (fun m a => (floatToLdr s.regs.exposure s.regs.gamma (m.floatAt a)).bytes) s

end Sys2Proof.Machine
end

