-- ==== Sys2Proof/Machine/Dispatch.lean ====
section
/-! DEFINITION. The dispatch: one arm for each constructor of Instr. -/

namespace Sys2Proof.Machine

def exec (i : Instr) (s : State) : Host.Outcome State Fault Refusal :=
  match i with
  | .hdrp => Sys2Proof.Machine.execHdrp s
  | .scan => Sys2Proof.Machine.execScan s
  | .dhdr => Sys2Proof.Machine.execDhdr s
  | .rgbe2f => Sys2Proof.Machine.execRgbe2f s
  | .f2rgbe => Sys2Proof.Machine.execF2rgbe s
  | .f2rgb9e5 => Sys2Proof.Machine.execF2rgb9e5 s
  | .rgb9e52f => Sys2Proof.Machine.execRgb9e52f s
  | .rgbe2ldr => Sys2Proof.Machine.execRgbe2ldr s
  | .f2ldr => Sys2Proof.Machine.execF2ldr s
  | .hdr text => Sys2Proof.Machine.execHdr text s
  | .nsSig w => Sys2Proof.Machine.execNsSig w s
  | .osMark e => Sys2Proof.Machine.execOsMark e s
  | .osPix r g b e => Sys2Proof.Machine.execOsPix r g b e s
  | .nsNop0 => Sys2Proof.Machine.execNsNop0 s
  | .nsRun n v => Sys2Proof.Machine.execNsRun n v s
  | .nsLit data => Sys2Proof.Machine.execNsLit data s

end Sys2Proof.Machine
end

