-- ==== Sys2Proof/Machine/Fetch.lean ====
section
/-!
DEFINITION. What the engine does next: the command word in `CMD` (R27, R90) or the token at `POS` of the source stream
(R31, R113), or the failure that stands in its place.
-/

namespace Sys2Proof.Machine

/-- What a fetch finds. -/
inductive Fetched where
  /-- An instruction to run. -/
  | run (i : Instr)
  /-- No instruction: the command fails (R92, R172). -/
  | failure (k : FailKind)
  /-- The stream lies outside memory. -/
  | stop (f : Fault)
  deriving DecidableEq, Repr

/-- The place a phase fetches from. -/
def Phase.place : Phase → Place
  | .issued => .command
  | .header _ hs => .header hs
  | .line _ .start => .lineStart
  | .line _ (.plane _ _) => .plane
  | .line _ (.old _ _) => .oldStyle

/-- The code at that place: the command word, the whole source region for the header (R142), else the bytes from `POS` on, as many
as the longest token has. -/
def fetchCode (r : Run) (s : State) : Code :=
  match r.phase with
  | .issued => .word s.regs.cmd
  | .header _ _ => .bytes (s.srcBytes 0 s.regs.srcLen.toNat)
  | .line _ _ => .bytes (s.srcBytes r.staged.pos.toNat longestToken)

/-- The failure of a code that holds no instruction: an illegal command word (R92), or a stream that ends early (R316). -/
def decodeFailure : DecodeError → FailKind
  | .illegalCommand => .badOperand
  | .truncated => .inputUnderrun
  | .wrongForm => .badOperand

/-- The next instruction of a running command. The source region of a command that reads the stream has been checked at issue
(R68); without that check the fetch would leave memory. -/
def fetch (r : Run) (s : State) : Fetched :=
  if r.phase ≠ .issued ∧ !s.regs.srcFits then .stop (.outsideMemory s.regs.srcEnd)
  else
    match decode r.phase.place (fetchCode r s) with
    | .ok i => .run i
    | .error e => .failure (decodeFailure e)

end Sys2Proof.Machine
end

