-- ==== Sys2Proof/Machine/HostPort.lean ====
section
/-!
DEFINITION. The host's side of the block: register reads and writes (R20, R27, R37), its accesses to buffer memory (R74, R76), and
reset (R350).
-/

namespace Sys2Proof.Machine

/-- A host write to a register (R20, R37): ignored while a command runs; while idle a write to `CMD` issues a command (R27). -/
def State.hostWrite (s : State) (i : Nat) (v : Word) : State :=
  match s.run with
  | some _ => s
  | none => if i = 6 then s.issue v else { s with regs := s.regs.hostSet i v }

/-- A host read of a register (R20, R37): while a command runs only `STATUS` has a specified value; another register reads as a free
value, and an index that names no register reads as 0 (log 3). -/
def State.hostRead (s : State) (i : Nat) : State :=
  if s.run.isSome ∧ i ≠ 7 ∧ i < Config.nreg then
    { s with busData := Config.busyRead (s.draws + 1) i, draws := s.draws + 1 }
  else { s with busData := s.regs.get i }

/-- A command runs and the host has now touched one of its regions (R76). -/
def State.disturb (s : State) : State := { s with run := s.run.map (fun r => { r with disturbed := true }) }

/-- A host write of a byte of buffer memory; in a region of the running command it disturbs the command (R76). DEDUCED (log 17): outside
both regions it does not, though D4 has the host poll `STATUS` only. -/
def State.hostStore (s : State) (a : Nat) (b : Byte) : State :=
  let s' := { s with mem := s.mem.write a b }
  if s.regs.inSource a || s.regs.inDestination a then s'.disturb else s'

/-- A host read of a byte of buffer memory (R74); in the destination region of a running command the byte is a free value and the
command is disturbed (R76). DEDUCED (log 17): any other load gives the byte and disturbs nothing, one from the source region too, where R358
and D4 read more strictly than R76. -/
def State.hostLoad (s : State) (a : Nat) : State :=
  if s.run.isSome ∧ s.regs.inDestination a then
    { s.disturb with
      busData := ((Config.busyRead (s.draws + 1) a).setWidth 8).setWidth 32
      draws := s.draws + 1 }
  else { s with busData := (s.mem.read a).setWidth 32 }

/-- Reset (R350): every register takes its reset value and the engine is idle; memory keeps its content (R351), but for the
destination region of a command that was running, which is unspecified from then on. -/
def State.resetBlock (s : State) : State :=
  { (if s.run.isSome then s.spoilDestination else s) with
    regs := Regs.reset
    run := none }

end Sys2Proof.Machine
end

