-- ==== Sys2Proof/Machine/Engine.lean ====
section
/-!
DEFINITION. What a step is made of: one step of the engine, which runs the instruction it fetches (R27, R113), and one move of the
host; and the state in which a running command is about to fetch a given token.
-/

namespace Sys2Proof.Machine

/-- What the engine does with what it fetched: it runs the instruction, or the command fails (R92, R172). -/
def runFetched (f : Fetched) (s : State) : Result :=
  match f with
  | .run i => exec i s
  | .failure k => .next (s.raise k)
  | .stop e => .fault e

/-- One step of the engine: idle it does nothing (R353); in a running command it runs what it fetches (R27, R113). -/
def engineStep (s : State) : Result :=
  match s.run with
  | none => .next s
  | some r => runFetched (fetch r s) s

/-- One move of the host, `s` being the state without it. DESIGN CHOICE (log 25): R60 leaves to the platform which addresses are backed
by storage; here all `2^32` are. -/
def hostStep (mv : HostMove) (s : State) : Result :=
  match mv with
  | .write i v => .next (s.hostWrite i v)
  | .read i => .next (s.hostRead i)
  | .store a b => if a < Config.memSize then .next (s.hostStore a b) else .fault (.outsideMemory a)
  | .load a => if a < Config.memSize then .next (s.hostLoad a) else .fault (.outsideMemory a)
  | .reset => .next s.resetBlock
  | .wait => engineStep s

/-- The state in which a running command is about to fetch a token placed at the start of buffer memory: a `SCAN` (the header
token: an `HDRP`) with a legal `WIDTH` (the register's own, else 1), whose source region is the token's bytes and whose destination region holds one
scanline and lies after them. -/
def State.withToken (s : State) (p : Place) (bs : List Byte) : State :=
  let w : Word := if 1 ≤ s.regs.width.toNat ∧ s.regs.width.toNat ≤ Config.dimMax then s.regs.width else 1
  let ph : Phase :=
    match p with
    | .header hs => .header false hs
    | .plane => .line none (.plane .r Planes.empty)
    | .oldStyle => .line none (.old 0 0)
    | _ => .line none .start
  let regs : Regs :=
    { s.regs with
      srcAddr := 0
      srcLen := BitVec.ofNat 32 bs.length
      dstAddr := BitVec.ofNat 32 bs.length
      dstLen := BitVec.ofNat 32 (4 * w.toNat)
      cmd := match p with | .header _ => 1 | _ => 2
      status := statusBusy
      errcode := 0
      width := w
      pos := 0
      ipos := 0 }
  { s with
    regs := regs
    mem := s.mem.writeBytes 0 bs
    run := some { phase := ph, staged := Staged.ofRegs regs, disturbed := false }
    inputs := [] }

end Sys2Proof.Machine
end

