-- ==== Sys2Proof/Machine/Step.lean ====
section
/-!
DEFINITION. One step of the machine. The host's pending move comes first; where the host lets the engine go on, or has no move
pending, the engine runs the instruction it fetches. An idle engine does nothing until the host writes `CMD` (R353).
-/

namespace Sys2Proof.Machine

/-- One step. -/
def step (s : State) : Host.Outcome State Fault Refusal :=
  match s.inputs with
  | [] => engineStep s
  | mv :: rest => hostStep mv { s with inputs := rest }

/-- The state whose next step fetches and runs the instruction of a table row: a command word stands in `CMD`, issued (R27); a
token's bytes stand where a running command fetches its next token. No host move is pending (log 12). -/
def State.withFetchWord (s : State) (nbits w : Nat) : State :=
  match tablePlace nbits w with
  | none => s
  | some .command => { s.issue (BitVec.ofNat 32 w) with inputs := [] }
  | some p => s.withToken p (tableBytes nbits w)

end Sys2Proof.Machine
end

