-- ==== Sys2Proof/Safety.lean ====
section
/-!
DEFINITION. The terms claims use: the invariant of the machine's states, and the decoder of the spec's pseudocode as functions of
bytes alone, against which the token-by-token machine is held.
-/

namespace Sys2Proof.Machine

/-! ### The invariant -/

/-- `STATUS` and `ERRCODE` take only the values of R28 and R29, and `BUSY` is set exactly while a command runs. -/
def statusOk (s : State) : Bool :=
  match s.run with
  | some _ => s.regs.status = statusBusy && s.regs.errcode = 0
  | none =>
    (s.regs.status = 0 && s.regs.errcode = 0) || (s.regs.status = statusDone && s.regs.errcode = 0) ||
      (s.regs.status = statusFailed && 1 ≤ s.regs.errcode.toNat && s.regs.errcode.toNat ≤ 6)

/-- Memory has its canonical form, and every draw it remembers has been made. -/
def memoryOk (s : State) : Bool :=
  s.mem.wf && s.mem.unspec.all (fun sp => 1 ≤ sp.draw && sp.draw ≤ s.draws)

/-- The planes of a new-style scanline of `w` pixels while plane `c` is being filled (R175, R176): the planes before it are full, it is
not, the planes after it are empty. -/
def planesOk (w : Nat) (c : Chan) (tmp : Planes) : Bool :=
  match c with
  | .r => tmp.r.length < w && tmp.g = [] && tmp.b = [] && tmp.e = []
  | .g => tmp.r.length = w && tmp.g.length < w && tmp.b = [] && tmp.e = []
  | .b => tmp.r.length = w && tmp.g.length = w && tmp.b.length < w && tmp.e = []
  | .e => tmp.r.length = w && tmp.g.length = w && tmp.b.length = w && tmp.e.length < w

/-- The position in a scanline of `w` pixels (R41). -/
def linePosOk (w : Nat) : LinePos → Bool
  | .start => true
  | .plane c tmp => planesOk w c tmp
  | .old em sh => em < w && sh % 8 = 0 && sh ≤ 248

/-- The pixels of the current scanline already emitted. -/
def emittedPixels : LinePos → Nat
  | .old em _ => em
  | _ => 0

/-- Which command decodes scanlines, and how many are left (R290): `SCAN` one, `DHDR` `RC` of them. -/
def linesLeft (rc : Option Nat) : Nat := rc.getD 1

/-- The running command and its phase agree with `CMD`. -/
def phaseCommandOk (cmd : Word) : Phase → Bool
  | .issued => true
  | .header thenScan _ => cmd = (if thenScan then 3 else 1)
  | .line none _ => cmd = 2
  | .line (some n) _ => cmd = 3 && 1 ≤ n

/-- What a running command has established (R41, R68, R171, R292): after its issue checks its regions are in order; in a scanline its cursor
is inside the stream and the pixels still to come fit in the destination region. While a header token is due the cursor is at its offset, 0
(R31), and the other staged values are still the registers' own. -/
def runOk (regs : Regs) (r : Run) : Bool :=
  phaseCommandOk regs.cmd r.phase && r.staged.count = regs.count &&
  match r.phase with
  | .issued => r.staged = Staged.ofRegs regs
  | .header thenScan hs =>
    hs = .s0 && r.staged = Staged.atHeader regs && regs.srcFits && (!thenScan || regs.regionsOk)
  | .line rc lp =>
    regs.regionsOk && 1 ≤ r.staged.width.toNat && r.staged.width.toNat ≤ Config.dimMax &&
      r.staged.pos.toNat ≤ regs.srcLen.toNat &&
      r.staged.ipos.toNat + 4 * (linesLeft rc * r.staged.width.toNat - emittedPixels lp) ≤ regs.dstLen.toNat &&
      linePosOk r.staged.width.toNat lp

/-- The invariant of every state that steps lead to. -/
def Inv (s : State) : Prop :=
  statusOk s = true ∧ memoryOk s = true ∧ ∀ r, s.run = some r → runOk s.regs r = true

/-! ### The decoder as a function of bytes -/

/-- One channel plane (R175 to R179): the plane's bytes and the bytes after it; `fuel` bounds the tokens. -/
def refPlane (w : Nat) : Nat → List Byte → List Byte → Option (List Byte × List Byte)
  | fuel, acc, bs =>
    if w ≤ acc.length then some (acc, bs)
    else
      match fuel, bs with
      | fuel + 1, c :: rest =>
        if 128 < c.toNat then
          match rest with
          | v :: rest' =>
            refPlane w fuel (acc ++ List.replicate (min (c.toNat - 128) (w - acc.length)) v) rest'
          | [] => none
        else if c.toNat ≤ rest.length then
          refPlane w fuel (acc ++ (rest.take c.toNat).take (w - acc.length)) (rest.drop c.toNat)
        else none
      | _, _ => none

/-- Pixel `i` of a scanline of `w` pixels holds byte `i` of each plane, in the order R, G, B, E (R181). -/
def planePixels (w : Nat) (r g b e : List Byte) : List Rgbe :=
  (List.range w).map (fun i => ⟨r.getD i 0, g.getD i 0, b.getD i 0, e.getD i 0⟩)

/-- Four planes one after another, and their pixels (R175, R181). -/
def refNewStyle (w : Nat) (bs : List Byte) : Option (List Rgbe × List Byte) := do
  let (r, bs1) ← refPlane w bs.length [] bs
  let (g, bs2) ← refPlane w bs1.length [] bs1
  let (b, bs3) ← refPlane w bs2.length [] bs2
  let (e, bs4) ← refPlane w bs3.length [] bs3
  return (planePixels w r g b e, bs4)

/-- `OldStyle` (R183) from a state of its loop: the pixels still to emit and the bytes after them. -/
def refOldStyle (w : Nat) : Nat → Nat → Nat → Rgbe → List Byte → Option (List Rgbe × List Byte)
  | fuel, em, sh, prev, bs =>
    if w ≤ em then some ([], bs)
    else
      match fuel, bs with
      | fuel + 1, r :: g :: b :: e :: rest =>
        if r = 1 ∧ g = 1 ∧ b = 1 then
          let k := min (e.toNat * 2 ^ sh) (w - em)
          (refOldStyle w fuel (em + k) (min (sh + 8) 248) prev rest).map
            (fun x => (List.replicate k prev ++ x.1, x.2))
        else (refOldStyle w fuel (em + 1) 0 ⟨r, g, b, e⟩ rest).map (fun x => (⟨r, g, b, e⟩ :: x.1, x.2))
      | _, _ => none

/-- `DecodeScanline(W)` (R170): the pixels of one scanline and the bytes after it, or the failure. -/
def refScanline (w : Nat) (prev : Rgbe) (bs : List Byte) : Except FailKind (List Rgbe × List Byte) :=
  match bs with
  | b0 :: b1 :: b2 :: b3 :: rest =>
    if b0 = 2 ∧ b1 = 2 ∧ b2.toNat < 128 then
      if b2.toNat * 256 + b3.toNat = w then
        match refNewStyle w rest with
        | some x => .ok x
        | none => .error .inputUnderrun
      else .error .scanlineWidthMismatch
    else
      match refOldStyle w bs.length 0 0 prev bs with
      | some x => .ok x
      | none => .error .inputUnderrun
  | _ => .error .inputUnderrun

/-- The scanline loop of `DHDR` (R293): `h` scanlines, each starting where the one above ended and with its last pixel. -/
def refScanlines (w : Nat) : Nat → Rgbe → List Byte → Except FailKind (List Rgbe × List Byte)
  | 0, _, bs => .ok ([], bs)
  | h + 1, prev, bs =>
    match refScanline w prev bs with
    | .error k => .error k
    | .ok (px, bs') =>
      match refScanlines w h (px.getLast?.getD prev) bs' with
      | .error k => .error k
      | .ok (px', bs'') => .ok (px ++ px', bs'')

/-- The bytes of the source region from `POS` to its end. -/
def streamFrom (s : State) (pos : Nat) : List Byte := s.srcBytes pos (s.regs.srcLen.toNat - pos)

/-- `FindTerminator` and the checks of a header, on the source region (R142 to R151): the header length, height and width. -/
def refHeader (bs : List Byte) : Except FailKind (Nat × Nat × Nat) :=
  match headerLength .s0 bs with
  | none => .error .malformedHeader
  | some t =>
    if formatValue (bs.take t) = some formatSupported then
      match headerDims (bs.take t) with
      | some (h, w) => .ok (t, h, w)
      | none => .error .malformedHeader
    else .error .unsupportedFormat

/-- The state after a failure raised while no scanline is decoded (R312, R320, R322). -/
def failedState (s : State) (k : FailKind) : State :=
  { s with regs := s.regs.withOutcome k.code, run := none }

/-- The state after a failure raised while scanlines are decoded: the destination region is unspecified too (R72). -/
def failedInScanlines (s : State) (k : FailKind) : State := failedState s.spoilDestination k

/-- The state after `SCAN` decoded the pixels `px` and left `rest` of the source region unread (R188). -/
def scannedState (s : State) (px : List Rgbe) (rest : List Byte) : State :=
  { s with
    regs := Regs.withOutcome
      { s.regs with
        pos := BitVec.ofNat 32 (s.regs.srcLen.toNat - rest.length)
        ipos := BitVec.ofNat 32 (s.regs.ipos.toNat + 4 * px.length)
        row := s.regs.row + 1
        prev := (px.getLast?.map prevOfPixel).getD s.regs.prev } 0
    mem := s.mem.writeBytes (s.regs.dstAddr.toNat + s.regs.ipos.toNat) (pixelBytes px)
    run := none }

/-- The state after `HDRP` found a header of `t` bytes with these dimensions (R152). -/
def parsedState (s : State) (t h w : Nat) : State :=
  { s with
    regs := Regs.withOutcome
      { s.regs with
        width := BitVec.ofNat 32 w
        height := BitVec.ofNat 32 h
        dataOff := BitVec.ofNat 32 t
        pos := BitVec.ofNat 32 t
        ipos := 0
        row := 0
        prev := 0 } 0
    run := none }

/-- The state after `DHDR` decoded the image `px` (R296). -/
def decodedState (s : State) (t h w : Nat) (px : List Rgbe) (rest : List Byte) : State :=
  { s with
    regs := Regs.withOutcome
      { s.regs with
        width := BitVec.ofNat 32 w
        height := BitVec.ofNat 32 h
        dataOff := BitVec.ofNat 32 t
        pos := BitVec.ofNat 32 (s.regs.srcLen.toNat - rest.length)
        ipos := BitVec.ofNat 32 (4 * w * h)
        row := BitVec.ofNat 32 h
        prev := (px.getLast?.map prevOfPixel).getD 0 } 0
    mem := s.mem.writeBytes s.regs.dstAddr.toNat (pixelBytes px)
    run := none }

/-- The command `c` has just been issued (R27): it stands in `CMD`, nothing else has happened, no host move is pending. -/
def Issued (s : State) : Prop :=
  s.run = some { phase := .issued, staged := Staged.ofRegs s.regs, disturbed := false } ∧ s.inputs = []

/-- The address lies in the source region of the command in `CMD` (R61, R90): every command has one. -/
def InSource (r : Regs) (a : Nat) : Prop :=
  1 ≤ r.cmd.toNat ∧ r.cmd.toNat ≤ 9 ∧ r.srcAddr.toNat ≤ a ∧ a < r.srcAddr.toNat + r.srcLen.toNat

/-- The address lies in the destination region of the command in `CMD` (R62): every command but `HDRP` has one. -/
def InDestination (r : Regs) (a : Nat) : Prop :=
  2 ≤ r.cmd.toNat ∧ r.cmd.toNat ≤ 9 ∧ r.dstAddr.toNat ≤ a ∧ a < r.dstAddr.toNat + r.dstLen.toNat

/-- `k` steps of the machine lead from one state to another. -/
def leadsTo (k : Nat) (s t : State) : Prop := Host.Core.run Sys2Proof.core k s = .next t

/-! ### A command from its issue to its end -/

/-- The host, with no other move pending, writes `c` to `CMD` while the engine is idle (R27), and the engine ends idle in `t`. -/
def Ends (s : State) (c : Word) (t : State) : Prop :=
  s.run = none ∧ s.inputs = [] ∧ t.run = none ∧ ∃ k, leadsTo k (s.issue c) t

/-- `n` successful `SCAN`s one after another. -/
def scansTo : Nat → State → State → Prop
  | 0, s, t => s = t
  | n + 1, s, t => ∃ u, Ends s 2 u ∧ u.regs.errcode = 0 ∧ scansTo n u t

/-! ### Tokens -/

/-- The terminator pattern of R100 stands at the end: `LF LF`, one or more bytes other than `LF`, `LF`. -/
def EndsWithTerminator (text : List Byte) : Prop :=
  ∃ before line, text = before ++ [lf, lf] ++ line ++ [lf] ∧ line ≠ [] ∧ lf ∉ line

/-- The length and the plane bytes of a token of a channel plane (R106 to R108). -/
def planeBytes : Instr → Option (Nat × List Byte)
  | .nsRun n v => some (2, List.replicate n.toNat v)
  | .nsLit data => some (1 + data.length, data)
  | .nsNop0 => some (1, [])
  | _ => none

/-- The state after the last token of a scanline, whose last pixels are `px` (R182, R188, R290): the pixels are stored at `IPOS`, and
`DHDR` with scanlines left goes on, else the command is done. -/
def scanlineDone (rc : Option Nat) (st : Staged) (px : List Rgbe) (s : State) : State :=
  let m := s.mem.writeBytes (s.regs.dstAddr.toNat + st.ipos.toNat) (pixelBytes px)
  let st' : Staged :=
    { st with
      ipos := BitVec.ofNat 32 (st.ipos.toNat + 4 * px.length)
      row := st.row + 1
      prev := (px.getLast?.map prevOfPixel).getD st.prev }
  match rc with
  | some (n + 2) =>
    { s with
      mem := m
      run := some { phase := .line (some (n + 1)) .start, staged := st', disturbed := false } }
  | _ => { s with mem := m, regs := (s.regs.commit st').withOutcome 0, run := none }

/-- The bytes a token of a scanline stores, as address and length (R182): a group's pixels, or a whole scanline with the token that
fills the fourth plane. -/
def storedByToken (i : Instr) (w : Nat) (lp : LinePos) (a : Nat) : Nat × Nat :=
  match i, lp with
  | .osPix _ _ _ _, _ => (a, 4)
  | .osMark e, .old em sh => (a, 4 * markerCount w em sh e)
  | .osMark e, .start => (a, 4 * markerCount w 0 0 e)
  | .nsRun n _, .plane .e tmp => if w ≤ tmp.e.length + n.toNat then (a, 4 * w) else (a, 0)
  | .nsLit data, .plane .e tmp => if w ≤ tmp.e.length + data.length then (a, 4 * w) else (a, 0)
  | _, _ => (a, 0)

/-! ### Conversions -/

/-- A conversion has been issued and its checks pass (R68, R210): `strideIn` and `strideOut` are its strides. -/
def ConversionReady (s : State) (strideIn strideOut : Nat) : Prop :=
  Issued s ∧ s.regs.regionsOk = true ∧ s.regs.srcLen.toNat % strideIn = 0 ∧
    s.regs.dstLen.toNat = s.regs.srcLen.toNat / strideIn * strideOut

/-- A conversion of `n` pixels has succeeded (R71, R210, R311): `COUNT`, `STATUS`, `ERRCODE` are written, no other register, and no byte
outside the destination. -/
def ConversionDone (s : State) (n strideOut : Nat) (t : State) : Prop :=
  t.regs = { s.regs with count := BitVec.ofNat 32 n, status := 0b010, errcode := 0 } ∧
    t.run = none ∧ t.inputs = s.inputs ∧ t.busData = s.busData ∧ t.draws = s.draws ∧
    ∀ a, (a < s.regs.dstAddr.toNat ∨ s.regs.dstAddr.toNat + n * strideOut ≤ a) → t.mem.read a = s.mem.read a

/-- The strides of the conversions (R210) and whether they read the parameters (R261). -/
def conversionShape : Instr → Option (Nat × Nat × Bool)
  | .rgbe2f => some (4, 12, false)
  | .f2rgbe => some (12, 4, false)
  | .f2rgb9e5 => some (12, 4, false)
  | .rgb9e52f => some (4, 12, false)
  | .rgbe2ldr => some (4, 4, true)
  | .f2ldr => some (12, 4, true)
  | _ => none

/-- A pattern is finite, without sign, and its value is that many units of `2^-149` (R11). -/
def denotes (w : Word) (units : Nat) : Prop :=
  w.toNat < 0x7F800000 ∧ f32Units w = units

/-- The real number of that many units of `2^-149`. -/
def IsUnits (units : Int) (x : ℝ) : Prop := x = (units : ℝ) / 2 ^ 149

/-- `n = rne(y)` (R14): the nearest integer, ties to even. -/
def IsRne (y : ℝ) (n : Nat) : Prop := |y - n| ≤ 1 / 2 ∧ (|y - n| = 1 / 2 → Even n)

/-- `n = T(x)` (R263, R264), with the real power function. -/
def IsTone (exposure gamma : Word) (x : ℝ) (n : Nat) : Prop :=
  ∀ ex ga : ℝ, IsUnits (f32Units exposure) ex → IsUnits (f32Units gamma) ga →
    IsRne (max 0 (min 255 (255 * (x * (2 : ℝ) ^ (ex - 1)) ^ (1 / ga)))) n

end Sys2Proof.Machine
end

