-- ==== Sys2Proof/Certificates/Slice0/Obligations.lean ====
section
/-!
DEFINITION. The statements for the provers. Each docstring names the rule of spec/ that the statement formalises, or the entry of the
assumption log where the statement is about a choice of the model.
-/

section Slice0

open Sys2Proof Sys2Proof.Machine

/-! ### Encoding -/

/-- Decoding an encoded instruction gives it back, in every place where it is recognised and whatever bytes follow (R90, R100, R104 to
R108, R110, R111, R113). -/
def Obligations.DecodeEncode : Prop :=
  ∀ (i : Instr) (p : Place) (rest : List Byte), WellFormed i = true → recognisedAt p i = true →
    match encode i with
    | .word w => decode p (.word w) = .ok i
    | .bytes bs => decode p (.bytes (bs ++ rest)) = .ok i

/-- What is decoded is well-formed, is recognised in its place, and was read from its own code. At the header place the bytes always decode
to a header token: the shortest prefix that ends with the terminator pattern, which is well-formed, or, where no prefix ends so, all the
bytes, which are not (log 16). -/
def Obligations.DecodedIsEncoded : Prop :=
  (∀ (p : Place) (c : Code) (i : Instr), (∀ hs, p ≠ .header hs) → decode p c = .ok i →
    WellFormed i = true ∧ recognisedAt p i = true ∧
      match c, encode i with
      | .word w, .word w' => w = w'
      | .bytes bs, .bytes e => ∃ rest, bs = e ++ rest
      | _, _ => False) ∧
  ∀ bs : List Byte, ∃ text rest, decode (.header .s0) (.bytes bs) = .ok (.hdr text) ∧ bs = text ++ rest ∧
    recognisedAt (.header .s0) (.hdr text) = true ∧
    ((WellFormed (.hdr text) = true ∧ EndsWithTerminator text ∧ ∀ m, m < text.length → ¬ EndsWithTerminator (text.take m)) ∨
      (WellFormed (.hdr text) = false ∧ rest = [] ∧ ∀ m, ¬ EndsWithTerminator (bs.take m)))

/-- The header token is the shortest prefix that ends with the terminator pattern (R100, R142). -/
def Obligations.HeaderTokenShortest : Prop :=
  ∀ (bs : List Byte) (n : Nat), headerLength .s0 bs = some n ↔
    n ≤ bs.length ∧ EndsWithTerminator (bs.take n) ∧ ∀ m, m < n → ¬ EndsWithTerminator (bs.take m)

/-- A few words and tokens written out from their encodings decode to what they stand for. A sanity statement. -/
def Obligations.SampleWordsDecode : Prop :=
  decode .command (.word 0b00000000000000000000000000000101) = .ok .f2rgbe ∧
  decode .command (.word 0b00000000000000000000000000001001) = .ok .f2ldr ∧
  decode .lineStart (.bytes [0b00000010, 0b00000010, 0b00000001, 0b00101100]) = .ok (.nsSig 300) ∧
  decode .lineStart (.bytes [0b00000010, 0b00000010, 0b10000001, 0b00101100]) = .ok (.osPix 2 2 129 44) ∧
  decode .oldStyle (.bytes [0b00000010, 0b00000010, 0b00000001, 0b00101100]) = .ok (.osPix 2 2 1 44) ∧
  decode .oldStyle (.bytes [0b00000001, 0b00000001, 0b00000001, 0b00000011]) = .ok (.osMark 3) ∧
  decode .plane (.bytes [0b10000100, 0b01100011]) = .ok (.nsRun 4 99) ∧
  decode .plane (.bytes [0b00000010, 0b00000111, 0b00001000, 0b00001001]) = .ok (.nsLit [7, 8]) ∧
  decode .plane (.bytes [0b00000000]) = .ok .nsNop0 ∧
  decode .plane (.bytes [0b10000001]) = .error .truncated

/-! ### Reset, the host and the issue of a command -/

/-- Every register after reset (R44). -/
def Obligations.ResetValues : Prop :=
  State.reset.run = none ∧ State.reset.regs.get 4 = 0x3F800000 ∧ State.reset.regs.get 5 = 0x400CCCCD ∧
    ∀ i, i ≠ 4 → i ≠ 5 → State.reset.regs.get i = 0

/-- Reset at any moment (R44, R350, R351): every register at its reset value, the engine idle, memory as it was but for the destination
region of a command that ran. -/
def Obligations.ResetMove : Prop :=
  ∀ (s : State) (rest : List HostMove), s.inputs = .reset :: rest →
    ∃ t, step s = .next t ∧
      (∀ i, t.regs.get i = if i = 4 then 0x3F800000 else if i = 5 then 0x400CCCCD else 0) ∧
      t.run = none ∧ t.inputs = rest ∧ t.busData = s.busData ∧
      (s.run = none → t.mem = s.mem) ∧ ∀ a, ¬ InDestination s.regs a → t.mem.read a = s.mem.read a

/-- The host's register accesses while idle, `CMD` writes apart (R20, R37): a write reaches the RW register it names and nothing else, a
read gives the register's value, and 0 for an index that names none. -/
def Obligations.HostIdleAccess : Prop :=
  ∀ (s : State) (i : Nat) (rest : List HostMove), s.run = none →
    (∀ v, i ≠ 6 → s.inputs = .write i v :: rest →
      ∃ t, step s = .next t ∧ t = { s with regs := t.regs, inputs := rest } ∧
        ∀ j, t.regs.get j = if j = i ∧ i ∈ [0, 1, 2, 3, 4, 5, 9, 10, 12, 13, 14, 15] then v else s.regs.get j) ∧
    (s.inputs = .read i :: rest →
      step s = .next { s with busData := if i < 17 then s.regs.get i else 0, inputs := rest })

/-- The host's register accesses while busy (R37): every write is ignored, a read of `STATUS` gives `0b001`, a read of another register
changes nothing but what the read returned. -/
def Obligations.HostBusyAccess : Prop :=
  ∀ (s : State) (r : Run) (i : Nat) (rest : List HostMove), statusOk s = true → s.run = some r →
    (∀ v, s.inputs = .write i v :: rest → step s = .next { s with inputs := rest }) ∧
    (s.inputs = .read i :: rest →
      ∃ b d, step s = .next { s with busData := b, draws := d, inputs := rest } ∧ (i = 7 → b = 0b001 ∧ d = s.draws))

/-- The issue of a command (R27): `BUSY` alone is set, `ERRCODE` is cleared, the word stands in `CMD`, and the engine has it before it,
whatever moves the host has pending; where it has none the next step runs the command. -/
def Obligations.IssueCommand : Prop :=
  ∀ (s : State) (c : Word) (rest : List HostMove), s.run = none → s.inputs = .write 6 c :: rest →
    ∃ t, step s = .next t ∧ t.regs = { s.regs with cmd := c, status := 0b001, errcode := 0 } ∧ t.mem = s.mem ∧
      t.inputs = rest ∧ t.run = some { phase := .issued, staged := Staged.ofRegs s.regs, disturbed := false } ∧
      (rest = [] → Issued t) ∧
      ∀ i, rest = [] → decodeCommand c = .ok i → step t = exec i t

/-- The engine does nothing until the host writes `CMD` (R353): idle it stays as it is, and only such a write ends that. -/
def Obligations.OnlyHostStarts : Prop :=
  (∀ s : State, s.run = none → s.inputs = [] → step s = .next s) ∧
  ∀ s t : State, s.run = none → step s = .next t → t.run ≠ none → ∃ c rest, s.inputs = .write 6 c :: rest

/-- The host's accesses to memory while idle, and while busy outside what R76 forbids (R70, R74, R76): a store outside both regions of the
running command changes its byte and nothing else, a load outside the destination region gives the byte last stored there and changes
nothing else. That every address has storage is the model's choice (log 25), and so is what an access does that R76 does not forbid while a
command runs, a load from its source region among them, where R358 and D4 read more strictly (log 17). -/
def Obligations.HostMemoryAccess : Prop :=
  ∀ (s : State) (a : Nat) (rest : List HostMove), a < 2 ^ 32 →
    (∀ b, s.inputs = .store a b :: rest → (s.run = none ∨ (¬ InSource s.regs a ∧ ¬ InDestination s.regs a)) →
      ∃ t, step s = .next t ∧ t = { s with mem := t.mem, inputs := rest } ∧ t.mem.read a = b ∧
        ∀ x, x ≠ a → t.mem.read x = s.mem.read x) ∧
    (s.inputs = .load a :: rest → (s.run = none ∨ ¬ InDestination s.regs a) →
      step s = .next { s with busData := (s.mem.read a).setWidth 32, inputs := rest }) ∧
    (∀ b, s.run = none → s.inputs = .store a b :: .load a :: rest →
      ∃ t, leadsTo 2 s t ∧ t.busData = b.setWidth 32 ∧ t.inputs = rest)

/-- A step runs the decoded instruction: where the code at the engine's place decodes to `i`, a step is `exec i`; a pending `wait` of the
host, a move of the model (log 6), is used up (R27, R113). -/
def Obligations.StepRunsDecoded : Prop :=
  ∀ (s : State) (r : Run) (i : Instr), s.run = some r →
    (r.phase = .issued ∨ s.regs.srcAddr.toNat + s.regs.srcLen.toNat ≤ 2 ^ 32) →
    decode r.phase.place (fetchCode r s) = .ok i →
    (s.inputs = [] → step s = exec i s) ∧
    (∀ rest, s.inputs = .wait :: rest → step s = exec i { s with inputs := rest })

/-! ### The issue checks -/

/-- An illegal command word finishes at once with `BadOperand`, and nothing else changes but `CMD` (R92). -/
def Obligations.IllegalCommand : Prop :=
  ∀ (s : State) (c : Word), s.run = none → s.inputs = [.write 6 c] →
    (c.toNat / 16 ≠ 0 ∨ c.toNat % 16 = 0 ∨ 10 ≤ c.toNat % 16) →
    leadsTo 2 s { s with regs := { s.regs with cmd := c, status := 0b110, errcode := 6 }, inputs := [] }

/-- The region checks come before everything else of a command (R68), and they pass exactly where none of their conditions is broken:
regions that touch, empty regions and regions that end at `2^32` are legal. -/
def Obligations.RegionChecks : Prop :=
  (∀ s : State, Issued s → 1 ≤ s.regs.cmd.toNat → s.regs.cmd.toNat ≤ 9 →
    (2 ^ 32 < s.regs.srcAddr.toNat + s.regs.srcLen.toNat ∨
      (s.regs.cmd ≠ 1 ∧
        (2 ^ 32 < s.regs.dstAddr.toNat + s.regs.dstLen.toNat ∨
          (s.regs.srcLen ≠ 0 ∧ s.regs.dstLen ≠ 0 ∧
            s.regs.dstAddr.toNat < s.regs.srcAddr.toNat + s.regs.srcLen.toNat ∧
            s.regs.srcAddr.toNat < s.regs.dstAddr.toNat + s.regs.dstLen.toNat)))) →
    step s = .next { s with regs := { s.regs with status := 0b110, errcode := 6 }, run := none }) ∧
  ∀ r : Regs, r.regionsOk = true ↔
    r.srcAddr.toNat + r.srcLen.toNat ≤ 2 ^ 32 ∧ r.dstAddr.toNat + r.dstLen.toNat ≤ 2 ^ 32 ∧
      (r.srcLen = 0 ∨ r.dstLen = 0 ∨ r.srcAddr.toNat + r.srcLen.toNat ≤ r.dstAddr.toNat ∨
        r.dstAddr.toNat + r.dstLen.toNat ≤ r.srcAddr.toNat)

/-- The issue checks of `SCAN`, in their order; where all pass, its scanline begins with the registers as they are (R171). -/
def Obligations.ScanIssueChecks : Prop :=
  ∀ s : State, Issued s →
    exec .scan s = .next
      (if s.regs.regionsOk = false then failedState s .badOperand
      else if ¬ (1 ≤ s.regs.width.toNat ∧ s.regs.width.toNat ≤ 65535) then failedState s .badOperand
      else if ¬ s.regs.pos.toNat ≤ s.regs.srcLen.toNat then failedState s .badOperand
      else if ¬ s.regs.ipos.toNat + 4 * s.regs.width.toNat ≤ s.regs.dstLen.toNat then failedState s .outputTooSmall
      else
        { s with run := some { phase := .line none .start, staged := Staged.ofRegs s.regs, disturbed := false } })

/-- The issue checks of `DHDR` (R294): the region checks alone; where they pass, its header begins at offset 0 of the source region, with
the other registers' staged copies as they are (R31, R291), and else nothing but `STATUS` and `ERRCODE` changes. -/
def Obligations.DhdrIssueChecks : Prop :=
  ∀ s : State, Issued s →
    let legal := s.regs.srcAddr.toNat + s.regs.srcLen.toNat ≤ 2 ^ 32 ∧ s.regs.dstAddr.toNat + s.regs.dstLen.toNat ≤ 2 ^ 32 ∧
      (s.regs.srcLen = 0 ∨ s.regs.dstLen = 0 ∨ s.regs.srcAddr.toNat + s.regs.srcLen.toNat ≤ s.regs.dstAddr.toNat ∨
        s.regs.dstAddr.toNat + s.regs.dstLen.toNat ≤ s.regs.srcAddr.toNat)
    (legal →
      exec .dhdr s = .next
        { s with
          run := some
            { phase := .header true .s0
              staged := { Staged.ofRegs s.regs with pos := 0 }
              disturbed := false } }) ∧
    (¬ legal → exec .dhdr s = .next { s with regs := { s.regs with status := 0b110, errcode := 6 }, run := none })

/-- The checks of a conversion (R210, R261): where one fails, the command fails with `BadOperand` and nothing else changes. The parameters
pass exactly where the exposure is finite and the gamma finite and above zero. -/
def Obligations.ConversionChecks : Prop :=
  (∀ (i : Instr) (strideIn strideOut : Nat) (params : Bool) (s : State),
    conversionShape i = some (strideIn, strideOut, params) → Issued s →
    (s.regs.regionsOk = false ∨ s.regs.srcLen.toNat % strideIn ≠ 0 ∨
      s.regs.dstLen.toNat ≠ s.regs.srcLen.toNat / strideIn * strideOut ∨
      (params = true ∧
        (s.regs.exposure.toNat / 2 ^ 23 % 2 ^ 8 = 255 ∨ s.regs.gamma.toNat / 2 ^ 23 % 2 ^ 8 = 255 ∨
          s.regs.gamma.toNat % 2 ^ 31 = 0 ∨ 2 ^ 31 ≤ s.regs.gamma.toNat))) →
    exec i s = .next { s with regs := { s.regs with status := 0b110, errcode := 6 }, run := none }) ∧
  ∀ exposure gamma : Word, toneParamsOk exposure gamma = true ↔
    exposure.toNat / 2 ^ 23 % 2 ^ 8 ≠ 255 ∧ gamma.toNat / 2 ^ 23 % 2 ^ 8 ≠ 255 ∧ 0 < gamma.toNat ∧ gamma.toNat < 2 ^ 31

/-- The number `ERRCODE` holds for each failure kind (R29, R312 to R318), where its cause shows: 1 for a header without terminator or with
an unparsable resolution line, 2 for a `FORMAT` field that is missing or another, 3 for a signature of another width, 4 for a stream that ends
before a group or a control byte; and in the states that other statements name by the kind, with 5 for `OutputTooSmall` and 6 for
`BadOperand`. -/
def Obligations.FailureCodes : Prop :=
  (∀ (s : State) (st : Staged) (thenScan : Bool) (text : List Byte),
    s.run = some { phase := .header thenScan .s0, staged := st, disturbed := false } →
    let failsWith := fun code : Word =>
      exec (.hdr text) s = .next { s with regs := { s.regs with status := 0b110, errcode := code }, run := none }
    (headerTerminated text = false → failsWith 1) ∧
    (headerTerminated text = true → formatValue text ≠ some formatSupported → failsWith 2) ∧
    (headerTerminated text = true → formatValue text = some formatSupported → headerDims text = none → failsWith 1)) ∧
  (∀ (s : State) (rc : Option Nat) (st : Staged) (width16 : BitVec 15),
    s.run = some { phase := .line rc .start, staged := st, disturbed := false } → width16.toNat ≠ st.width.toNat →
    ∃ t, exec (.nsSig width16) s = .next t ∧ t.run = none ∧ t.regs = { s.regs with status := 0b110, errcode := 3 }) ∧
  (∀ (s : State) (rc : Option Nat) (lp : LinePos) (st : Staged), s.inputs = [] →
    s.run = some { phase := .line rc lp, staged := st, disturbed := false } →
    s.regs.srcAddr.toNat + s.regs.srcLen.toNat ≤ 2 ^ 32 →
    s.regs.srcLen.toNat < st.pos.toNat + (match lp with | .plane _ _ => 1 | _ => 4) →
    ∃ t, step s = .next t ∧ t.run = none ∧ t.regs = { s.regs with status := 0b110, errcode := 4 }) ∧
  ∀ s : State, ∀ x ∈ [(FailKind.malformedHeader, (1 : Word)), (.unsupportedFormat, 2), (.scanlineWidthMismatch, 3), (.inputUnderrun, 4),
      (.outputTooSmall, 5), (.badOperand, 6)],
    (failedState s x.1).regs = { s.regs with status := 0b110, errcode := x.2 } ∧
      (failedInScanlines s x.1).regs = { s.regs with status := 0b110, errcode := x.2 }

/-! ### The header -/

/-- The lines of a header: none holds an `LF`, with their `LF`s they are the text, and the last is the resolution line (R144). -/
def Obligations.HeaderLines : Prop :=
  ∀ text : List Byte, text.getLast? = some 0x0A →
    (headerLines text).flatMap (fun l => l ++ [0x0A]) = text ∧ (∀ l ∈ headerLines text, (0x0A : Byte) ∉ l) ∧
      (headerLines text).getLast? = some (resolutionLine text)

/-- The `FORMAT` field is the first line that begins with `FORMAT=`, its value the rest of that line; where no line does, there is none
(R145). -/
def Obligations.FormatField : Prop :=
  (∀ (text v : List Byte), formatValue text = some v ↔
    ∃ before after, headerLines text = before ++ ([0x46, 0x4F, 0x52, 0x4D, 0x41, 0x54, 0x3D] ++ v) :: after ∧
      ∀ l ∈ before, ¬ [0x46, 0x4F, 0x52, 0x4D, 0x41, 0x54, 0x3D] <+: l) ∧
  ∀ text : List Byte, formatValue text = none ↔
    ∀ l ∈ headerLines text, ¬ [0x46, 0x4F, 0x52, 0x4D, 0x41, 0x54, 0x3D] <+: l

/-- A dimension is the number its decimal digits spell, within 1 to 65535 (R150, R151). -/
def Obligations.DimensionValue : Prop :=
  ∀ (tok : List Byte) (n : Nat), headerDim tok = some n ↔
    (∀ b ∈ tok, 0x30 ≤ b.toNat ∧ b.toNat ≤ 0x39) ∧ 1 ≤ n ∧ n ≤ 65535 ∧
      n = ∑ i : Fin tok.length, (tok[i].toNat - 0x30) * 10 ^ (tok.length - 1 - i.val)

/-- The resolution line is the last line (R147 to R149): where it holds four words the second and the fourth are height and width, whatever
the other two are; where it holds any other number of words there are no dimensions. `words` pairs each word with the whitespace after it,
which only the last word may lack, and `lead` is the whitespace before the first. -/
def Obligations.ResolutionLineWords : Prop :=
  ∀ (before lead : List Byte) (words : List (List Byte × List Byte)),
    let space : List Byte := [0x20, 0x09, 0x0B, 0x0C, 0x0D]
    (∀ b ∈ lead, b ∈ space) → (∀ x ∈ words, x.1 ≠ [] ∧ (∀ b ∈ x.1, b ∉ space ∧ b ≠ 0x0A) ∧ ∀ b ∈ x.2, b ∈ space) →
    (∀ x ∈ words.dropLast, x.2 ≠ []) →
    headerDims (before ++ [0x0A] ++ (lead ++ words.flatMap (fun x => x.1 ++ x.2)) ++ [0x0A]) =
      match words with
      | [_, t1, _, t3] =>
        match headerDim t1.1, headerDim t3.1 with
        | some h, some w => some (h, w)
        | _, _ => none
      | _ => none

/-- `HDRP` completes (R31, R140, R152, R153): with its source region in memory it goes on to the header, its cursor at the offset 0 of the
header token, and the next step commits what the header says, or fails with the first check that fails, and nothing else changes. That the
header token is one step is the model's choice (log 5). -/
def Obligations.HdrpCompletes : Prop :=
  ∀ s : State, Issued s → s.regs.srcAddr.toNat + s.regs.srcLen.toNat ≤ 2 ^ 32 →
    ∃ t, exec .hdrp s = .next t ∧
      t = { s with
        run := some
          { phase := .header false .s0
            staged := { Staged.ofRegs s.regs with pos := 0 }
            disturbed := false } } ∧
      step t = .next
      (match refHeader (streamFrom s 0) with
       | .ok (n, h, w) => parsedState s n h w
       | .error k => failedState s k)

/-- The header token (R152, R291, R292): `HDRP` commits and is done; `DHDR` goes on to its image, or fails where the destination is too
small for it. -/
def Obligations.HdrToken : Prop :=
  ∀ (s : State) (st : Staged) (thenScan : Bool) (text : List Byte) (h w : Nat),
    s.run = some { phase := .header thenScan .s0, staged := st, disturbed := false } →
    headerTerminated text = true → formatValue text = some formatSupported → headerDims text = some (h, w) →
    let st' : Staged :=
      { st with
        width := BitVec.ofNat 32 w
        height := BitVec.ofNat 32 h
        dataOff := BitVec.ofNat 32 text.length
        pos := BitVec.ofNat 32 text.length
        ipos := 0
        row := 0
        prev := 0 }
    (thenScan = false →
      exec (.hdr text) s = .next { s with regs := (s.regs.commit st').withOutcome 0, run := none }) ∧
    (thenScan = true → 4 * w * h ≤ s.regs.dstLen.toNat →
      exec (.hdr text) s = .next
        { s with run := some { phase := .line (some h) .start, staged := st', disturbed := false } }) ∧
    (thenScan = true → s.regs.dstLen.toNat < 4 * w * h →
      exec (.hdr text) s = .next { s with regs := { s.regs with status := 0b110, errcode := 5 }, run := none })

/-! ### Scanlines -/

/-- The signature (R174): its width must be `WIDTH`; then the signature is passed and the R plane begins, else the scanline fails. -/
def Obligations.NsSigToken : Prop :=
  ∀ (s : State) (rc : Option Nat) (st : Staged) (width16 : BitVec 15),
    s.run = some { phase := .line rc .start, staged := st, disturbed := false } →
    (width16.toNat = st.width.toNat →
      exec (.nsSig width16) s = .next
        { s with
          run := some
            { phase := .line rc (.plane .r { r := [], g := [], b := [], e := [] })
              staged := { st with pos := BitVec.ofNat 32 (st.pos.toNat + 4) }
              disturbed := false } }) ∧
    (width16.toNat ≠ st.width.toNat → exec (.nsSig width16) s = .next (failedInScanlines s .scanlineWidthMismatch))

/-- The three tokens of a channel plane (R176 to R179, R181): their bytes are appended, clipped to the plane; a full plane gives way to
the next, and the fourth plane's end interleaves and emits the scanline: pixel `j` in memory is byte `j` of each plane, in the order R, G, B, E.
The cursor moves by the token's whole length. -/
def Obligations.PlaneTokens : Prop :=
  ∀ (i : Instr) (len : Nat) (bs : List Byte) (s : State) (rc : Option Nat) (c : Chan) (tmp : Planes) (st : Staged),
    planeBytes i = some (len, bs) →
    s.run = some { phase := .line rc (.plane c tmp), staged := st, disturbed := false } →
    let w := st.width.toNat
    let st' : Staged := { st with pos := BitVec.ofNat 32 (st.pos.toNat + len) }
    ((tmp.get c).length + bs.length < w →
      exec i s = .next
        { s with run := some { phase := .line rc (.plane c (tmp.put c bs)), staged := st', disturbed := false } }) ∧
    (w ≤ (tmp.get c).length + bs.length → ∀ c', Chan.next c = some c' →
      exec i s = .next
        { s with
          run := some
            { phase := .line rc (.plane c' (tmp.put c (bs.take (w - (tmp.get c).length))))
              staged := st'
              disturbed := false } }) ∧
    (w ≤ tmp.e.length + bs.length → c = .e → planesOk w .e tmp = true →
      s.regs.dstAddr.toNat + st.ipos.toNat + 4 * w ≤ 2 ^ 32 →
      exec i s = .next
        (scanlineDone rc st' (interleave tmp.r tmp.g tmp.b (tmp.e ++ bs.take (w - tmp.e.length))) s) ∧
      ∃ t, exec i s = .next t ∧ ∀ j, j < w →
        let a := s.regs.dstAddr.toNat + st.ipos.toNat + 4 * j
        t.mem.read a = tmp.r.getD j 0 ∧ t.mem.read (a + 1) = tmp.g.getD j 0 ∧ t.mem.read (a + 2) = tmp.b.getD j 0 ∧
          t.mem.read (a + 3) = (tmp.e ++ bs.take (w - tmp.e.length)).getD j 0)

/-- The old-style pixel (R182, R185): it is stored at `IPOS` and remembered in `PREV`, and a marker chain ends. -/
def Obligations.OsPixToken : Prop :=
  ∀ (s : State) (rc : Option Nat) (lp : LinePos) (em sh : Nat) (st : Staged) (r g b e : Byte),
    (lp = .start ∧ em = 0 ∧ sh = 0 ∨ lp = .old em sh) →
    s.run = some { phase := .line rc lp, staged := st, disturbed := false } →
    s.regs.dstAddr.toNat + st.ipos.toNat + 4 ≤ 2 ^ 32 →
    let st' : Staged := { st with pos := BitVec.ofNat 32 (st.pos.toNat + 4) }
    (em + 1 < st.width.toNat →
      exec (.osPix r g b e) s = .next
        { s with
          mem := s.mem.writeBytes (s.regs.dstAddr.toNat + st.ipos.toNat) [r, g, b, e]
          run := some
            { phase := .line rc (.old (em + 1) 0)
              staged := { st' with ipos := BitVec.ofNat 32 (st.ipos.toNat + 4), prev := e ++ b ++ g ++ r }
              disturbed := false } }) ∧
    (st.width.toNat ≤ em + 1 →
      exec (.osPix r g b e) s = .next (scanlineDone rc st' [{ r := r, g := g, b := b, e := e }] s))

/-- The old-style marker (R183, R186): the pixel in `PREV` is repeated, the request cut at the end of the scanline; `SHIFT` grows by 8 up
to 248, and `PREV` keeps its value. -/
def Obligations.OsMarkToken : Prop :=
  ∀ (s : State) (rc : Option Nat) (lp : LinePos) (em sh : Nat) (st : Staged) (e : Byte),
    (lp = .start ∧ em = 0 ∧ sh = 0 ∨ lp = .old em sh) →
    s.run = some { phase := .line rc lp, staged := st, disturbed := false } →
    let k := min (e.toNat * 2 ^ sh) (st.width.toNat - em)
    let px := List.replicate k (pixelOfPrev st.prev)
    let st' : Staged := { st with pos := BitVec.ofNat 32 (st.pos.toNat + 4) }
    s.regs.dstAddr.toNat + st.ipos.toNat + 4 * k ≤ 2 ^ 32 →
    (em + k < st.width.toNat →
      exec (.osMark e) s = .next
        { s with
          mem := s.mem.writeBytes (s.regs.dstAddr.toNat + st.ipos.toNat) (pixelBytes px)
          run := some
            { phase := .line rc (.old (em + k) (min (sh + 8) 248))
              staged := { st' with ipos := BitVec.ofNat 32 (st.ipos.toNat + 4 * k) }
              disturbed := false } }) ∧
    (st.width.toNat ≤ em + k →
      exec (.osMark e) s = .next (scanlineDone rc st' px s))

/-- What the tokens of a scanline leave alone (R71, R182, R305): every byte outside the pixels the token stores at `DST_ADDR + IPOS`, every
operand register, and, while the command goes on, every register. A signature that fails is not meant here. -/
def Obligations.ScanlineTokenFrame : Prop :=
  ∀ (i : Instr) (s t : State) (rc : Option Nat) (lp : LinePos) (st : Staged),
    s.run = some { phase := .line rc lp, staged := st, disturbed := false } → linePosOk st.width.toNat lp = true →
    (∀ width16, i = .nsSig width16 → width16.toNat = st.width.toNat) →
    recognisedAt (Phase.line rc lp).place i = true → exec i s = .next t →
    let stored := storedByToken i st.width.toNat lp (s.regs.dstAddr.toNat + st.ipos.toNat)
    (∀ a, (a < stored.1 ∨ stored.1 + stored.2 ≤ a) → t.mem.read a = s.mem.read a) ∧
    (∀ j, j ≤ 6 → t.regs.get j = s.regs.get j) ∧ (t.run ≠ none → t.regs = s.regs) ∧
    t.inputs = s.inputs ∧ t.busData = s.busData ∧ t.draws = s.draws

/-- `SCAN` completes (R170 to R188): with its checks passed it begins its scanline, and at most one step for each byte left, and one more,
lead to the state the byte-level decoder gives: the scanline in memory and the registers advanced, or the failure. The number of steps
rests on the model's choice of a token as a step (log 5). A failure leaves the destination unspecified, also an underrun before the first
pixel, where two test vectors show it unchanged and the model follows R72 (log 15). -/
def Obligations.ScanCompletes : Prop :=
  ∀ s : State, Issued s → s.regs.cmd = 2 → s.regs.regionsOk = true → 1 ≤ s.regs.width.toNat → s.regs.width.toNat ≤ 65535 →
    s.regs.pos.toNat ≤ s.regs.srcLen.toNat →
    s.regs.ipos.toNat + 4 * s.regs.width.toNat ≤ s.regs.dstLen.toNat →
    ∃ t k, exec .scan s = .next t ∧ k ≤ s.regs.srcLen.toNat - s.regs.pos.toNat + 1 ∧ leadsTo k t
      (match refScanline s.regs.width.toNat (pixelOfPrev s.regs.prev) (streamFrom s s.regs.pos.toNat) with
       | .ok (px, rest) => scannedState s px rest
       | .error e => failedInScanlines s e)

/-- A successful `SCAN` (R71, R188): the registers it advances, `PREV` as the last pixel it stored, and no byte written outside its `4 * WIDTH`. -/
def Obligations.ScanAdvances : Prop :=
  ∀ s t : State, Ends s 2 t → t.regs.errcode = 0 →
    t.regs = { s.regs with
      cmd := 2
      status := 0b010
      errcode := 0
      pos := t.regs.pos
      ipos := BitVec.ofNat 32 (s.regs.ipos.toNat + 4 * s.regs.width.toNat)
      row := s.regs.row + 1
      prev := t.mem.readWord (s.regs.dstAddr.toNat + s.regs.ipos.toNat + 4 * s.regs.width.toNat - 4) } ∧
    s.regs.pos.toNat + 4 ≤ t.regs.pos.toNat ∧ t.regs.pos.toNat ≤ s.regs.srcLen.toNat ∧
    ∀ a, (a < s.regs.dstAddr.toNat + s.regs.ipos.toNat ∨
        s.regs.dstAddr.toNat + s.regs.ipos.toNat + 4 * s.regs.width.toNat ≤ a) → t.mem.read a = s.mem.read a

/-! ### The whole image -/

/-- `DHDR` completes (R31, R290 to R297): with its regions in order it begins its header at offset 0, and at most one step for each source byte, and one
more, lead to the decoded image with its registers, or to the first failure. The number of steps rests on the model's choice of a token as a
step (log 5), and that a failure in a scanline leaves the destination unspecified whatever was written rests on R72 (log 15). -/
def Obligations.DhdrCompletes : Prop :=
  ∀ s : State, Issued s → s.regs.cmd = 3 → s.regs.regionsOk = true →
    ∃ t k, exec .dhdr s = .next t ∧
      t = { s with
        run := some
          { phase := .header true .s0
            staged := { Staged.ofRegs s.regs with pos := 0 }
            disturbed := false } } ∧
      k ≤ s.regs.srcLen.toNat + 1 ∧ leadsTo k t
      (match refHeader (streamFrom s 0) with
       | .error e => failedState s e
       | .ok (n, h, w) =>
         if s.regs.dstLen.toNat < 4 * w * h then failedState s .outputTooSmall
         else
           match refScanlines w h { r := 0, g := 0, b := 0, e := 0 } ((streamFrom s 0).drop n) with
           | .error e => failedInScanlines s e
           | .ok (px, rest) => decodedState s n h w px rest)

/-- A successful `DHDR` (R71, R296): `WIDTH` and `HEIGHT` in range, `IPOS` and `ROW` at the end of the image, `PREV` the last pixel stored, and
no byte written outside the image. -/
def Obligations.DhdrCommits : Prop :=
  ∀ s t : State, Ends s 3 t → t.regs.errcode = 0 →
    let w := t.regs.width.toNat
    let h := t.regs.height.toNat
    t.regs = { s.regs with
      cmd := 3
      status := 0b010
      errcode := 0
      width := t.regs.width
      height := t.regs.height
      dataOff := t.regs.dataOff
      pos := t.regs.pos
      ipos := BitVec.ofNat 32 (4 * w * h)
      row := t.regs.height
      prev := t.mem.readWord (s.regs.dstAddr.toNat + 4 * w * h - 4) } ∧
    1 ≤ w ∧ w ≤ 65535 ∧ 1 ≤ h ∧ h ≤ 65535 ∧ 4 * w * h ≤ s.regs.dstLen.toNat ∧
    4 ≤ t.regs.dataOff.toNat ∧ t.regs.dataOff.toNat + 4 * h ≤ t.regs.pos.toNat ∧
    t.regs.pos.toNat ≤ s.regs.srcLen.toNat ∧
    ∀ a, (a < s.regs.dstAddr.toNat ∨ s.regs.dstAddr.toNat + 4 * w * h ≤ a) → t.mem.read a = s.mem.read a

/-- `DHDR` is `HDRP` and then `h` times `SCAN`, in both directions, for the same registers (but `CMD`) and the same memory (R298). -/
def Obligations.DhdrIsHdrpThenScans : Prop :=
  ∀ s : State, s.run = none → s.inputs = [] →
    (∀ t, Ends s 3 t → t.regs.errcode = 0 →
      ∃ u v, Ends s 1 u ∧ u.regs.errcode = 0 ∧ scansTo u.regs.height.toNat u v ∧
        t = { v with regs := { v.regs with cmd := 3 } }) ∧
    (∀ u v, Ends s 1 u → u.regs.errcode = 0 → scansTo u.regs.height.toNat u v →
      s.regs.dstAddr.toNat + s.regs.dstLen.toNat ≤ 2 ^ 32 →
      (s.regs.srcLen = 0 ∨ s.regs.dstLen = 0 ∨ s.regs.srcAddr.toNat + s.regs.srcLen.toNat ≤ s.regs.dstAddr.toNat ∨
        s.regs.dstAddr.toNat + s.regs.dstLen.toNat ≤ s.regs.srcAddr.toNat) →
      Ends s 3 { v with regs := { v.regs with cmd := 3 } })

/-! ### Conversions -/

/-- `RGBE2F` (R71, R211): every pixel exactly, as patterns that are finite and without sign; frame, `COUNT` and status with it. A channel
`m * 2^(E - 136)` is `m * 2^(E + 13)` units of `2^-149`. -/
def Obligations.Rgbe2fResult : Prop :=
  ∀ s : State, ConversionReady s 4 12 →
    ∃ t, exec .rgbe2f s = .next t ∧ ConversionDone s (s.regs.srcLen.toNat / 4) 12 t ∧
      ∀ i, i < s.regs.srcLen.toNat / 4 →
        let p := s.mem.rgbeAt (s.regs.srcAddr.toNat + 4 * i)
        let q := t.mem.floatAt (s.regs.dstAddr.toNat + 12 * i)
        denotes q.r (p.r.toNat * 2 ^ (p.e.toNat + 13)) ∧ denotes q.g (p.g.toNat * 2 ^ (p.e.toNat + 13)) ∧
          denotes q.b (p.b.toNat * 2 ^ (p.e.toNat + 13))

/-- `F2RGBE` (R71, R220 to R225): black for a largest channel of 0; else the exponent is the clamped ceiling of the logarithm (0 for one
half), and each mantissa the floor of the quotient, saturated at 255. -/
def Obligations.F2rgbeResult : Prop :=
  ∀ s : State, ConversionReady s 12 4 →
    ∃ t, exec .f2rgbe s = .next t ∧ ConversionDone s (s.regs.srcLen.toNat / 12) 4 t ∧
      ∀ i, i < s.regs.srcLen.toNat / 12 → ∀ r g b : ℝ,
        let q := s.mem.floatAt (s.regs.srcAddr.toNat + 12 * i)
        let p := t.mem.rgbeAt (s.regs.dstAddr.toNat + 4 * i)
        let v := max r (max g b)
        let ec : ℤ := max (-128) (min 127 (if v = 1 / 2 then 0 else ⌈Real.logb 2 v⌉))
        IsUnits (san q.r).units r → IsUnits (san q.g).units g → IsUnits (san q.b).units b →
        (v = 0 → p = { r := 0, g := 0, b := 0, e := 0 }) ∧
        (v ≠ 0 →
          (p.e.toNat : ℤ) = ec + 128 ∧ (p.r.toNat : ℤ) = min 255 ⌊r / (2 : ℝ) ^ (ec - 8)⌋ ∧
            (p.g.toNat : ℤ) = min 255 ⌊g / (2 : ℝ) ^ (ec - 8)⌋ ∧ (p.b.toNat : ℤ) = min 255 ⌊b / (2 : ℝ) ^ (ec - 8)⌋)

/-- `F2RGB9E5` (R71, R230 to R234): the fields of the word are the shared exponent, re-normalised once where 512 would be rounded to, and the
channels rounded half up. -/
def Obligations.F2rgb9e5Result : Prop :=
  ∀ s : State, ConversionReady s 12 4 →
    ∃ t, exec .f2rgb9e5 s = .next t ∧ ConversionDone s (s.regs.srcLen.toNat / 12) 4 t ∧
      ∀ i, i < s.regs.srcLen.toNat / 12 → ∀ x y z : ℝ,
        let q := s.mem.floatAt (s.regs.srcAddr.toNat + 12 * i)
        let u := t.mem.readWord (s.regs.dstAddr.toNat + 4 * i)
        IsUnits (san q.r).units x → IsUnits (san q.g).units y → IsUnits (san q.b).units z →
        let r := min x 32768
        let g := min y 32768
        let b := min z 32768
        let maxC := max r (max g b)
        let es0 : ℤ := if maxC < (2 : ℝ) ^ (-16 : ℤ) then 0 else ⌊Real.logb 2 maxC⌋ + 16
        let es : ℤ := if 511 < ⌊maxC / (2 : ℝ) ^ (es0 - 24) + 1 / 2⌋ then es0 + 1 else es0
        let denom : ℝ := (2 : ℝ) ^ (es - 24)
        (e5 u : ℤ) = es ∧ (r9 u : ℤ) = ⌊r / denom + 1 / 2⌋ ∧ (g9 u : ℤ) = ⌊g / denom + 1 / 2⌋ ∧
          (b9 u : ℤ) = ⌊b / denom + 1 / 2⌋

/-- `RGB9E52F` (R71, R241): every channel exactly. A channel `m * 2^(E5 - 24)` is `m * 2^(E5 + 125)` units of `2^-149`. -/
def Obligations.Rgb9e52fResult : Prop :=
  ∀ s : State, ConversionReady s 4 12 →
    ∃ t, exec .rgb9e52f s = .next t ∧ ConversionDone s (s.regs.srcLen.toNat / 4) 12 t ∧
      ∀ i, i < s.regs.srcLen.toNat / 4 →
        let u := s.mem.readWord (s.regs.srcAddr.toNat + 4 * i)
        let q := t.mem.floatAt (s.regs.dstAddr.toNat + 12 * i)
        denotes q.r (u.toNat / 2 ^ 23 * 2 ^ (u.toNat % 32 + 125)) ∧
          denotes q.g (u.toNat / 2 ^ 14 % 512 * 2 ^ (u.toNat % 32 + 125)) ∧
          denotes q.b (u.toNat / 2 ^ 5 % 512 * 2 ^ (u.toNat % 32 + 125))

/-- `RGBE2LDR` (R71, R263 to R265, R274): every channel through the tone function with the real power, alpha 255. Where
R271 (e) says otherwise of the smallest gamma it follows R264, which is the model's choice (log 26), and the power is exact (log 8). -/
def Obligations.Rgbe2ldrResult : Prop :=
  ∀ s : State, ConversionReady s 4 4 → toneParamsOk s.regs.exposure s.regs.gamma = true →
    ∃ t, exec .rgbe2ldr s = .next t ∧ ConversionDone s (s.regs.srcLen.toNat / 4) 4 t ∧
      ∀ i, i < s.regs.srcLen.toNat / 4 →
        let p := s.mem.rgbeAt (s.regs.srcAddr.toNat + 4 * i)
        let d := s.regs.dstAddr.toNat + 4 * i
        let scale : ℝ := (2 : ℝ) ^ ((p.e.toNat : ℤ) - 136)
        IsTone s.regs.exposure s.regs.gamma (p.r.toNat * scale) (t.mem.read d).toNat ∧
          IsTone s.regs.exposure s.regs.gamma (p.g.toNat * scale) (t.mem.read (d + 1)).toNat ∧
          IsTone s.regs.exposure s.regs.gamma (p.b.toNat * scale) (t.mem.read (d + 2)).toNat ∧
          t.mem.read (d + 3) = 255

/-- `F2LDR` (R71, R263, R264, R270, R274): every sanitised channel through the tone function, alpha 255. Where R271 (e)
says otherwise of the smallest gamma it follows R264, which is the model's choice (log 26), and the power is exact (log 8). -/
def Obligations.F2ldrResult : Prop :=
  ∀ s : State, ConversionReady s 12 4 → toneParamsOk s.regs.exposure s.regs.gamma = true →
    ∃ t, exec .f2ldr s = .next t ∧ ConversionDone s (s.regs.srcLen.toNat / 12) 4 t ∧
      ∀ i, i < s.regs.srcLen.toNat / 12 → ∀ r g b : ℝ,
        let q := s.mem.floatAt (s.regs.srcAddr.toNat + 12 * i)
        let d := s.regs.dstAddr.toNat + 4 * i
        IsUnits (san q.r).units r → IsUnits (san q.g).units g → IsUnits (san q.b).units b →
        IsTone s.regs.exposure s.regs.gamma r (t.mem.read d).toNat ∧
          IsTone s.regs.exposure s.regs.gamma g (t.mem.read (d + 1)).toNat ∧
          IsTone s.regs.exposure s.regs.gamma b (t.mem.read (d + 2)).toNat ∧ t.mem.read (d + 3) = 255

/-- A float input's value and its sanitised value (R11, R13): the value of every finite pattern, with its sign; the sanitised value is zero
for NaN and everything negative, `MAXF` for `+Inf`, else the value itself. -/
def Obligations.SanitisedValue : Prop :=
  (∀ (w : Word) (x : ℝ), IsUnits (f32Units w) x →
    let s : Nat := w.toNat / 2 ^ 31
    let q : Nat := w.toNat / 2 ^ 23 % 2 ^ 8
    let t : Nat := w.toNat % 2 ^ 23
    q ≠ 255 →
    x = if q = 0 then (-1 : ℝ) ^ s * (t : ℝ) * (2 : ℝ) ^ (-149 : ℤ)
      else (-1 : ℝ) ^ s * (2 ^ 23 + (t : ℝ)) * (2 : ℝ) ^ ((q : ℤ) - 150)) ∧
  ∀ (w : Word) (x : ℝ), IsUnits (san w).units x →
    let s : Nat := w.toNat / 2 ^ 31
    let q : Nat := w.toNat / 2 ^ 23 % 2 ^ 8
    let t : Nat := w.toNat % 2 ^ 23
    x = if q = 255 ∧ t ≠ 0 then 0
      else if s = 1 then 0
      else if q = 255 then (2 ^ 24 - 1) * 2 ^ 104
      else if q = 0 then (t : ℝ) * (2 : ℝ) ^ (-149 : ℤ)
      else (2 ^ 23 + (t : ℝ)) * (2 : ℝ) ^ ((q : ℤ) - 150)

/-- The byte the tone mappers compute is the spec's, with the real power function and the rounding to nearest, ties to even (R262 with
`POW_EPS = 0`, R263, R264, R273; log 8). Where R271 (e) says otherwise of the smallest gamma it follows R264, which is the model's choice
(log 26). -/
def Obligations.ToneByteIsRoundedPower : Prop :=
  ∀ (exposure gamma : Word) (x : Scaled) (v : ℝ), toneParamsOk exposure gamma = true → IsUnits x.units v →
    IsTone exposure gamma v (toneByte exposure gamma x).toNat

/-- The tone function never decreases in the exposure (R275) nor in the channel (R264). -/
def Obligations.ToneMonotone : Prop :=
  ∀ (ex1 ex2 gamma : Word) (x y : Scaled), toneParamsOk ex1 gamma = true → toneParamsOk ex2 gamma = true →
    f32Units ex1 ≤ f32Units ex2 → x.units ≤ y.units → (toneByte ex1 gamma x).toNat ≤ (toneByte ex2 gamma y).toNat

/-- With gamma 1 and exposure 1 the stored byte is `rne(clamp(255 * channel, 0, 255))` (R276). -/
def Obligations.GammaOneIsLinear : Prop :=
  ∀ (w : Word) (x : ℝ), IsUnits (san w).units x →
    IsRne (max 0 (min 255 (255 * x))) (toneByte 0x3F800000 0x3F800000 (san w)).toNat

/-- `RGBE2LDR` is `F2LDR` after `RGBE2F` on every pixel (R265). -/
def Obligations.RgbeToneIsFloatTone : Prop :=
  ∀ (exposure gamma : Word) (p : Rgbe), toneParamsOk exposure gamma = true →
    rgbeToLdr exposure gamma p = floatToLdr exposure gamma (rgbeToFloat p)

/-- `F2RGBE` after `RGBE2F` (R229): the pixel itself for a largest mantissa of 129 or more, and of 128 with exponent byte 0 or 128; for 128
otherwise one exponent less with doubled, saturated mantissas; black for 0; the normalised form for a largest mantissa below 128 that is no
power of two (of the powers of two R229 speaks otherwise than R224: log 21). -/
def Obligations.RgbeRoundTrip : Prop :=
  ∀ p : Rgbe,
    let top := max p.r.toNat (max p.g.toNat p.b.toNat)
    let back := floatToRgbe (rgbeToFloat p)
    let twice := fun m : Byte => BitVec.ofNat 8 (min 255 (2 * m.toNat))
    let k := min (7 - Nat.log2 top) p.e.toNat
    let up := fun m : Byte => BitVec.ofNat 8 (m.toNat * 2 ^ k)
    (129 ≤ top → back = p) ∧
    (top = 128 → (p.e = 0 ∨ p.e = 128) → back = p) ∧
    (top = 128 → p.e ≠ 0 → p.e ≠ 128 →
      back = { r := twice p.r, g := twice p.g, b := twice p.b, e := BitVec.ofNat 8 (p.e.toNat - 1) }) ∧
    (top = 0 → back = { r := 0, g := 0, b := 0, e := 0 }) ∧
    (1 ≤ top → top ≤ 127 → top ≠ 2 ^ Nat.log2 top →
      back = { r := up p.r, g := up p.g, b := up p.b, e := BitVec.ofNat 8 (p.e.toNat - k) })

/-- `RGB9E52F` after `F2RGB9E5` (R237): each channel differs from the sanitised and clamped input by at most half of `2^(E5 - 24)`. -/
def Obligations.Rgb9e5RoundTripError : Prop :=
  ∀ p : FloatPixel,
    let u := floatToRgb9e5 p
    let q := rgb9e5ToFloat u
    let near := fun (c : Word) (d : Word) =>
      2 * |f32Units d - (min (san c).units (32768 * 2 ^ 149) : Nat)| ≤ ((2 ^ (e5 u + 125) : Nat) : Int)
    near p.r q.r ∧ near p.g q.g ∧ near p.b q.b

/-! ### Worked examples of the spec -/

/-- The worked examples of the converters (R213, R228, R236, R243). -/
def Obligations.ConverterExamples : Prop :=
  (rgbeToFloat ⟨200, 100, 50, 130⟩).bytes = [0x00, 0x00, 0x48, 0x40, 0x00, 0x00, 0xC8, 0x3F, 0x00, 0x00, 0x48, 0x3F] ∧
  (floatToRgbe ⟨0x40480000, 0x3FC80000, 0x3F480000⟩).bytes = [0xC8, 0x64, 0x32, 0x82] ∧
  leBytes (floatToRgb9e5 ⟨0x3F800000, 0x3F000000, 0x3E800000⟩) = [0x10, 0x08, 0x20, 0x80] ∧
  rgb9e5ToFloat 0x80200810 = ⟨0x3F800000, 0x3F000000, 0x3E800000⟩

/-- The worked example of `DHDR` (R155, R300): the 53 bytes at address 0, a destination region of 8 bytes at address 64. -/
def Obligations.DecodeExample : Prop :=
  let header : List Byte :=
    [0x23, 0x3F, 0x52, 0x41, 0x44, 0x49, 0x41, 0x4E, 0x43, 0x45, 0x0A,
      0x46, 0x4F, 0x52, 0x4D, 0x41, 0x54, 0x3D, 0x33, 0x32, 0x2D, 0x62, 0x69, 0x74, 0x5F, 0x72, 0x6C, 0x65, 0x5F,
      0x72, 0x67, 0x62, 0x65, 0x0A, 0x0A, 0x2D, 0x59, 0x20, 0x31, 0x20, 0x2B, 0x58, 0x20, 0x32, 0x0A]
  let body : List Byte := [0x0A, 0x14, 0x1E, 0x81, 0x01, 0x01, 0x01, 0x03]
  let s : State :=
    { State.reset with
      regs := { State.reset.regs with srcLen := 53, dstAddr := 64, dstLen := 8 }
      mem := State.reset.mem.writeBytes 0 (header ++ body)
      inputs := [.write 6 3] }
  ∃ t, leadsTo 5 s t ∧ t.run = none ∧
    t.regs = { s.regs with
      cmd := 3
      status := 0b010
      width := 2
      height := 1
      dataOff := 45
      pos := 53
      ipos := 8
      row := 1
      prev := 0x811E140A } ∧
    t.mem.readBytes 64 8 = [0x0A, 0x14, 0x1E, 0x81, 0x0A, 0x14, 0x1E, 0x81]

/-! ### The whole machine -/

/-- The invariant holds after reset. -/
def Obligations.InvAtReset : Prop := Inv State.reset

/-- Every step keeps the invariant, from every state that meets it (R28, R29, R31, R41, R68, R292): `STATUS` and `ERRCODE` take only their
listed values and `BUSY` means that a command runs; memory has its canonical form; past its issue checks a running command's regions are in
order and its cursor is in the stream, at offset 0 while a header token is due, and in a scanline the pixels to come fit. -/
def Obligations.StepKeepsInv : Prop :=
  ∀ s t : State, Inv s → step s = .next t → Inv t

/-- The engine never stops the machine (R310, R326): in a state that meets the invariant no step is refused, and only a host access to an
address that memory does not have faults, which is the model's choice (log 11). -/
def Obligations.EngineNeverStops : Prop :=
  ∀ s : State, Inv s →
    (∃ t, step s = .next t) ∨
    (∃ a, 2 ^ 32 ≤ a ∧ step s = .fault (.outsideMemory a) ∧
      ((∃ b rest, s.inputs = .store a b :: rest) ∨ ∃ rest, s.inputs = .load a :: rest))

/-- Every command ends, with success or with a failure (R310, R370), and within one step for each source byte and two more; that bound
rests on the model's choice of a token as a step (log 5). -/
def Obligations.EveryCommandEnds : Prop :=
  ∀ (s : State), Inv s → s.inputs = [] → s.run ≠ none →
    ∃ k t, k ≤ s.regs.srcLen.toNat + 2 ∧ leadsTo k s t ∧ t.run = none ∧
      ((t.regs.status = 0b010 ∧ t.regs.errcode = 0) ∨
        (t.regs.status = 0b110 ∧ 1 ≤ t.regs.errcode.toNat ∧ t.regs.errcode.toNat ≤ 6))

/-- A command changes no byte of memory outside its destination region, and `HDRP` none (R62, R71, R72): in every step but a host's store. -/
def Obligations.OnlyDestinationWritten : Prop :=
  ∀ (s t : State) (a : Nat), Inv s → step s = .next t → (∀ x b rest, s.inputs ≠ .store x b :: rest) →
    ¬ InDestination s.regs a → t.mem.read a = s.mem.read a

/-- No command writes an operand register or `CMD` (R21 to R27), and while a command goes on no register changes at all (R41). -/
def Obligations.EngineKeepsRegisters : Prop :=
  ∀ s t : State, engineStep s = .next t →
    (∀ i, i ≤ 6 → t.regs.get i = s.regs.get i) ∧ (t.run ≠ none → t.regs = s.regs) ∧
      t.inputs = s.inputs ∧ t.busData = s.busData

/-- A failing command commits no register but `STATUS` and `ERRCODE`, whatever it had computed before (R312, R320). -/
def Obligations.FailureCommitsNothing : Prop :=
  ∀ (s : State) (c : Word) (t : State), Ends s c t → t.regs.errcode ≠ 0 →
    t.regs = { s.regs with cmd := c, status := 0b110, errcode := t.regs.errcode } ∧ t.regs.errcode.toNat ≤ 6

/-- A successful command writes no register but `CMD`, `STATUS`, `ERRCODE` and those marked for it (R43). -/
def Obligations.SuccessWritesMarked : Prop :=
  ∀ (s : State) (c : Word) (t : State), Ends s c t → t.regs.errcode = 0 →
    t.regs.cmd = c ∧ t.regs.status = 0b010 ∧ 1 ≤ c.toNat ∧ c.toNat ≤ 9 ∧
    ∀ i, i ∉ [6, 7, 8] →
      i ∉ (if c = 1 ∨ c = 3 then [9, 10, 11, 12, 13, 14, 15] else if c = 2 then [12, 13, 14, 15] else [16]) →
      t.regs.get i = s.regs.get i

/-- Which command can report which failure kind (R319). -/
def Obligations.FailureKinds : Prop :=
  ∀ (s : State) (c : Word) (t : State), Ends s c t → t.regs.errcode ≠ 0 →
    t.regs.errcode.toNat ∈
      (if c = 1 then [1, 2, 6] else if c = 2 then [3, 4, 5, 6] else if c = 3 then [1, 2, 3, 4, 5, 6] else [6])

/-- A failure found before the scanlines leaves memory as it was (R72, R322): every kind but `ScanlineWidthMismatch` and `InputUnderrun`. -/
def Obligations.EarlyFailureKeepsMemory : Prop :=
  ∀ (s : State) (c : Word) (t : State), Ends s c t → t.regs.errcode ≠ 0 → t.regs.errcode ≠ 3 → t.regs.errcode ≠ 4 →
    t.mem = s.mem ∧ t.draws = s.draws

/-- The model's choice for a host that breaks its duty (R76, log 4, log 17): a store into a region of the running command changes its byte and
marks the command; a load from the destination region gives some byte and marks the command; a marked command still ends only as a command
can, and leaves every register alone that it does not write. The accesses that R76 allows are in `HostMemoryAccess`. -/
def Obligations.DisturbedCommandEnd : Prop :=
  (∀ (s : State) (r : Run) (a : Nat) (rest : List HostMove), s.run = some r → a < 2 ^ 32 →
    (∀ b, s.inputs = .store a b :: rest → (InSource s.regs a ∨ InDestination s.regs a) →
      ∃ t, step s = .next t ∧ t = { s with mem := t.mem, run := some { r with disturbed := true }, inputs := rest } ∧
        t.mem.read a = b ∧ ∀ x, x ≠ a → t.mem.read x = s.mem.read x) ∧
    (s.inputs = .load a :: rest → InDestination s.regs a →
      ∃ b : Byte, step s = .next
        { s with
          busData := b.setWidth 32
          draws := s.draws + 1
          run := some { r with disturbed := true }
          inputs := rest })) ∧
  ∀ (s t : State) (r : Run), s.run = some r → r.disturbed = true → engineStep s = .next t → t.run = none →
    ((t.regs.status = 0b010 ∧ t.regs.errcode = 0) ∨
      (t.regs.status = 0b110 ∧ 1 ≤ t.regs.errcode.toNat ∧ t.regs.errcode.toNat ≤ 6)) ∧
    ∀ i, i ≠ 7 → i ≠ 8 → i ∉ writtenRegs s.regs.cmd → t.regs.get i = s.regs.get i

end Slice0
end

