-- ==== Sys2Proof/Laws/State.lean ====
section
/-! SUPPORT. One lemma for each field of each update of the state's records, so that no proof unfolds a record update. -/

namespace Sys2Proof.Machine

/-! ### Registers -/

@[simp] theorem Regs.withOutcome_srcAddr (r : Regs) (n : Nat) : (r.withOutcome n).srcAddr = r.srcAddr := rfl
@[simp] theorem Regs.withOutcome_srcLen (r : Regs) (n : Nat) : (r.withOutcome n).srcLen = r.srcLen := rfl
@[simp] theorem Regs.withOutcome_dstAddr (r : Regs) (n : Nat) : (r.withOutcome n).dstAddr = r.dstAddr := rfl
@[simp] theorem Regs.withOutcome_dstLen (r : Regs) (n : Nat) : (r.withOutcome n).dstLen = r.dstLen := rfl
@[simp] theorem Regs.withOutcome_exposure (r : Regs) (n : Nat) : (r.withOutcome n).exposure = r.exposure := rfl
@[simp] theorem Regs.withOutcome_gamma (r : Regs) (n : Nat) : (r.withOutcome n).gamma = r.gamma := rfl
@[simp] theorem Regs.withOutcome_cmd (r : Regs) (n : Nat) : (r.withOutcome n).cmd = r.cmd := rfl
@[simp] theorem Regs.withOutcome_status (r : Regs) (n : Nat) :
    (r.withOutcome n).status = if n = 0 then statusDone else statusFailed := rfl
@[simp] theorem Regs.withOutcome_errcode (r : Regs) (n : Nat) :
    (r.withOutcome n).errcode = BitVec.ofNat 32 n := rfl
@[simp] theorem Regs.withOutcome_width (r : Regs) (n : Nat) : (r.withOutcome n).width = r.width := rfl
@[simp] theorem Regs.withOutcome_height (r : Regs) (n : Nat) : (r.withOutcome n).height = r.height := rfl
@[simp] theorem Regs.withOutcome_dataOff (r : Regs) (n : Nat) : (r.withOutcome n).dataOff = r.dataOff := rfl
@[simp] theorem Regs.withOutcome_pos (r : Regs) (n : Nat) : (r.withOutcome n).pos = r.pos := rfl
@[simp] theorem Regs.withOutcome_ipos (r : Regs) (n : Nat) : (r.withOutcome n).ipos = r.ipos := rfl
@[simp] theorem Regs.withOutcome_row (r : Regs) (n : Nat) : (r.withOutcome n).row = r.row := rfl
@[simp] theorem Regs.withOutcome_prev (r : Regs) (n : Nat) : (r.withOutcome n).prev = r.prev := rfl
@[simp] theorem Regs.withOutcome_count (r : Regs) (n : Nat) : (r.withOutcome n).count = r.count := rfl

@[simp] theorem Regs.commit_srcAddr (r : Regs) (st : Staged) : (r.commit st).srcAddr = r.srcAddr := rfl
@[simp] theorem Regs.commit_srcLen (r : Regs) (st : Staged) : (r.commit st).srcLen = r.srcLen := rfl
@[simp] theorem Regs.commit_dstAddr (r : Regs) (st : Staged) : (r.commit st).dstAddr = r.dstAddr := rfl
@[simp] theorem Regs.commit_dstLen (r : Regs) (st : Staged) : (r.commit st).dstLen = r.dstLen := rfl
@[simp] theorem Regs.commit_exposure (r : Regs) (st : Staged) : (r.commit st).exposure = r.exposure := rfl
@[simp] theorem Regs.commit_gamma (r : Regs) (st : Staged) : (r.commit st).gamma = r.gamma := rfl
@[simp] theorem Regs.commit_cmd (r : Regs) (st : Staged) : (r.commit st).cmd = r.cmd := rfl
@[simp] theorem Regs.commit_status (r : Regs) (st : Staged) : (r.commit st).status = r.status := rfl
@[simp] theorem Regs.commit_errcode (r : Regs) (st : Staged) : (r.commit st).errcode = r.errcode := rfl
@[simp] theorem Regs.commit_width (r : Regs) (st : Staged) : (r.commit st).width = st.width := rfl
@[simp] theorem Regs.commit_height (r : Regs) (st : Staged) : (r.commit st).height = st.height := rfl
@[simp] theorem Regs.commit_dataOff (r : Regs) (st : Staged) : (r.commit st).dataOff = st.dataOff := rfl
@[simp] theorem Regs.commit_pos (r : Regs) (st : Staged) : (r.commit st).pos = st.pos := rfl
@[simp] theorem Regs.commit_ipos (r : Regs) (st : Staged) : (r.commit st).ipos = st.ipos := rfl
@[simp] theorem Regs.commit_row (r : Regs) (st : Staged) : (r.commit st).row = st.row := rfl
@[simp] theorem Regs.commit_prev (r : Regs) (st : Staged) : (r.commit st).prev = st.prev := rfl
@[simp] theorem Regs.commit_count (r : Regs) (st : Staged) : (r.commit st).count = st.count := rfl

@[simp] theorem Staged.ofRegs_width (r : Regs) : (Staged.ofRegs r).width = r.width := rfl
@[simp] theorem Staged.ofRegs_height (r : Regs) : (Staged.ofRegs r).height = r.height := rfl
@[simp] theorem Staged.ofRegs_dataOff (r : Regs) : (Staged.ofRegs r).dataOff = r.dataOff := rfl
@[simp] theorem Staged.ofRegs_pos (r : Regs) : (Staged.ofRegs r).pos = r.pos := rfl
@[simp] theorem Staged.ofRegs_ipos (r : Regs) : (Staged.ofRegs r).ipos = r.ipos := rfl
@[simp] theorem Staged.ofRegs_row (r : Regs) : (Staged.ofRegs r).row = r.row := rfl
@[simp] theorem Staged.ofRegs_prev (r : Regs) : (Staged.ofRegs r).prev = r.prev := rfl
@[simp] theorem Staged.ofRegs_count (r : Regs) : (Staged.ofRegs r).count = r.count := rfl

@[simp] theorem Staged.atHeader_width (r : Regs) : (Staged.atHeader r).width = r.width := rfl
@[simp] theorem Staged.atHeader_height (r : Regs) : (Staged.atHeader r).height = r.height := rfl
@[simp] theorem Staged.atHeader_dataOff (r : Regs) : (Staged.atHeader r).dataOff = r.dataOff := rfl
@[simp] theorem Staged.atHeader_pos (r : Regs) : (Staged.atHeader r).pos = 0 := rfl
@[simp] theorem Staged.atHeader_ipos (r : Regs) : (Staged.atHeader r).ipos = r.ipos := rfl
@[simp] theorem Staged.atHeader_row (r : Regs) : (Staged.atHeader r).row = r.row := rfl
@[simp] theorem Staged.atHeader_prev (r : Regs) : (Staged.atHeader r).prev = r.prev := rfl
@[simp] theorem Staged.atHeader_count (r : Regs) : (Staged.atHeader r).count = r.count := rfl

@[simp] theorem Regs.scramble_srcAddr (r : Regs) (d : Nat) : (r.scramble d).srcAddr = r.srcAddr := rfl
@[simp] theorem Regs.scramble_srcLen (r : Regs) (d : Nat) : (r.scramble d).srcLen = r.srcLen := rfl
@[simp] theorem Regs.scramble_dstAddr (r : Regs) (d : Nat) : (r.scramble d).dstAddr = r.dstAddr := rfl
@[simp] theorem Regs.scramble_dstLen (r : Regs) (d : Nat) : (r.scramble d).dstLen = r.dstLen := rfl
@[simp] theorem Regs.scramble_exposure (r : Regs) (d : Nat) : (r.scramble d).exposure = r.exposure := rfl
@[simp] theorem Regs.scramble_gamma (r : Regs) (d : Nat) : (r.scramble d).gamma = r.gamma := rfl
@[simp] theorem Regs.scramble_cmd (r : Regs) (d : Nat) : (r.scramble d).cmd = r.cmd := rfl
@[simp] theorem Regs.scramble_status (r : Regs) (d : Nat) : (r.scramble d).status = r.status := rfl
@[simp] theorem Regs.scramble_errcode (r : Regs) (d : Nat) : (r.scramble d).errcode = r.errcode := rfl

/-! ### Staged registers -/

@[simp] theorem Staged.skip_width (st : Staged) (n : Nat) :
    (st.skip n).width = st.width := rfl
@[simp] theorem Staged.skip_height (st : Staged) (n : Nat) :
    (st.skip n).height = st.height := rfl
@[simp] theorem Staged.skip_dataOff (st : Staged) (n : Nat) :
    (st.skip n).dataOff = st.dataOff := rfl
@[simp] theorem Staged.skip_pos (st : Staged) (n : Nat) :
    (st.skip n).pos = BitVec.ofNat 32 (st.pos.toNat + n) := rfl
@[simp] theorem Staged.skip_ipos (st : Staged) (n : Nat) :
    (st.skip n).ipos = st.ipos := rfl
@[simp] theorem Staged.skip_row (st : Staged) (n : Nat) :
    (st.skip n).row = st.row := rfl
@[simp] theorem Staged.skip_prev (st : Staged) (n : Nat) :
    (st.skip n).prev = st.prev := rfl
@[simp] theorem Staged.skip_count (st : Staged) (n : Nat) :
    (st.skip n).count = st.count := rfl

@[simp] theorem Staged.emitted_width (st : Staged) (px : List Rgbe) :
    (st.emitted px).width = st.width := rfl
@[simp] theorem Staged.emitted_height (st : Staged) (px : List Rgbe) :
    (st.emitted px).height = st.height := rfl
@[simp] theorem Staged.emitted_dataOff (st : Staged) (px : List Rgbe) :
    (st.emitted px).dataOff = st.dataOff := rfl
@[simp] theorem Staged.emitted_pos (st : Staged) (px : List Rgbe) :
    (st.emitted px).pos = st.pos := rfl
@[simp] theorem Staged.emitted_ipos (st : Staged) (px : List Rgbe) :
    (st.emitted px).ipos = BitVec.ofNat 32 (st.ipos.toNat + 4 * px.length) := rfl
@[simp] theorem Staged.emitted_row (st : Staged) (px : List Rgbe) :
    (st.emitted px).row = st.row := rfl
@[simp] theorem Staged.emitted_prev (st : Staged) (px : List Rgbe) :
    (st.emitted px).prev = (px.getLast?.map prevOfPixel).getD st.prev := rfl
@[simp] theorem Staged.emitted_count (st : Staged) (px : List Rgbe) :
    (st.emitted px).count = st.count := rfl

@[simp] theorem stageHeader_width (st : Staged) (t h w : Nat) :
    (stageHeader st t h w).width = BitVec.ofNat 32 w := rfl
@[simp] theorem stageHeader_height (st : Staged) (t h w : Nat) :
    (stageHeader st t h w).height = BitVec.ofNat 32 h := rfl
@[simp] theorem stageHeader_dataOff (st : Staged) (t h w : Nat) :
    (stageHeader st t h w).dataOff = BitVec.ofNat 32 t := rfl
@[simp] theorem stageHeader_pos (st : Staged) (t h w : Nat) :
    (stageHeader st t h w).pos = BitVec.ofNat 32 t := rfl
@[simp] theorem stageHeader_ipos (st : Staged) (t h w : Nat) :
    (stageHeader st t h w).ipos = 0 := rfl
@[simp] theorem stageHeader_row (st : Staged) (t h w : Nat) :
    (stageHeader st t h w).row = 0 := rfl
@[simp] theorem stageHeader_prev (st : Staged) (t h w : Nat) :
    (stageHeader st t h w).prev = 0 := rfl
@[simp] theorem stageHeader_count (st : Staged) (t h w : Nat) :
    (stageHeader st t h w).count = st.count := rfl

/-! ### The state -/

@[simp] theorem State.issue_regs (s : State) (c : Word) :
    (s.issue c).regs = { s.regs with cmd := c, status := statusBusy, errcode := 0 } := rfl
@[simp] theorem State.issue_mem (s : State) (c : Word) :
    (s.issue c).mem = s.mem := rfl
@[simp] theorem State.issue_run (s : State) (c : Word) :
    (s.issue c).run = some { phase := .issued, staged := Staged.ofRegs s.regs, disturbed := false } := rfl
@[simp] theorem State.issue_inputs (s : State) (c : Word) :
    (s.issue c).inputs = s.inputs := rfl
@[simp] theorem State.issue_busData (s : State) (c : Word) :
    (s.issue c).busData = s.busData := rfl
@[simp] theorem State.issue_draws (s : State) (c : Word) :
    (s.issue c).draws = s.draws := rfl

@[simp] theorem State.start_regs (s : State) (ph : Phase) (st : Staged) :
    (s.start ph st).regs = s.regs := rfl
@[simp] theorem State.start_mem (s : State) (ph : Phase) (st : Staged) :
    (s.start ph st).mem = s.mem := rfl
@[simp] theorem State.start_run (s : State) (ph : Phase) (st : Staged) :
    (s.start ph st).run = some { phase := ph, staged := st, disturbed := s.disturbed } := rfl
@[simp] theorem State.start_inputs (s : State) (ph : Phase) (st : Staged) :
    (s.start ph st).inputs = s.inputs := rfl
@[simp] theorem State.start_busData (s : State) (ph : Phase) (st : Staged) :
    (s.start ph st).busData = s.busData := rfl
@[simp] theorem State.start_draws (s : State) (ph : Phase) (st : Staged) :
    (s.start ph st).draws = s.draws := rfl

@[simp] theorem State.disturb_regs (s : State) :
    s.disturb.regs = s.regs := rfl
@[simp] theorem State.disturb_mem (s : State) :
    s.disturb.mem = s.mem := rfl
@[simp] theorem State.disturb_run (s : State) :
    s.disturb.run = s.run.map (fun r => { r with disturbed := true }) := rfl
@[simp] theorem State.disturb_inputs (s : State) :
    s.disturb.inputs = s.inputs := rfl
@[simp] theorem State.disturb_busData (s : State) :
    s.disturb.busData = s.busData := rfl
@[simp] theorem State.disturb_draws (s : State) :
    s.disturb.draws = s.draws := rfl

@[simp] theorem Memory.write_cells (m : Memory) (a : Nat) (b : Byte) :
    (m.write a b).cells = insertCell m.cells a b := rfl
@[simp] theorem Memory.write_unspec (m : Memory) (a : Nat) (b : Byte) : (m.write a b).unspec = m.unspec := rfl
@[simp] theorem Memory.spoil_cells (m : Memory) (lo len d : Nat) :
    (m.spoil lo len d).cells = m.cells.filter (fun c => c.1 < lo || lo + len ≤ c.1) := rfl
@[simp] theorem Memory.spoil_unspec (m : Memory) (lo len d : Nat) :
    (m.spoil lo len d).unspec = ⟨lo, len, d⟩ :: m.unspec := rfl

/-! ### The end of a command -/

theorem State.conclude_undisturbed (s : State) (o : Option FailKind) (regs : Regs) (h : s.disturbed = false) :
    s.conclude o regs = { s with regs := regs.withOutcome (outcomeCode o), run := none } := by
  simp [State.conclude, h]

theorem State.conclude_disturbed (s : State) (o : Option FailKind) (regs : Regs) (h : s.disturbed = true) :
    s.conclude o regs = s.endDisturbed := by
  simp [State.conclude, h]

@[simp] theorem State.conclude_run (s : State) (o : Option FailKind) (regs : Regs) : (s.conclude o regs).run = none := by
  unfold State.conclude; split <;> rfl

@[simp] theorem State.spoilDestination_regs (s : State) : s.spoilDestination.regs = s.regs := by
  unfold State.spoilDestination; split <;> rfl

@[simp] theorem State.spoilDestination_run (s : State) : s.spoilDestination.run = s.run := by
  unfold State.spoilDestination; split <;> rfl

@[simp] theorem State.spoilDestination_inputs (s : State) : s.spoilDestination.inputs = s.inputs := by
  unfold State.spoilDestination; split <;> rfl

@[simp] theorem State.spoilDestination_busData (s : State) : s.spoilDestination.busData = s.busData := by
  unfold State.spoilDestination; split <;> rfl

@[simp] theorem State.spoilDestination_disturbed (s : State) : s.spoilDestination.disturbed = s.disturbed := by
  simp [State.disturbed]

@[simp] theorem State.conclude_inputs (s : State) (o : Option FailKind) (regs : Regs) :
    (s.conclude o regs).inputs = s.inputs := by
  unfold State.conclude; split
  · simp [State.endDisturbed]
  · rfl

@[simp] theorem State.finish_run (s : State) (regs : Regs) : (s.finish regs).run = none := by simp [State.finish]

@[simp] theorem State.raise_run (s : State) (k : FailKind) : (s.raise k).run = none := by
  unfold State.raise; split <;> simp

@[simp] theorem State.finish_inputs (s : State) (regs : Regs) : (s.finish regs).inputs = s.inputs := by
  simp [State.finish]

@[simp] theorem State.raise_inputs (s : State) (k : FailKind) : (s.raise k).inputs = s.inputs := by
  unfold State.raise; split <;> simp

end Sys2Proof.Machine
end

