-- ==== Sys2Proof/Laws/Memory.lean ====
section
/-! SUPPORT. The laws of buffer memory: a read after a write, what a write leaves alone, and the canonical form. -/

namespace Sys2Proof.Machine

/-! ### Cells -/

theorem lookupCell_insertCell (cells : List Host.Cell) (x : Nat) (v : Byte) (y : Nat) :
    lookupCell (insertCell cells x v) y = if y = x then some v else lookupCell cells y := by
  induction cells with
  | nil =>
    by_cases h : y = x
    · simp [insertCell, lookupCell, h]
    · simp [insertCell, lookupCell, h, Ne.symm h]
  | cons c rest ih =>
    obtain ⟨a, b⟩ := c
    unfold insertCell
    split
    · by_cases h : y = x
      · simp [lookupCell, h]
      · simp [lookupCell, h, Ne.symm h]
    · split
      · rename_i h; subst h
        by_cases h : y = x
        · simp [lookupCell, h]
        · simp [lookupCell, h, Ne.symm h]
      · rename_i hxa
        simp only [lookupCell, ih]
        by_cases hay : a = y
        · subst hay; simp [Ne.symm hxa]
        · simp [hay]

theorem lookupCell_filter (cells : List Host.Cell) (p : Nat → Bool) (y : Nat) :
    lookupCell (cells.filter (fun c => p c.1)) y = if p y then lookupCell cells y else none := by
  induction cells with
  | nil => simp [lookupCell]
  | cons c rest ih =>
    obtain ⟨a, b⟩ := c
    by_cases hay : a = y
    · subst hay
      by_cases hp : p a <;> simp [lookupCell, hp, ih]
    · by_cases hp : p a <;> simp [lookupCell, hp, ih, hay]

/-! ### Reads and writes -/

@[simp] theorem Memory.unlisted_write (m : Memory) (a : Nat) (b : Byte) (x : Nat) :
    (m.write a b).unlisted x = m.unlisted x := rfl

/-- What a read gives after a write of one byte. -/
theorem Memory.read_write (m : Memory) (a : Nat) (b : Byte) (x : Nat) :
    (m.write a b).read x = if x = a then b else m.read x := by
  unfold Memory.read
  rw [Memory.write_cells, lookupCell_insertCell, Memory.unlisted_write]
  split <;> rfl

@[simp] theorem Memory.read_write_same (m : Memory) (a : Nat) (b : Byte) : (m.write a b).read a = b := by
  simp [Memory.read_write]

theorem Memory.read_write_other (m : Memory) (a : Nat) (b : Byte) {x : Nat} (h : x ≠ a) :
    (m.write a b).read x = m.read x := by
  simp [Memory.read_write, h]

@[simp] theorem Memory.writeBytes_nil (m : Memory) (a : Nat) : m.writeBytes a [] = m := rfl

@[simp] theorem Memory.writeBytes_cons (m : Memory) (a : Nat) (b : Byte) (bs : List Byte) :
    m.writeBytes a (b :: bs) = (m.write a b).writeBytes (a + 1) bs := rfl

@[simp] theorem Memory.writeBytes_unspec (m : Memory) (a : Nat) (bs : List Byte) :
    (m.writeBytes a bs).unspec = m.unspec := by
  induction bs generalizing m a with
  | nil => rfl
  | cons b bs ih => simp [ih]

/-- Two writes one behind the other are one write. -/
theorem Memory.writeBytes_append (m : Memory) (a : Nat) (bs cs : List Byte) :
    m.writeBytes a (bs ++ cs) = (m.writeBytes a bs).writeBytes (a + bs.length) cs := by
  induction bs generalizing m a with
  | nil => simp
  | cons b bs ih => simp [ih, Nat.add_assoc, Nat.add_comm 1]

/-- A write leaves every byte outside the written ones alone. -/
theorem Memory.read_writeBytes_outside (m : Memory) (a : Nat) (bs : List Byte) {x : Nat}
    (h : x < a ∨ a + bs.length ≤ x) : (m.writeBytes a bs).read x = m.read x := by
  induction bs generalizing m a with
  | nil => rfl
  | cons b bs ih =>
    simp only [List.length_cons] at h
    rw [Memory.writeBytes_cons, ih _ _ (by omega), Memory.read_write_other _ _ _ (by omega)]

/-- A read of a written byte gives it. -/
theorem Memory.read_writeBytes_inside (m : Memory) (a : Nat) (bs : List Byte) (k : Nat) (h : k < bs.length) :
    (m.writeBytes a bs).read (a + k) = bs[k] := by
  induction bs generalizing m a k with
  | nil => simp at h
  | cons b bs ih =>
    rw [Memory.writeBytes_cons]
    cases k with
    | zero => rw [Memory.read_writeBytes_outside _ _ _ (by omega)]; simp
    | succ k =>
      have hk : k < bs.length := by simpa using h
      rw [show a + (k + 1) = a + 1 + k by omega, ih _ _ k hk]
      simp

/-- Outside a spoiled range a read gives what it gave before. -/
theorem Memory.read_spoil_outside (m : Memory) (lo len d : Nat) {x : Nat} (h : x < lo ∨ lo + len ≤ x) :
    (m.spoil lo len d).read x = m.read x := by
  have hd : (m.spoil lo len d).unlisted x = m.unlisted x := by
    have : ¬(lo ≤ x ∧ x < lo + len) := by omega
    simp [Memory.unlisted, Memory.spoil, drawAt, this]
  unfold Memory.read
  rw [hd, Memory.spoil_cells, lookupCell_filter m.cells (fun a => a < lo || lo + len ≤ a) x]
  have : (decide (x < lo) || decide (lo + len ≤ x)) = true := by simpa using h
  simp [this]

/-- Inside a spoiled range a read gives the free value of the draw. -/
theorem Memory.read_spoil_inside (m : Memory) (lo len d : Nat) {x : Nat} (h : lo ≤ x ∧ x < lo + len) :
    (m.spoil lo len d).read x = Config.unspecifiedByte d x := by
  unfold Memory.read
  rw [Memory.spoil_cells, lookupCell_filter m.cells (fun a => a < lo || lo + len ≤ a) x]
  have : (decide (x < lo) || decide (lo + len ≤ x)) = false := by simp; omega
  simp [this, Memory.unlisted, Memory.spoil, drawAt, h]

@[simp] theorem Memory.readBytes_length (m : Memory) (a n : Nat) : (m.readBytes a n).length = n := by
  induction n generalizing a with
  | zero => rfl
  | succ n ih => simp [Memory.readBytes, ih]

theorem Memory.readBytes_getElem (m : Memory) (a n k : Nat) (h : k < (m.readBytes a n).length) :
    (m.readBytes a n)[k] = m.read (a + k) := by
  induction n generalizing a k with
  | zero => simp at h
  | succ n ih =>
    cases k with
    | zero => simp [Memory.readBytes]
    | succ k => simp [Memory.readBytes, ih, Nat.add_assoc, Nat.add_comm 1]

/-- Memories that read the same over a range give the same bytes. -/
theorem Memory.readBytes_congr (m m' : Memory) (a n : Nat) (h : ∀ x, a ≤ x → x < a + n → m.read x = m'.read x) :
    m.readBytes a n = m'.readBytes a n := by
  induction n generalizing a with
  | zero => rfl
  | succ n ih =>
    simp only [Memory.readBytes]
    rw [h a (by omega) (by omega), ih (a + 1) (fun x h1 h2 => h x (by omega) (by omega))]

/-! ### The canonical form -/

theorem cellsRise_mono {least least' : Nat} {cells : List Host.Cell} (h : least ≤ least')
    (hc : cellsRise least' cells = true) : cellsRise least cells = true := by
  cases cells with
  | nil => rfl
  | cons c rest =>
    obtain ⟨a, b⟩ := c
    simp only [cellsRise, Bool.and_eq_true, decide_eq_true_eq] at hc ⊢
    exact ⟨⟨by omega, hc.1.2⟩, hc.2⟩

theorem cellsRise_insertCell {least : Nat} {cells : List Host.Cell} {x : Nat} (v : Byte)
    (hc : cellsRise least cells = true) (hl : least ≤ x) (hx : x < Config.memSize) :
    cellsRise least (insertCell cells x v) = true := by
  induction cells generalizing least with
  | nil => simp [insertCell, cellsRise, hl, hx]
  | cons c rest ih =>
    obtain ⟨a, b⟩ := c
    simp only [cellsRise, Bool.and_eq_true, decide_eq_true_eq] at hc
    unfold insertCell
    split
    · rename_i hxa
      simp only [cellsRise, Bool.and_eq_true, decide_eq_true_eq]
      exact ⟨⟨hl, hx⟩, ⟨by omega, hc.1.2⟩, hc.2⟩
    · split
      · rename_i h; subst h
        simp only [cellsRise, Bool.and_eq_true, decide_eq_true_eq]
        exact ⟨⟨hl, hx⟩, hc.2⟩
      · simp only [cellsRise, Bool.and_eq_true, decide_eq_true_eq]
        exact ⟨hc.1, ih hc.2 (by omega)⟩

theorem cellsRise_filter {least : Nat} {cells : List Host.Cell} (p : Host.Cell → Bool)
    (hc : cellsRise least cells = true) : cellsRise least (cells.filter p) = true := by
  induction cells generalizing least with
  | nil => rfl
  | cons c rest ih =>
    obtain ⟨a, b⟩ := c
    simp only [cellsRise, Bool.and_eq_true, decide_eq_true_eq] at hc
    by_cases hp : p (a, b)
    · simp only [List.filter_cons, hp, if_true, cellsRise, Bool.and_eq_true, decide_eq_true_eq]
      exact ⟨hc.1, ih hc.2⟩
    · simp only [List.filter_cons, hp]
      exact cellsRise_mono (by omega) (ih hc.2)

/-- Writing a byte keeps the canonical form. -/
theorem Memory.wf_write {m : Memory} {a : Nat} (b : Byte) (h : m.wf = true) (ha : a < Config.memSize) :
    (m.write a b).wf = true :=
  cellsRise_insertCell b h (Nat.zero_le _) ha

/-- Writing bytes keeps the canonical form. -/
theorem Memory.wf_writeBytes {m : Memory} {a : Nat} {bs : List Byte} (h : m.wf = true)
    (ha : a + bs.length ≤ Config.memSize) : (m.writeBytes a bs).wf = true := by
  induction bs generalizing m a with
  | nil => exact h
  | cons b bs ih =>
    simp only [List.length_cons] at ha
    exact ih (Memory.wf_write b h (by omega)) (by omega)

/-- Spoiling a range keeps the canonical form. -/
theorem Memory.wf_spoil {m : Memory} (lo len d : Nat) (h : m.wf = true) : (m.spoil lo len d).wf = true :=
  cellsRise_filter _ h

/-- Memory at reset has the canonical form. -/
theorem Memory.wf_reset : State.reset.mem.wf = true := rfl

end Sys2Proof.Machine
end

