-- ==== Sys2Proof/Laws/Ops.lean ====
section
/-! SUPPORT. One lemma for each shared operation that says everything it can do. -/

namespace Sys2Proof.Machine

/-! ### The end of a command -/

/-- A failure of a command that nobody disturbed (R312, R320, R322). -/
theorem State.raise_eq (s : State) (k : FailKind) (h : s.disturbed = false) :
    s.raise k = if s.inScanlines then failedInScanlines s k else failedState s k := by
  unfold State.raise
  split
  · rw [State.conclude_undisturbed _ _ _ (by simpa using h)]
    simp [failedInScanlines, failedState, outcomeCode]
  · rw [State.conclude_undisturbed _ _ _ h]
    simp [failedState, outcomeCode]

/-- Success of a command that nobody disturbed (R311). -/
theorem State.finish_eq (s : State) (regs : Regs) (h : s.disturbed = false) :
    s.finish regs = { s with regs := regs.withOutcome 0, run := none } := by
  simp [State.finish, State.conclude_undisturbed _ _ _ h, outcomeCode]

/-- Spoiling the destination changes memory only inside the destination region. -/
theorem State.read_spoilDestination (s : State) (x : Nat) (h : s.regs.inDestination x = false) :
    s.spoilDestination.mem.read x = s.mem.read x := by
  unfold State.spoilDestination
  split
  · rename_i hd
    apply Memory.read_spoil_outside
    have hn : ¬(s.regs.dstAddr.toNat ≤ x ∧ x < s.regs.dstAddr.toNat + s.regs.dstLen.toNat) := by
      intro hx
      simp [Regs.inDestination, hd, Regs.dstEnd, hx] at h
    omega
  · rfl

/-- The end of a command changes memory only inside its destination region. -/
theorem State.read_conclude (s : State) (o : Option FailKind) (regs : Regs) (x : Nat)
    (h : s.regs.inDestination x = false) : (s.conclude o regs).mem.read x = s.mem.read x := by
  unfold State.conclude
  split
  · exact State.read_spoilDestination s x h
  · rfl

/-- A failure changes memory only inside the destination region (R322). -/
theorem State.read_raise (s : State) (k : FailKind) (x : Nat) (h : s.regs.inDestination x = false) :
    (s.raise k).mem.read x = s.mem.read x := by
  unfold State.raise
  split
  · rw [State.read_conclude _ _ _ _ (by simpa using h), State.read_spoilDestination s x h]
  · exact State.read_conclude s _ _ x h

/-! ### The conversion frame -/

/-- What the conversion frame answers (R210): always a next state, the conversion's or the failure's. -/
theorem convert_eq (strideIn strideOut : Nat) (ok : Bool) (pixel : Memory → Nat → List Byte) (s : State) :
    convert strideIn strideOut ok pixel s = .next
      (if convertOk s.regs strideIn strideOut ok then
        State.finish { s with mem := s.mem.writeBytes s.regs.dstAddr.toNat (convertedBytes s strideIn pixel) }
          { s.regs with count := BitVec.ofNat 32 (pixelCount s.regs strideIn) }
      else s.raise .badOperand) := by
  unfold convert; split <;> rfl

/-- The length of what a conversion writes, for pixels of `strideOut` bytes. -/
theorem convertedBytes_length (s : State) (strideIn strideOut : Nat) (pixel : Memory → Nat → List Byte)
    (h : ∀ m a, (pixel m a).length = strideOut) :
    (convertedBytes s strideIn pixel).length = pixelCount s.regs strideIn * strideOut := by
  simp [convertedBytes, List.length_flatMap, h]

@[simp] theorem leBytes_length (w : Word) : (leBytes w).length = 4 := rfl
@[simp] theorem Rgbe.bytes_length (p : Rgbe) : p.bytes.length = 4 := rfl
@[simp] theorem FloatPixel.bytes_length (p : FloatPixel) : p.bytes.length = 12 := rfl
@[simp] theorem Ldr.bytes_length (p : Ldr) : p.bytes.length = 4 := rfl

/-! ### Emission and planes -/

@[simp] theorem pixelBytes_length (px : List Rgbe) : (pixelBytes px).length = 4 * px.length := by
  simp [pixelBytes, List.length_flatMap, Nat.mul_comm]

/-- What an emission can answer (R182): within memory the pixels are stored and the scanline goes on or ends; else a fault. -/
theorem emitThen_eq (px : List Rgbe) (rc : Option Nat) (rest : Option LinePos) (r : Run) (s : State) :
    emitThen px rc rest r s =
      if emitAddr s.regs r.staged + 4 * px.length ≤ Config.memSize then
        .next (match rest with
          | some lp =>
            { s with
              mem := s.mem.writeBytes (emitAddr s.regs r.staged) (pixelBytes px)
              run := some { r with phase := .line rc lp, staged := r.staged.emitted px } }
          | none =>
            endLine rc { r with staged := r.staged.emitted px }
              { s with mem := s.mem.writeBytes (emitAddr s.regs r.staged) (pixelBytes px) })
      else .fault (.outsideMemory (emitAddr s.regs r.staged)) := by
  unfold emitThen
  cases rest <;> rfl

/-- What the end of a scanline does (R188, R290). -/
theorem endLine_cases (rc : Option Nat) (r : Run) (s : State) :
    (∃ n, rc = some (n + 2) ∧ endLine rc r s =
      { s with run := some { r with
          phase := .line (some (n + 1)) .start
          staged := { r.staged with row := r.staged.row + 1 } } }) ∨
    ((∀ n, rc ≠ some (n + 2)) ∧
      endLine rc r s = s.finish (s.regs.commit { r.staged with row := r.staged.row + 1 })) := by
  match rc with
  | none => exact .inr ⟨by simp, rfl⟩
  | some 0 => exact .inr ⟨by simp, rfl⟩
  | some 1 => exact .inr ⟨by simp, rfl⟩
  | some (n + 2) => exact .inl ⟨n, rfl, rfl⟩

@[simp] theorem Planes.get_put (tmp : Planes) (c : Chan) (bs : List Byte) :
    (tmp.put c bs).get c = tmp.get c ++ bs := by
  cases c <;> rfl

/-- Appending to one plane leaves the others alone. -/
theorem Planes.get_put_other (tmp : Planes) {c c' : Chan} (bs : List Byte) (h : c' ≠ c) :
    (tmp.put c bs).get c' = tmp.get c' := by
  cases c <;> cases c' <;> first | rfl | exact absurd rfl h

/-- A plane token never passes the end of its plane (R177, R178). -/
theorem planeToken_filled_le (tmp : Planes) (c : Chan) (bs : List Byte) (w : Nat) (h : (tmp.get c).length ≤ w) :
    ((tmp.put c (bs.take (w - (tmp.get c).length))).get c).length ≤ w := by
  simp only [Planes.get_put, List.length_append, List.length_take]
  omega

/-- What a plane token can answer: the same plane, the next plane, or the scanline emitted. -/
theorem planeToken_cases (rc : Option Nat) (c : Chan) (tmp : Planes) (n : Nat) (bs : List Byte) (r : Run) (s : State) :
    let w := r.staged.width.toNat
    let tmp' := tmp.put c (bs.take (w - (tmp.get c).length))
    ((tmp'.get c).length < w ∧ planeToken rc c tmp n bs r s = .next
      { s with run := some { r with phase := .line rc (.plane c tmp'), staged := r.staged.skip n } }) ∨
    (w ≤ (tmp'.get c).length ∧ ∃ c', Chan.next c = some c' ∧ planeToken rc c tmp n bs r s = .next
      { s with run := some { r with phase := .line rc (.plane c' tmp'), staged := r.staged.skip n } }) ∨
    (w ≤ (tmp'.get c).length ∧ Chan.next c = none ∧ planeToken rc c tmp n bs r s =
      emitThen (interleave tmp'.r tmp'.g tmp'.b tmp'.e) rc none { r with staged := r.staged.skip n } s) := by
  intro w tmp'
  by_cases h : (tmp'.get c).length < w
  · exact .inl ⟨h, by simp only [planeToken]; rw [if_pos h]⟩
  · have hw : w ≤ (tmp'.get c).length := Nat.le_of_not_lt h
    cases hc : Chan.next c with
    | some c' => exact .inr (.inl ⟨hw, c', rfl, by simp only [planeToken]; rw [if_neg h, hc]⟩)
    | none => exact .inr (.inr ⟨hw, rfl, by simp only [planeToken]; rw [if_neg h, hc]⟩)

theorem interleave_length (r g b e : List Byte) :
    (interleave r g b e).length = min (min r.length g.length) (min b.length e.length) := by
  induction r generalizing g b e with
  | nil => simp [interleave]
  | cons x r ih =>
    cases g with
    | nil => simp [interleave]
    | cons y g =>
      cases b with
      | nil => simp [interleave]
      | cons z b =>
        cases e with
        | nil => simp [interleave]
        | cons u e => simp only [interleave, List.length_cons, ih]; omega

/-- Of four full planes pixel `i` of the interleave is byte `i` of each (R181). -/
theorem interleave_eq_planePixels (w : Nat) (r g b e : List Byte) (hr : r.length = w) (hg : g.length = w) (hb : b.length = w)
    (he : e.length = w) : interleave r g b e = planePixels w r g b e := by
  induction w generalizing r g b e with
  | zero =>
    rw [List.length_eq_zero_iff.1 hr]
    rfl
  | succ w ih =>
    obtain ⟨x, r, rfl⟩ := List.exists_cons_of_length_eq_add_one hr
    obtain ⟨y, g, rfl⟩ := List.exists_cons_of_length_eq_add_one hg
    obtain ⟨z, b, rfl⟩ := List.exists_cons_of_length_eq_add_one hb
    obtain ⟨u, e, rfl⟩ := List.exists_cons_of_length_eq_add_one he
    simp only [List.length_cons, Nat.add_right_cancel_iff] at hr hg hb he
    simp [interleave, planePixels, List.range_succ_eq_map, ih r g b e hr hg hb he, Function.comp_def]

/-! ### The regions in the terms of the statements -/

/-- The machine's test for the source region decides `InSource`. -/
theorem inSource_iff (r : Regs) (a : Nat) : r.inSource a = true ↔ InSource r a := by
  simp only [Regs.inSource, hasSource, InSource, Bool.and_eq_true, decide_eq_true_eq, and_assoc]
  rfl

/-- The machine's test for the destination region decides `InDestination`. -/
theorem inDestination_iff (r : Regs) (a : Nat) : r.inDestination a = true ↔ InDestination r a := by
  simp only [Regs.inDestination, hasDestination, InDestination, Bool.and_eq_true, decide_eq_true_eq, and_assoc]
  rfl

/-! ### Fetch and step -/

theorem srcBytes_length (s : State) (o n : Nat) : (s.srcBytes o n).length = min n (s.regs.srcLen.toNat - o) := by
  simp [State.srcBytes]

/-- With no host move pending a step is the engine's. -/
theorem step_engine (s : State) (h : s.inputs = []) : step s = engineStep s := by
  simp [step, h]

/-- With a host move pending a step is that move. -/
theorem step_host (s : State) (mv : HostMove) (rest : List HostMove) (h : s.inputs = mv :: rest) :
    step s = hostStep mv { s with inputs := rest } := by
  simp [step, h]

/-- An idle engine does nothing (R353). -/
theorem engineStep_idle (s : State) (h : s.run = none) : engineStep s = .next s := by
  simp [engineStep, h]

/-- A running engine runs what it fetches. -/
theorem engineStep_running (s : State) (r : Run) (h : s.run = some r) : engineStep s = runFetched (fetch r s) s := by
  simp [engineStep, h]

/-- What a fetch that finds an instruction has checked. -/
theorem fetch_run {r : Run} {s : State} {i : Instr} (h : fetch r s = .run i) :
    (r.phase = .issued ∨ s.regs.srcFits = true) ∧ decode r.phase.place (fetchCode r s) = .ok i := by
  unfold fetch at h
  split at h
  · cases h
  · rename_i hc
    refine ⟨by by_contra hn; push Not at hn; exact hc ⟨hn.1, by simpa using hn.2⟩, ?_⟩
    split at h
    · rename_i j hj; cases h; exact hj
    · cases h

end Sys2Proof.Machine
end

