-- ==== Sys2Proof/Laws/PerInstr.lean ====
section
/-! SUPPORT. The statements made for every instruction, one lemma per constructor of Instr. -/

namespace Sys2Proof.Laws.EncodedLength

/-- The encoding has the instruction's length (R91, R113): a command is one word and no token, a token is as many bytes as the cursor
moves past it. -/
def Statement (i : Instr) : Prop :=
  match encode i with
  | .word _ => tokenLength i = 0
  | .bytes bs => bs.length = tokenLength i

theorem hdrp : Statement .hdrp := rfl
theorem scan : Statement .scan := rfl
theorem dhdr : Statement .dhdr := rfl
theorem rgbe2f : Statement .rgbe2f := rfl
theorem f2rgbe : Statement .f2rgbe := rfl
theorem f2rgb9e5 : Statement .f2rgb9e5 := rfl
theorem rgb9e52f : Statement .rgb9e52f := rfl
theorem rgbe2ldr : Statement .rgbe2ldr := rfl
theorem f2ldr : Statement .f2ldr := rfl
theorem hdr (text : List Byte) : Statement (.hdr text) := rfl
theorem nsSig (width16 : BitVec 15) : Statement (.nsSig width16) := rfl
theorem osMark (e : Byte) : Statement (.osMark e) := rfl
theorem osPix (r g b e : Byte) : Statement (.osPix r g b e) := rfl
theorem nsNop0 : Statement .nsNop0 := rfl
theorem nsRun (n : BitVec 7) (v : Byte) : Statement (.nsRun n v) := rfl
theorem nsLit (data : List Byte) : Statement (.nsLit data) := by
  simp [Statement, encode, tokenLength, Nat.add_comm]

end Sys2Proof.Laws.EncodedLength
end

