-- ==== Sys2Proof/Tests/Slice0.lean ====
section
/-!
SUPPORT. Tests: ill-formed terms are refused, every constructor's code decodes, single steps give what the spec's examples say, and for
every obligation with hypotheses a state and operands that meet them (`witness_…`). Expected values are from spec/95_test_vectors.md and
the worked examples of the rules.
-/

namespace Sys2Proof.Tests

open Sys2Proof.Machine

set_option Elab.async false

/-! ### Ill-formed terms -/

theorem test_wf_hdr_unterminated : WellFormed (.hdr [0x0A, 0x0A, 0x41]) = false := by decide
theorem test_wf_hdr_too_long : WellFormed (.hdr [0x0A, 0x0A, 0x41, 0x0A, 0x41]) = false := by decide
theorem test_wf_run_zero : WellFormed (.nsRun 0 7) = false := by decide
theorem test_wf_lit_empty : WellFormed (.nsLit []) = false := by decide
theorem test_wf_lit_long : WellFormed (.nsLit (List.replicate 129 7)) = false := by decide +kernel
theorem test_wf_pixel_is_marker : WellFormed (.osPix 1 1 1 9) = false := by decide

/-! ### Decoding, from codes written out bit by bit (R90, R100, R104 to R111) -/

theorem test_decode_hdrp : decode .command (.word 0b00000000000000000000000000000001) = .ok .hdrp := by decide
theorem test_decode_scan : decode .command (.word 0b00000000000000000000000000000010) = .ok .scan := by decide
theorem test_decode_dhdr : decode .command (.word 0b00000000000000000000000000000011) = .ok .dhdr := by decide
theorem test_decode_rgbe2f : decode .command (.word 0b00000000000000000000000000000100) = .ok .rgbe2f := by decide
theorem test_decode_f2rgbe : decode .command (.word 0b00000000000000000000000000000101) = .ok .f2rgbe := by decide
theorem test_decode_f2rgb9e5 : decode .command (.word 0b00000000000000000000000000000110) = .ok .f2rgb9e5 := by decide
theorem test_decode_rgb9e52f : decode .command (.word 0b00000000000000000000000000000111) = .ok .rgb9e52f := by decide
theorem test_decode_rgbe2ldr : decode .command (.word 0b00000000000000000000000000001000) = .ok .rgbe2ldr := by decide
theorem test_decode_f2ldr : decode .command (.word 0b00000000000000000000000000001001) = .ok .f2ldr := by decide
theorem test_decode_reserved :
    [0, 10, 15, 0x11, 0x80000001].map (fun w => decode .command (.word w)) = List.replicate 5 (.error .illegalCommand) := by
  decide
theorem test_decode_hdr :
    decode (.header .s0) (.bytes [0x41, 0x0A, 0x0A, 0x0A, 0x42, 0x0A, 0x0A]) = .ok (.hdr [0x41, 0x0A, 0x0A, 0x0A, 0x42, 0x0A]) := by
  decide
theorem test_decode_nsSig :
    decode .lineStart (.bytes [0b00000010, 0b00000010, 0b01111111, 0b11111110, 0]) = .ok (.nsSig 0b111111111111110) := by decide
theorem test_decode_no_signature :
    decode .lineStart (.bytes [0b00000010, 0b00000010, 0b10000000, 0b00000100]) = .ok (.osPix 2 2 128 4) := by decide
theorem test_decode_osMark :
    decode .oldStyle (.bytes [0b00000001, 0b00000001, 0b00000001, 0b11111111]) = .ok (.osMark 255) := by decide
theorem test_decode_osMark_start :
    decode .lineStart (.bytes [0b00000001, 0b00000001, 0b00000001, 0b00000000]) = .ok (.osMark 0) := by decide
theorem test_decode_osPix : decode .oldStyle (.bytes [2, 2, 5, 9]) = .ok (.osPix 2 2 5 9) := by decide
theorem test_decode_nsNop0 : decode .plane (.bytes [0b00000000, 0b10000001]) = .ok .nsNop0 := by decide
theorem test_decode_nsRun : decode .plane (.bytes [0b11111111, 0b10100101]) = .ok (.nsRun 127 0xA5) := by decide
theorem test_decode_nsLit : decode .plane (.bytes [0b00000010, 8, 9, 10]) = .ok (.nsLit [8, 9]) := by decide
theorem test_decode_nsLit_128 :
    decode .plane (.bytes (0b10000000 :: List.replicate 129 7)) = .ok (.nsLit (List.replicate 128 7)) := by decide +kernel
theorem test_decode_truncated :
    decode .plane (.bytes [0b10000000, 1]) = .error .truncated ∧ decode .lineStart (.bytes [2, 2, 0]) = .error .truncated ∧
      decode .plane (.bytes []) = .error .truncated := by decide

/-- The rows of the opcode table, by their fixed bits. -/
theorem test_table :
    [(32, 1), (32, 9), (32, 0x02020000), (32, 0x01010100), (32, 0x0A141E81)].map (fun x => decodeTableWord x.1 x.2) =
      [some .hdrp, some .f2ldr, some (.nsSig 0), some (.osMark 0), some (.osPix 10 20 30 129)] ∧
    [(8, 0), (16, 0x8163), (8, 1)].map (fun x => decodeTableWord x.1 x.2) =
      [some .nsNop0, some (.nsRun 1 99), some (.nsLit [0])] := by decide +kernel

/-! ### States -/

def emptyMemory : Memory := { cells := [], unspec := [] }

/-- The answer is a next state with a property. -/
def nextWith (r : Result) (p : State → Bool) : Bool :=
  match r with
  | .next t => p t
  | _ => false

/-- `k` steps. -/
def runs (k : Nat) (s : State) : Result := Host.Core.run Sys2Proof.core k s

/-- The state `k` steps later. -/
def later (k : Nat) (s : State) : State :=
  match runs k s with
  | .next t => t
  | _ => s

theorem leadsTo_later (k : Nat) (s : State) (h : nextWith (runs k s) (fun _ => true) = true) : leadsTo k s (later k s) := by
  unfold leadsTo later
  change runs k s = _
  cases hr : runs k s with
  | next t => rfl
  | fault f => simp [nextWith, hr] at h
  | refused f => simp [nextWith, hr] at h

/-- A command that ends within `k` steps. -/
theorem ends_later (k : Nat) (s : State) (c : Word) (h1 : s.run = none) (h2 : s.inputs = [])
    (h3 : nextWith (runs k (s.issue c)) (fun _ => true) = true) (h4 : (later k (s.issue c)).run = none) :
    Ends s c (later k (s.issue c)) :=
  ⟨h1, h2, h4, k, leadsTo_later k _ h3⟩

/-- The invariant, computed. -/
def invB (s : State) : Bool :=
  statusOk s && memoryOk s && (match s.run with | some r => runOk s.regs r | none => true)

theorem inv_of_invB {s : State} (h : invB s = true) : Inv s := by
  unfold invB at h
  simp only [Bool.and_eq_true] at h
  refine ⟨h.1.1, h.1.2, fun r hr => ?_⟩
  have h2 := h.2
  rw [hr] at h2
  exact h2

/-- The 45 bytes of R155. -/
def header : List Byte :=
  [0x23, 0x3F, 0x52, 0x41, 0x44, 0x49, 0x41, 0x4E, 0x43, 0x45, 0x0A,
    0x46, 0x4F, 0x52, 0x4D, 0x41, 0x54, 0x3D, 0x33, 0x32, 0x2D, 0x62, 0x69, 0x74, 0x5F, 0x72, 0x6C, 0x65, 0x5F,
    0x72, 0x67, 0x62, 0x65, 0x0A, 0x0A, 0x2D, 0x59, 0x20, 0x31, 0x20, 0x2B, 0x58, 0x20, 0x32, 0x0A]

/-- Source bytes at 0, a destination of `dstLen` bytes at 256. -/
def idle (source : List Byte) (dstLen : Nat) : State :=
  { State.reset with
    regs := { State.reset.regs with srcLen := BitVec.ofNat 32 source.length, dstAddr := 256, dstLen := BitVec.ofNat 32 dstLen }
    mem := emptyMemory.writeBytes 0 source }

/-- The stream of R300. -/
def image : State := idle (header ++ [0x0A, 0x14, 0x1E, 0x81, 0x01, 0x01, 0x01, 0x03]) 8

/-- Its scanline alone, for `SCAN`. -/
def oldLine : State :=
  let s := idle [0x0A, 0x14, 0x1E, 0x81, 0x01, 0x01, 0x01, 0x03] 8
  { s with regs := { s.regs with width := 2 } }

/-- The new-style scanline of R191. -/
def newLine : State :=
  let s := idle [2, 2, 0, 4, 132, 99, 132, 99, 132, 99, 132, 99] 16
  { s with regs := { s.regs with width := 4 } }

/-- A running `SCAN` of width 4 with a position in its scanline. -/
def inLine (lp : LinePos) : State :=
  let s := newLine.issue 2
  { s with run := some { phase := .line none lp, staged := Staged.ofRegs s.regs, disturbed := false } }

/-- The gamma and exposure registers set. -/
def withParams (s : State) (exposure gamma : Word) : State :=
  { s with regs := { s.regs with exposure := exposure, gamma := gamma } }

/-! ### Single steps -/

theorem test_exec_hdrp : nextWith (exec .hdrp (image.issue 1))
    (fun t => nextWith (step t) (fun u => u.run = none && u.regs.status = 0b010 && u.regs.height = 1 && u.regs.width = 2 &&
      u.regs.dataOff = 45 && u.regs.pos = 45)) = true := by decide +kernel
/-- R31: whatever `POS` holds at issue, the cursor is at the header token's offset, 0, while it is due. -/
theorem test_header_cursor : [exec .hdrp, exec .dhdr].all (fun f =>
    nextWith (f (State.issue { image with regs := { image.regs with pos := 54 } } 3))
      (fun t => t.regs.pos = 54 && t.run.any (fun r => r.staged.pos = 0))) = true := by decide +kernel
theorem test_exec_hdrp_region : nextWith (exec .hdrp
    (State.issue { image with regs := { image.regs with srcAddr := 0xFFFFFFFF } } 1))
    (fun t => t.regs.status = 0b110 && t.regs.errcode = 6) = true := by decide +kernel
theorem test_exec_scan : nextWith (exec .scan (oldLine.issue 2)) (fun t => t.regs.status = 0b001 && t.run.isSome) = true := by
  decide +kernel
theorem test_exec_scan_width : nextWith (exec .scan (image.issue 2)) (fun t => t.regs.errcode = 6) = true := by decide +kernel
theorem test_exec_dhdr : nextWith (exec .dhdr (image.issue 3)) (fun t => t.regs.status = 0b001 && t.run.isSome) = true := by
  decide +kernel
/-- R213 -/
theorem test_exec_rgbe2f : nextWith (exec .rgbe2f ((idle [200, 100, 50, 130] 12).issue 4))
    (fun t => t.regs.count = 1 && t.regs.status = 0b010 &&
      t.mem.readBytes 256 12 = [0x00, 0x00, 0x48, 0x40, 0x00, 0x00, 0xC8, 0x3F, 0x00, 0x00, 0x48, 0x3F]) = true := by decide +kernel
/-- R212 (a), (c) -/
theorem test_exec_rgbe2f_corners : nextWith (exec .rgbe2f ((idle [1, 0, 0, 0, 255, 0, 0, 255] 24).issue 4))
    (fun t => t.regs.count = 2 && t.mem.readWord 256 = 0x00002000 && t.mem.readWord 268 = 0x7EFF0000) = true := by decide +kernel
/-- R228 -/
theorem test_exec_f2rgbe : nextWith
    (exec .f2rgbe ((idle [0x00, 0x00, 0x48, 0x40, 0x00, 0x00, 0xC8, 0x3F, 0x00, 0x00, 0x48, 0x3F] 4).issue 5))
    (fun t => t.mem.readBytes 256 4 = [0xC8, 0x64, 0x32, 0x82]) = true := by decide +kernel
/-- R224, R227 (a), R222 -/
theorem test_f2rgbe_corners : floatToRgbe ⟨0x3F800000, 0x3F000000, 0x3E800000⟩ = ⟨255, 128, 64, 128⟩ ∧
    floatToRgbe ⟨0x7FC00000, 0x3F800000, 0⟩ = ⟨0, 255, 0, 128⟩ ∧ floatToRgbe ⟨0x3F000000, 0, 0⟩ = ⟨128, 0, 0, 128⟩ := by
  decide +kernel
/-- R236 -/
theorem test_exec_f2rgb9e5 : nextWith
    (exec .f2rgb9e5 ((idle [0x00, 0x00, 0x80, 0x3F, 0x00, 0x00, 0x00, 0x3F, 0x00, 0x00, 0x80, 0x3E] 4).issue 6))
    (fun t => t.mem.readBytes 256 4 = [0x10, 0x08, 0x20, 0x80]) = true := by decide +kernel
/-- R235 (b), (c), (g) -/
theorem test_f2rgb9e5_corners : floatToRgb9e5 ⟨0x47000000, 0x47000000, 0x47000000⟩ = 0x8040201F ∧
    r9 (floatToRgb9e5 ⟨0x3F7FF972, 0, 0⟩) = 256 ∧ floatToRgb9e5 ⟨0xBF800000, 0x3F800000, 0x40000000⟩ = 0x00202011 := by
  decide +kernel
/-- R243 -/
theorem test_exec_rgb9e52f : nextWith (exec .rgb9e52f ((idle [0x10, 0x08, 0x20, 0x80] 12).issue 7))
    (fun t => t.mem.floatAt 256 = ⟨0x3F800000, 0x3F000000, 0x3E800000⟩) = true := by decide +kernel
/-- R242 (c) -/
theorem test_rgb9e52f_largest : rgb9e5ToFloat 0xFFFFFFFF = ⟨0x477F8000, 0x477F8000, 0x477F8000⟩ := by decide +kernel
/-- R267, reset parameters -/
theorem test_exec_rgbe2ldr : nextWith (exec .rgbe2ldr ((idle [128, 64, 32, 128] 4).issue 8))
    (fun t => t.mem.readBytes 256 4 = [186, 136, 99, 255]) = true := by decide +kernel
/-- R267, exposure 2.0 and gamma 1.0 -/
theorem test_exec_rgbe2ldr_linear : nextWith
    (exec .rgbe2ldr ((withParams (idle [128, 64, 32, 128] 4) 0x40000000 0x3F800000).issue 8))
    (fun t => t.mem.readBytes 256 4 = [255, 128, 64, 255]) = true := by decide +kernel
/-- R272, reset parameters -/
theorem test_exec_f2ldr : nextWith
    (exec .f2ldr ((idle [0x00, 0x00, 0x00, 0x3F, 0x00, 0x00, 0x80, 0x3E, 0x00, 0x00, 0x80, 0x3F] 4).issue 9))
    (fun t => t.mem.readBytes 256 4 = [186, 136, 255, 255]) = true := by decide +kernel
/-- R261 -/
theorem test_exec_f2ldr_gamma : nextWith (exec .f2ldr ((withParams (idle [] 0) 0x3F800000 0).issue 9))
    (fun t => t.regs.errcode = 6) = true := by decide +kernel
/-- R155 -/
theorem test_exec_hdr : nextWith (exec (.hdr header) (later 1 (image.issue 3)))
    (fun t => t.run.any (fun r => r.phase = .line (some 1) .start && r.staged.pos = 45 && r.staged.width = 2)) = true := by
  decide +kernel
/-- R174 -/
theorem test_exec_nsSig : nextWith (exec (.nsSig 4) (inLine .start))
    (fun t => t.run.any (fun r => r.phase = .line none (.plane .r Planes.empty) && r.staged.pos = 4)) = true := by decide +kernel
theorem test_exec_nsSig_mismatch : nextWith (exec (.nsSig 5) (inLine .start))
    (fun t => t.regs.errcode = 3 && t.regs.pos = 0 && t.run = none) = true := by decide +kernel
/-- R177: a run is clipped to its plane -/
theorem test_exec_nsRun : nextWith (exec (.nsRun 127 9) (inLine (.plane .r ⟨[1], [], [], []⟩)))
    (fun t => t.run.any (fun r => r.phase = .line none (.plane .g ⟨[1, 9, 9, 9], [], [], []⟩) && r.staged.pos = 2)) = true := by
  decide +kernel
/-- R181: the fourth plane's end emits the scanline -/
theorem test_exec_nsRun_last : nextWith
    (exec (.nsRun 4 9) (inLine (.plane .e ⟨[1, 2, 3, 4], [5, 6, 7, 8], [9, 10, 11, 12], []⟩)))
    (fun t => t.run = none && t.regs.status = 0b010 && t.regs.ipos = 16 && t.regs.prev = 0x090C0804 &&
      t.mem.readBytes 256 8 = [1, 5, 9, 9, 2, 6, 10, 9]) = true := by decide +kernel
/-- R178: a literal is consumed whole -/
theorem test_exec_nsLit : nextWith (exec (.nsLit [1, 2, 3, 4, 5, 6]) (inLine (.plane .b ⟨[0, 0, 0, 0], [0, 0, 0, 0], [7], []⟩)))
    (fun t => t.run.any (fun r =>
      r.phase = .line none (.plane .e ⟨[0, 0, 0, 0], [0, 0, 0, 0], [7, 1, 2, 3], []⟩) && r.staged.pos = 7)) = true := by
  decide +kernel
/-- R179 -/
theorem test_exec_nsNop0 : nextWith (exec .nsNop0 (inLine (.plane .r ⟨[1], [], [], []⟩)))
    (fun t => t.run.any (fun r => r.phase = .line none (.plane .r ⟨[1], [], [], []⟩) && r.staged.pos = 1)) = true := by decide +kernel
/-- R185 -/
theorem test_exec_osPix : nextWith (exec (.osPix 10 20 30 129) (inLine (.old 1 16)))
    (fun t => t.mem.readBytes 256 4 = [10, 20, 30, 129] &&
      t.run.any (fun r => r.phase = .line none (.old 2 0) && r.staged.prev = 0x811E140A && r.staged.ipos = 4)) = true := by
  decide +kernel
/-- R191: the second group of the old-style scenario -/
theorem test_exec_osMark : nextWith (exec (.osMark 3) (later 2 (oldLine.issue 2)))
    (fun t => t.run = none && t.regs.pos = 8 && t.regs.ipos = 8 && t.regs.row = 1 && t.regs.prev = 0x811E140A &&
      t.mem.readBytes 256 8 = [10, 20, 30, 129, 10, 20, 30, 129]) = true := by decide +kernel
/-- R186: a marker of 0 -/
theorem test_exec_osMark_zero : nextWith (exec (.osMark 0) (inLine (.old 1 240)))
    (fun t => t.run.any (fun r => r.phase = .line none (.old 1 248) && r.staged.ipos = 0)) = true := by decide +kernel
/-- The very next step after `withFetchWord` runs the instruction. -/
theorem test_withFetchWord :
    nextWith (step (State.reset.withFetchWord 32 4)) (fun t => t.run = none && t.regs.status = 0b010) = true ∧
    nextWith (step (State.reset.withFetchWord 32 0x02020001))
      (fun t => t.run.any (fun r => r.phase = .line none (.plane .r Planes.empty))) = true ∧
    nextWith (step (State.reset.withFetchWord 16 0x8163)) (fun t => t.run.any (fun r => r.phase = .line none (.plane .g ⟨[99], [], [], []⟩))) =
      true ∧
    nextWith (step (State.reset.withFetchWord 16 0x0A0A)) (fun t => t.run = none && t.regs.errcode = 1) = true := by decide +kernel

/-! ### States and operands that meet the hypotheses of the obligations -/

theorem witness_DecodeEncode :
    (∀ x ∈ [(Instr.hdr [0x0A, 0x0A, 0x41, 0x0A], Place.header .s0), (.nsSig 32767, .lineStart), (.osPix 2 2 128 0, .lineStart),
        (.osPix 2 2 0 0, .oldStyle), (.osMark 255, .lineStart), (.nsRun 1 0, .plane), (.nsRun 127 0, .plane), (.nsLit [0], .plane),
        (.nsLit (List.replicate 128 0), .plane), (.nsNop0, .plane), (.f2ldr, .command)],
      WellFormed x.1 = true ∧ recognisedAt x.2 x.1 = true) := by decide +kernel
theorem witness_DecodedIsEncoded :
    (∀ hs, Place.plane ≠ .header hs) ∧ decode .plane (.bytes [129, 7, 7]) = .ok (.nsRun 1 7) ∧
    (∀ hs, Place.command ≠ .header hs) ∧ decode .command (.word 9) = .ok .f2ldr := by
  refine ⟨fun _ h => ?_, by decide, fun _ h => ?_, by decide⟩ <;> cases h
/-- At the header place: a region with a terminator and bytes after it, and one without (R142, R143). -/
theorem test_decode_header_place :
    decode (.header .s0) (.bytes [0x0A, 0x0A, 0x41, 0x0A, 0x42]) = .ok (.hdr [0x0A, 0x0A, 0x41, 0x0A]) ∧
    decode (.header .s0) (.bytes [0x0A, 0x0A, 0x41]) = .ok (.hdr [0x0A, 0x0A, 0x41]) ∧
    decode (.header .s0) (.bytes []) = .ok (.hdr []) := by decide
theorem witness_ResetMove :
    State.inputs { image.issue 3 with inputs := [.reset] } = .reset :: [] ∧
    ¬ InDestination (image.issue 3).regs 255 ∧ ¬ InDestination (image.issue 3).regs 264 ∧
    InDestination (image.issue 3).regs 256 ∧ image.run = none := by unfold InDestination; decide +kernel
theorem witness_HostIdleAccess : image.run = none ∧ (∀ i ∈ [0, 5, 7, 16, 17], i ≠ 6) ∧
    State.inputs { image with inputs := [.write 16 7] } = .write 16 7 :: [] ∧
    State.inputs { image with inputs := [.read 17] } = .read 17 :: [] := by decide +kernel
theorem witness_HostBusyAccess : statusOk (image.issue 3) = true ∧ (image.issue 3).run ≠ none ∧
    State.inputs { image.issue 3 with inputs := [.write 6 1] } = .write 6 1 :: [] ∧
    State.inputs { image.issue 3 with inputs := [.read 7] } = .read 7 :: [] := by decide +kernel
theorem witness_IssueCommand : image.run = none ∧ State.inputs { image with inputs := [.write 6 9] } = .write 6 9 :: [] ∧
    State.inputs { image with inputs := [.write 6 9, .read 7] } = .write 6 9 :: [.read 7] ∧
    decodeCommand 9 = .ok .f2ldr := by decide +kernel
theorem witness_OnlyHostStarts : image.run = none ∧ image.inputs = [] ∧
    ∃ t, step { image with inputs := [.write 6 1] } = .next t ∧ t.run ≠ none :=
  ⟨rfl, rfl, State.issue { image with inputs := [] } 1, rfl, by decide +kernel⟩
/-- Idle at the top of memory; busy just outside the regions (bytes 0 to 52 and 256 to 263), and a load from the source region. -/
theorem witness_HostMemoryAccess : 2 ^ 32 - 1 < 2 ^ 32 ∧ image.run = none ∧
    State.inputs { image with inputs := [.store (2 ^ 32 - 1) 7, .load (2 ^ 32 - 1)] } =
      .store (2 ^ 32 - 1) 7 :: .load (2 ^ 32 - 1) :: [] ∧
    (image.issue 3).run ≠ none ∧
    (∀ a ∈ [53, 255, 264], ¬ InSource (image.issue 3).regs a ∧ ¬ InDestination (image.issue 3).regs a) ∧
    InSource (image.issue 3).regs 52 ∧ ¬ InDestination (image.issue 3).regs 52 := by
  unfold InSource InDestination; decide +kernel
theorem witness_StepRunsDecoded :
    (image.issue 3).run = some ⟨.issued, Staged.ofRegs image.regs, false⟩ ∧
    decode .command (fetchCode ⟨.issued, Staged.ofRegs image.regs, false⟩ (image.issue 3)) = .ok .dhdr ∧
    (let r : Run := ⟨.line none .start, Staged.ofRegs newLine.regs, false⟩
     (inLine .start).run = some r ∧ (inLine .start).regs.srcAddr.toNat + (inLine .start).regs.srcLen.toNat ≤ 2 ^ 32 ∧
     decode r.phase.place (fetchCode r (inLine .start)) = .ok (.nsSig 4)) := by decide +kernel
theorem witness_IllegalCommand : image.run = none ∧ State.inputs { image with inputs := [.write 6 0] } = [.write 6 0] ∧
    (∀ c ∈ [(0 : Word), 10, 15, 16, 17], c.toNat / 16 ≠ 0 ∨ c.toNat % 16 = 0 ∨ 10 ≤ c.toNat % 16) := by
  refine ⟨rfl, rfl, ?_⟩
  simp only [List.mem_cons, List.not_mem_nil, or_false, forall_eq_or_imp, forall_eq]
  decide
/-- Regions that touch, an empty one inside the other, and one that ends at `2^32` pass. -/
theorem test_regions_pass :
    [(0, 8, 8, 4), (8, 4, 0, 8), (0, 8, 4, 0), (4, 0, 0, 8), (0xFFFFFFFC, 4, 0, 8), (0, 8, 0xFFFFFFFF, 1)].all (fun x =>
      Regs.regionsOk { Regs.reset with
        srcAddr := BitVec.ofNat 32 x.1
        srcLen := BitVec.ofNat 32 x.2.1
        dstAddr := BitVec.ofNat 32 x.2.2.1
        dstLen := BitVec.ofNat 32 x.2.2.2 }) = true := by decide +kernel
/-- Each clause at its boundary: one byte too long at either region, an overlap of one byte. -/
theorem witness_RegionChecks :
    Issued (State.issue { image with regs := { image.regs with srcAddr := 0xFFFFFFFF, srcLen := 2 } } 1) ∧
    2 ^ 32 < (0xFFFFFFFF : Word).toNat + (2 : Word).toNat ∧
    Issued (State.issue { image with regs := { image.regs with dstAddr := 0xFFFFFFFF, dstLen := 2 } } 2) ∧
    (let s := State.issue { image with regs := { image.regs with dstAddr := 52, dstLen := 1 } } 9
     Issued s ∧ s.regs.srcLen ≠ 0 ∧ s.regs.dstLen ≠ 0 ∧ s.regs.dstAddr.toNat < s.regs.srcAddr.toNat + s.regs.srcLen.toNat ∧
       s.regs.srcAddr.toNat < s.regs.dstAddr.toNat + s.regs.dstLen.toNat) := by
  refine ⟨⟨rfl, rfl⟩, by decide, ⟨rfl, rfl⟩, ⟨rfl, rfl⟩, ?_⟩
  decide +kernel
/-- A state for each outcome: region, width 0 and 65536, `POS` past the end, destination one byte short, all passed. -/
theorem witness_ScanIssueChecks :
    let s := fun (w p i d : Nat) => State.issue
      { oldLine with regs := { oldLine.regs with width := BitVec.ofNat 32 w, pos := BitVec.ofNat 32 p, ipos := BitVec.ofNat 32 i, dstLen := BitVec.ofNat 32 d } } 2
    (∀ w p i d, Issued (s w p i d)) ∧
    [(2, 0, 0, 0xFFFFFFFF), (0, 0, 0, 8), (65536, 0, 0, 8), (2, 9, 0, 8), (2, 8, 0, 7), (2, 8, 0, 8)].map
      (fun x => scanFailure (s x.1 x.2.1 x.2.2.1 x.2.2.2).regs) =
      [some .badOperand, some .badOperand, some .badOperand, some .badOperand, some .outputTooSmall, none] := by
  refine ⟨fun _ _ _ _ => ⟨rfl, rfl⟩, ?_⟩
  decide +kernel
/-- Regions that touch (53 source bytes, destination from 53 on), and an overlap of one byte. -/
theorem witness_DhdrIssueChecks :
    let s := fun d : Word => State.issue { image with regs := { image.regs with dstAddr := d } } 3
    (∀ d, Issued (s d)) ∧
    ((s 53).regs.srcAddr.toNat + (s 53).regs.srcLen.toNat ≤ (s 53).regs.dstAddr.toNat ∧
      (s 53).regs.dstAddr.toNat + (s 53).regs.dstLen.toNat ≤ 2 ^ 32) ∧
    ¬ ((s 52).regs.srcLen = 0 ∨ (s 52).regs.dstLen = 0 ∨
      (s 52).regs.srcAddr.toNat + (s 52).regs.srcLen.toNat ≤ (s 52).regs.dstAddr.toNat ∨
      (s 52).regs.dstAddr.toNat + (s 52).regs.dstLen.toNat ≤ (s 52).regs.srcAddr.toNat) := by
  refine ⟨fun _ => ⟨rfl, rfl⟩, ?_⟩
  decide +kernel
/-- Each check of a conversion failing alone. -/
theorem witness_ConversionChecks :
    Issued ((idle [1, 2, 3] 12).issue 4) ∧ (idle [1, 2, 3] 12).regs.srcLen.toNat % 4 ≠ 0 ∧
    Issued ((idle [1, 2, 3, 4] 13).issue 4) ∧ (idle [1, 2, 3, 4] 13).regs.dstLen.toNat ≠ 4 / 4 * 12 ∧
    conversionShape .rgbe2f = some (4, 12, false) ∧ conversionShape .f2ldr = some (12, 4, true) ∧
    Issued ((withParams (idle [] 0) 0x7F800000 0x3F800000).issue 9) ∧ (0x7F800000 : Word).toNat / 2 ^ 23 % 2 ^ 8 = 255 ∧
    Issued ((withParams (idle [] 0) 0x3F800000 0x80000000).issue 9) ∧ (0x80000000 : Word).toNat % 2 ^ 31 = 0 ∧
    Issued ((withParams (idle [] 0) 0x3F800000 0x80000001).issue 9) ∧ 2 ^ 31 ≤ (0x80000001 : Word).toNat := by
  refine ⟨⟨rfl, rfl⟩, by decide +kernel, ⟨rfl, rfl⟩, by decide +kernel, rfl, rfl, ⟨rfl, rfl⟩, by decide, ⟨rfl, rfl⟩, by decide,
    ⟨rfl, rfl⟩, by decide⟩
/-- The smallest and the largest gamma, a negative exposure, and the first gamma beyond each end (R261). -/
theorem test_tone_params :
    toneParamsOk 0xFF7FFFFF 1 = true ∧ toneParamsOk 0x80000000 0x7F7FFFFF = true ∧ toneParamsOk 0 0 = false ∧
    toneParamsOk 0 0x7F800000 = false ∧ toneParamsOk 0 0x80000001 = false ∧ toneParamsOk 0xFF800000 1 = false := by decide +kernel
/-- A header text for each of the kinds 1, 2 and 1, a wrong signature, and streams that end one byte early. -/
theorem witness_FailureCodes :
    (later 1 (image.issue 1)).run = some ⟨.header false .s0, Staged.ofRegs image.regs, false⟩ ∧
    headerTerminated [0x0A, 0x0A, 0x41] = false ∧
    (headerTerminated [0x0A, 0x0A, 0x41, 0x0A] = true ∧ formatValue [0x0A, 0x0A, 0x41, 0x0A] = none) ∧
    (let text := header.take 36 ++ [0x0A]
     headerTerminated text = true ∧ formatValue text = some formatSupported ∧ headerDims text = none) ∧
    (inLine .start).run = some ⟨.line none .start, Staged.ofRegs newLine.regs, false⟩ ∧
    (5 : BitVec 15).toNat ≠ (Staged.ofRegs newLine.regs).width.toNat ∧
    (let s := fun (lp : LinePos) (n : Word) => ({ inLine lp with regs := { (inLine lp).regs with srcLen := n } } : State)
     (s .start 3).regs.srcLen.toNat < (Staged.ofRegs newLine.regs).pos.toNat + 4 ∧
     (s (.old 1 8) 3).regs.srcLen.toNat < (Staged.ofRegs newLine.regs).pos.toNat + 4 ∧
     (s (.plane .r Planes.empty) 0).regs.srcLen.toNat < (Staged.ofRegs newLine.regs).pos.toNat + 1 ∧
     (s (.plane .r Planes.empty) 0).run = some ⟨.line none (.plane .r Planes.empty), Staged.ofRegs newLine.regs, false⟩ ∧
     (s .start 3).inputs = [] ∧ (s .start 3).regs.srcAddr.toNat + (s .start 3).regs.srcLen.toNat ≤ 2 ^ 32) := by decide +kernel
theorem witness_HeaderLines : header.getLast? = some 0x0A := by decide
/-- Four words with each kind of whitespace, and five words. -/
theorem witness_ResolutionLineWords :
    (let four : List (List Byte × List Byte) := [([0x2D, 0x59], [0x20]), ([0x37], [0x09, 0x0B]), ([0x2B], [0x0C]), ([0x30, 0x38], [0x0D])]
     ∀ words ∈ [four, four ++ [([0x41], [])]],
       (∀ x ∈ words, x.1 ≠ [] ∧ (∀ b ∈ x.1, b ∉ [(0x20 : Byte), 0x09, 0x0B, 0x0C, 0x0D] ∧ b ≠ 0x0A) ∧
         ∀ b ∈ x.2, b ∈ [(0x20 : Byte), 0x09, 0x0B, 0x0C, 0x0D]) ∧
       ∀ x ∈ words.dropLast, x.2 ≠ []) := by decide
/-- R148: none, three and five words are no resolution line. -/
theorem test_word_counts :
    [([0x20, 0x09] : List Byte), [0x2D, 0x20, 0x37, 0x20, 0x2B], [0x2D, 0x20, 0x37, 0x20, 0x2B, 0x20, 0x38, 0x20, 0x39]].map
      (fun line => headerDims ([0x0A] ++ line ++ [0x0A])) = [none, none, none] ∧
    headerDims [0x0A, 0x2D, 0x20, 0x37, 0x20, 0x2B, 0x20, 0x38, 0x0A] = some (7, 8) := by decide
theorem witness_HdrpCompletes : Issued (image.issue 1) ∧
    (image.issue 1).regs.srcAddr.toNat + (image.issue 1).regs.srcLen.toNat ≤ 2 ^ 32 := ⟨⟨rfl, rfl⟩, by decide +kernel⟩
/-- The three clauses: `HDRP`, `DHDR` with a destination that just fits, `DHDR` one byte short. -/
theorem witness_HdrToken :
    headerTerminated header = true ∧ formatValue header = some formatSupported ∧ headerDims header = some (1, 2) ∧
    (later 1 (image.issue 1)).run = some ⟨.header false .s0, Staged.ofRegs image.regs, false⟩ ∧
    (later 1 (image.issue 3)).run = some ⟨.header true .s0, Staged.ofRegs image.regs, false⟩ ∧
    4 * 2 * 1 ≤ (later 1 (image.issue 3)).regs.dstLen.toNat ∧
    (let s : State := { image with regs := { image.regs with dstLen := 7 } }
     (later 1 (s.issue 3)).run = some ⟨.header true .s0, Staged.ofRegs s.regs, false⟩ ∧
     (later 1 (s.issue 3)).regs.dstLen.toNat < 4 * 2 * 1) := by decide +kernel
theorem witness_NsSigToken :
    (inLine .start).run = some ⟨.line none .start, Staged.ofRegs newLine.regs, false⟩ ∧
    (4 : BitVec 15).toNat = (Staged.ofRegs newLine.regs).width.toNat ∧
    (5 : BitVec 15).toNat ≠ (Staged.ofRegs newLine.regs).width.toNat := by decide +kernel
/-- The plane goes on, the plane is just full, the fourth plane is just full; width 4. -/
theorem witness_PlaneTokens :
    planeBytes (.nsRun 2 9) = some (2, [9, 9]) ∧ planeBytes (.nsLit [9]) = some (2, [9]) ∧ planeBytes .nsNop0 = some (1, []) ∧
    (inLine (.plane .r ⟨[1], [], [], []⟩)).run = some ⟨.line none (.plane .r ⟨[1], [], [], []⟩), Staged.ofRegs newLine.regs, false⟩ ∧
    1 + 2 < (Staged.ofRegs newLine.regs).width.toNat ∧
    (inLine (.plane .r ⟨[1, 2], [], [], []⟩)).run =
      some ⟨.line none (.plane .r ⟨[1, 2], [], [], []⟩), Staged.ofRegs newLine.regs, false⟩ ∧
    (Staged.ofRegs newLine.regs).width.toNat ≤ 2 + 2 ∧ Chan.next .r = some .g ∧
    (inLine (.plane .e ⟨[1, 2, 3, 4], [1, 2, 3, 4], [1, 2, 3, 4], [1, 2]⟩)).run =
      some ⟨.line none (.plane .e ⟨[1, 2, 3, 4], [1, 2, 3, 4], [1, 2, 3, 4], [1, 2]⟩), Staged.ofRegs newLine.regs, false⟩ ∧
    planesOk 4 .e ⟨[1, 2, 3, 4], [1, 2, 3, 4], [1, 2, 3, 4], [1, 2]⟩ = true ∧
    newLine.regs.dstAddr.toNat + (Staged.ofRegs newLine.regs).ipos.toNat + 4 * 4 ≤ 2 ^ 32 := by decide +kernel
/-- One pixel before the last and the last, with a destination at the top of memory. -/
theorem witness_OsPixToken :
    let s := fun lp => ({ inLine lp with regs := { (inLine lp).regs with dstAddr := 0xFFFFFFFC } } : State)
    (s (.old 2 8)).run = some ⟨.line none (.old 2 8), Staged.ofRegs newLine.regs, false⟩ ∧
    (s (.old 2 8)).regs.dstAddr.toNat + (Staged.ofRegs newLine.regs).ipos.toNat + 4 = 2 ^ 32 ∧
    2 + 1 < (Staged.ofRegs newLine.regs).width.toNat ∧ (Staged.ofRegs newLine.regs).width.toNat ≤ 3 + 1 := by decide +kernel
/-- A marker that leaves one pixel of the scanline, and one that asks for more than there is. -/
theorem witness_OsMarkToken :
    (inLine (.old 1 0)).run = some ⟨.line none (.old 1 0), Staged.ofRegs newLine.regs, false⟩ ∧
    (inLine (.old 1 0)).regs.dstAddr.toNat + (Staged.ofRegs newLine.regs).ipos.toNat + 4 * min (2 * 2 ^ 0) (4 - 1) ≤ 2 ^ 32 ∧
    1 + min (2 * 2 ^ 0) (4 - 1) < (Staged.ofRegs newLine.regs).width.toNat ∧
    (Staged.ofRegs newLine.regs).width.toNat ≤ 1 + min (255 * 2 ^ 0) (4 - 1) := by decide +kernel
theorem witness_ScanlineTokenFrame :
    (inLine (.old 1 0)).run = some ⟨.line none (.old 1 0), Staged.ofRegs newLine.regs, false⟩ ∧
    linePosOk (Staged.ofRegs newLine.regs).width.toNat (.old 1 0) = true ∧
    recognisedAt (Phase.line none (.old 1 0)).place (.osMark 255) = true ∧
    (∀ width16, Instr.osMark 255 = .nsSig width16 → width16.toNat = (Staged.ofRegs newLine.regs).width.toNat) ∧
    ∃ t, exec (.osMark 255) (inLine (.old 1 0)) = .next t :=
  ⟨rfl, by decide +kernel, by decide, (fun _ h => by cases h), ⟨_, rfl⟩⟩
theorem witness_ScanCompletes : Issued (oldLine.issue 2) ∧ (oldLine.issue 2).regs.cmd = 2 ∧ (oldLine.issue 2).regs.regionsOk = true ∧
    1 ≤ (oldLine.issue 2).regs.width.toNat ∧ (oldLine.issue 2).regs.width.toNat ≤ 65535 ∧
    (oldLine.issue 2).regs.pos.toNat ≤ (oldLine.issue 2).regs.srcLen.toNat ∧
    (oldLine.issue 2).regs.ipos.toNat + 4 * (oldLine.issue 2).regs.width.toNat = (oldLine.issue 2).regs.dstLen.toNat :=
  ⟨⟨rfl, rfl⟩, rfl, by decide +kernel⟩
theorem witness_ScanAdvances : Ends oldLine 2 (later 4 (oldLine.issue 2)) ∧ (later 4 (oldLine.issue 2)).regs.errcode = 0 :=
  ⟨ends_later 4 _ _ rfl rfl (by decide +kernel) (by decide +kernel), by decide +kernel⟩
theorem witness_DhdrCompletes : Issued (image.issue 3) ∧ (image.issue 3).regs.cmd = 3 ∧ (image.issue 3).regs.regionsOk = true :=
  ⟨⟨rfl, rfl⟩, rfl, by decide +kernel⟩
theorem witness_DhdrCommits : Ends image 3 (later 5 (image.issue 3)) ∧ (later 5 (image.issue 3)).regs.errcode = 0 :=
  ⟨ends_later 5 _ _ rfl rfl (by decide +kernel) (by decide +kernel), by decide +kernel⟩
/-- Both directions: the whole image by `DHDR`, and `HDRP` with one `SCAN`. -/
theorem witness_DhdrIsHdrpThenScans :
    (Ends image 3 (later 5 (image.issue 3)) ∧ (later 5 (image.issue 3)).regs.errcode = 0) ∧
    (let u := later 2 (image.issue 1)
     Ends image 1 u ∧ u.regs.errcode = 0 ∧ u.regs.height.toNat = 1 ∧ scansTo 1 u (later 4 (u.issue 2)) ∧
       image.regs.dstAddr.toNat + image.regs.dstLen.toNat ≤ 2 ^ 32 ∧
       image.regs.srcAddr.toNat + image.regs.srcLen.toNat ≤ image.regs.dstAddr.toNat) :=
  ⟨witness_DhdrCommits, ends_later 2 _ _ rfl rfl (by decide +kernel) (by decide +kernel), by decide +kernel, by decide +kernel,
    ⟨_, ends_later 4 _ _ (by decide +kernel) (by decide +kernel) (by decide +kernel) (by decide +kernel), by decide +kernel, rfl⟩,
    by decide +kernel, by decide +kernel⟩

/-- `ConversionReady` for one pixel and for none. -/
theorem witness_Rgbe2fResult : ConversionReady ((idle [200, 100, 50, 130] 12).issue 4) 4 12 ∧ ConversionReady ((idle [] 0).issue 4) 4 12 :=
  ⟨⟨⟨rfl, rfl⟩, by decide +kernel⟩, ⟨⟨rfl, rfl⟩, by decide +kernel⟩⟩
theorem witness_F2rgbeResult : ConversionReady ((idle (List.replicate 12 0x3F) 4).issue 5) 12 4 ∧
    (∃ r : ℝ, IsUnits (san 0x3F3F3F3F).units r) := ⟨⟨⟨rfl, rfl⟩, by decide +kernel⟩, _, rfl⟩
theorem witness_F2rgb9e5Result : ConversionReady ((idle (List.replicate 24 0x3F) 8).issue 6) 12 4 := ⟨⟨rfl, rfl⟩, by decide +kernel⟩
theorem witness_Rgb9e52fResult : ConversionReady ((idle (List.replicate 8 0x3F) 24).issue 7) 4 12 := ⟨⟨rfl, rfl⟩, by decide +kernel⟩
theorem witness_Rgbe2ldrResult : ConversionReady ((idle [128, 64, 32, 128] 4).issue 8) 4 4 ∧
    toneParamsOk ((idle [128, 64, 32, 128] 4).issue 8).regs.exposure ((idle [128, 64, 32, 128] 4).issue 8).regs.gamma = true :=
  ⟨⟨⟨rfl, rfl⟩, by decide +kernel⟩, by decide +kernel⟩
theorem witness_F2ldrResult : ConversionReady ((idle (List.replicate 12 0x3F) 4).issue 9) 12 4 ∧
    toneParamsOk ((idle (List.replicate 12 0x3F) 4).issue 9).regs.exposure ((idle (List.replicate 12 0x3F) 4).issue 9).regs.gamma = true :=
  ⟨⟨⟨rfl, rfl⟩, by decide +kernel⟩, by decide +kernel⟩
/-- The negative of the largest finite value, the negative of the smallest, and `+Inf`. -/
theorem witness_SanitisedValue : (∃ x : ℝ, IsUnits (f32Units 0xFF7FFFFF) x) ∧ (0xFF7FFFFF : Word).toNat / 2 ^ 23 % 2 ^ 8 ≠ 255 ∧
    f32Units 0x80000001 = -1 ∧ ∃ x : ℝ, IsUnits (san 0x7F800000).units x := ⟨⟨_, rfl⟩, by decide, by decide +kernel, _, rfl⟩
theorem witness_ToneByteIsRoundedPower : toneParamsOk 0xFF7FFFFF 0x00000001 = true ∧ ∃ v : ℝ, IsUnits (Scaled.units ⟨255, 268⟩) v :=
  ⟨by decide +kernel, _, rfl⟩
theorem witness_ToneMonotone : toneParamsOk 0 0x3F800000 = true ∧ toneParamsOk 0x3F800000 0x3F800000 = true ∧
    f32Units 0 ≤ f32Units 0x3F800000 ∧ Scaled.units ⟨1, 0⟩ ≤ Scaled.units ⟨1, 1⟩ := by decide +kernel
theorem witness_GammaOneIsLinear : ∃ x : ℝ, IsUnits (san 0x3F000000).units x := ⟨_, rfl⟩
theorem witness_RgbeToneIsFloatTone : toneParamsOk 0x3F800000 0x400CCCCD = true := by decide +kernel
/-- The largest mantissas 129, 128, 0, 127 and 3 of the clauses. -/
theorem witness_RgbeRoundTrip : 129 ≤ max (129 : Byte).toNat (max (0 : Byte).toNat (0 : Byte).toNat) ∧
    max (128 : Byte).toNat (max (1 : Byte).toNat (2 : Byte).toNat) = 128 ∧
    max (0 : Byte).toNat (max (0 : Byte).toNat (0 : Byte).toNat) = 0 ∧
    127 ≠ 2 ^ Nat.log2 127 ∧ 3 ≠ 2 ^ Nat.log2 3 ∧ (1 : Byte) ≠ 0 ∧ (1 : Byte) ≠ 128 := by decide +kernel

theorem witness_StepKeepsInv : Inv (image.issue 3) ∧ ∃ t, step (image.issue 3) = .next t :=
  ⟨inv_of_invB (by decide +kernel), _, rfl⟩
theorem witness_EngineNeverStops : Inv (inLine (.old 1 0)) := inv_of_invB (by decide +kernel)
theorem witness_EveryCommandEnds : Inv (image.issue 3) ∧ (image.issue 3).inputs = [] ∧ (image.issue 3).run ≠ none :=
  ⟨inv_of_invB (by decide +kernel), rfl, by decide +kernel⟩
theorem witness_OnlyDestinationWritten : Inv (inLine (.old 1 0)) ∧ (∃ t, step (inLine (.old 1 0)) = .next t) ∧
    (∀ x b rest, (inLine (.old 1 0)).inputs ≠ .store x b :: rest) ∧ ¬ InDestination (inLine (.old 1 0)).regs 255 ∧
    ¬ InDestination (inLine (.old 1 0)).regs 272 :=
  ⟨inv_of_invB (by decide +kernel), ⟨_, rfl⟩, (fun _ _ _ h => by cases h), by unfold InDestination; decide +kernel,
    by unfold InDestination; decide +kernel⟩
theorem witness_EngineKeepsRegisters : ∃ t, engineStep (image.issue 3) = .next t ∧ t.run ≠ none :=
  ⟨(image.issue 3).start (.header true .s0) (Staged.atHeader image.regs), rfl, by decide +kernel⟩
/-- `DHDR` on a stream without header, an illegal word. -/
theorem witness_FailureCommitsNothing :
    (Ends oldLine 3 (later 2 (oldLine.issue 3)) ∧ (later 2 (oldLine.issue 3)).regs.errcode ≠ 0) ∧
    (Ends oldLine 0 (later 1 (oldLine.issue 0)) ∧ (later 1 (oldLine.issue 0)).regs.errcode ≠ 0) :=
  ⟨⟨ends_later 2 _ _ rfl rfl (by decide +kernel) (by decide +kernel), by decide +kernel⟩,
    ⟨ends_later 1 _ _ rfl rfl (by decide +kernel) (by decide +kernel), by decide +kernel⟩⟩
theorem witness_SuccessWritesMarked :
    (Ends image 1 (later 2 (image.issue 1)) ∧ (later 2 (image.issue 1)).regs.errcode = 0) ∧
    (Ends (idle [] 0) 4 (later 1 ((idle [] 0).issue 4)) ∧ (later 1 ((idle [] 0).issue 4)).regs.errcode = 0) :=
  ⟨⟨ends_later 2 _ _ rfl rfl (by decide +kernel) (by decide +kernel), by decide +kernel⟩,
    ⟨ends_later 1 _ _ rfl rfl (by decide +kernel) (by decide +kernel), by decide +kernel⟩⟩
/-- A failure of `HDRP`, of `SCAN` (a signature of another width) and of a conversion. -/
theorem witness_FailureKinds :
    (Ends oldLine 1 (later 2 (oldLine.issue 1)) ∧ (later 2 (oldLine.issue 1)).regs.errcode = 1) ∧
    (let s : State := { newLine with regs := { newLine.regs with width := 3 } }
     Ends s 2 (later 2 (s.issue 2)) ∧ (later 2 (s.issue 2)).regs.errcode = 3) ∧
    (Ends (idle [] 1) 4 (later 1 ((idle [] 1).issue 4)) ∧ (later 1 ((idle [] 1).issue 4)).regs.errcode = 6) :=
  ⟨⟨ends_later 2 _ _ rfl rfl (by decide +kernel) (by decide +kernel), by decide +kernel⟩,
    ⟨ends_later 2 _ _ rfl rfl (by decide +kernel) (by decide +kernel), by decide +kernel⟩,
    ⟨ends_later 1 _ _ rfl rfl (by decide +kernel) (by decide +kernel), by decide +kernel⟩⟩
theorem witness_EarlyFailureKeepsMemory :
    Ends oldLine 3 (later 2 (oldLine.issue 3)) ∧ (later 2 (oldLine.issue 3)).regs.errcode ≠ 0 ∧
    (later 2 (oldLine.issue 3)).regs.errcode ≠ 3 ∧ (later 2 (oldLine.issue 3)).regs.errcode ≠ 4 :=
  ⟨ends_later 2 _ _ rfl rfl (by decide +kernel) (by decide +kernel), by decide +kernel⟩
/-- The last byte of either region of a running `DHDR`, and a disturbed command that ends in its next step. -/
theorem witness_DisturbedCommandEnd :
    ((image.issue 3).run = some ⟨.issued, Staged.ofRegs image.regs, false⟩ ∧ InSource (image.issue 3).regs 52 ∧
      InDestination (image.issue 3).regs 263 ∧
      State.inputs { image.issue 3 with inputs := [.store 52 7] } = .store 52 7 :: [] ∧
      State.inputs { image.issue 3 with inputs := [.load 263] } = .load 263 :: []) ∧
    (let s := State.disturb (image.issue 0)
     s.run = some ⟨.issued, Staged.ofRegs image.regs, true⟩ ∧ ∃ t, engineStep s = .next t ∧ t.run = none) := by
  refine ⟨by unfold InSource InDestination; decide +kernel, rfl, _, rfl, ?_⟩
  exact State.raise_run _ _

end Sys2Proof.Tests
end

section
/-!
PROOFS. The real value of a binary32 pattern and of its sanitised form (R11, R13): a `Scaled` number as a real, the magnitude and the sign
of a pattern, one equation of `san` per clause of R13, and O41 assembled from them.
-/

namespace Sys2Proof.Machine

/-! ### Exact numbers as reals -/

/-- `mant * 2^shift` units of `2^-149` are the real `mant * 2^(shift - 149)`. -/
theorem Scaled.units_div (x : Scaled) : (x.units : ℝ) / 2 ^ 149 = (x.mant : ℝ) * (2 : ℝ) ^ ((x.shift : ℤ) - 149) := by
  have hpow : (2 : ℝ) ^ ((x.shift : ℤ) - 149) = 2 ^ x.shift / 2 ^ 149 := by
    rw [zpow_sub₀ two_ne_zero, zpow_natCast]
    rfl
  rw [hpow, Scaled.units]
  push_cast
  rw [mul_div_assoc]

theorem isUnits_natCast_iff (n : ℕ) (x : ℝ) : IsUnits (n : ℤ) x ↔ x = (n : ℝ) / 2 ^ 149 := by
  rw [IsUnits, Int.cast_natCast]

/-! ### Fields of a binary32 pattern -/

theorem f32Sign_eq_true_iff (w : Word) : f32Sign w = true ↔ w.toNat / 2 ^ 31 = 1 := by
  have hlt := w.isLt
  rw [f32Sign, decide_eq_true_iff]
  omega

theorem f32Sign_eq_false_iff (w : Word) : f32Sign w = false ↔ w.toNat / 2 ^ 31 = 0 := by
  rw [f32Sign, decide_eq_false_iff_not]
  omega

theorem f32IsNaN_iff (w : Word) : f32IsNaN w = true ↔ f32Exponent w = 255 ∧ f32Fraction w ≠ 0 := by
  simp [f32IsNaN]

theorem f32IsInf_iff (w : Word) : f32IsInf w = true ↔ f32Exponent w = 255 ∧ f32Fraction w = 0 := by
  simp [f32IsInf]

/-! ### The value of a pattern -/

/-- The two last clauses of R11, without the sign. -/
theorem f32Magnitude_units_div (w : Word) :
    ((f32Magnitude w).units : ℝ) / 2 ^ 149 =
      if f32Exponent w = 0 then (f32Fraction w : ℝ) * (2 : ℝ) ^ (-149 : ℤ)
      else (2 ^ 23 + (f32Fraction w : ℝ)) * (2 : ℝ) ^ ((f32Exponent w : ℤ) - 150) := by
  rw [Scaled.units_div, f32Magnitude]
  split
  case isTrue => simp
  case isFalse hq =>
    have hshift : ((f32Exponent w - 1 : ℕ) : ℤ) - 149 = (f32Exponent w : ℤ) - 150 := by omega
    rw [hshift]
    norm_num

theorem f32Units_eq_sign_mul (w : Word) : f32Units w = (-1) ^ (w.toNat / 2 ^ 31) * ((f32Magnitude w).units : ℤ) := by
  cases hs : f32Sign w with
  | false => rw [(f32Sign_eq_false_iff w).mp hs]; simp [f32Units, hs]
  | true => rw [(f32Sign_eq_true_iff w).mp hs]; simp [f32Units, hs]

/-- The two last clauses of R11, with the sign. -/
theorem f32Units_div (w : Word) :
    (f32Units w : ℝ) / 2 ^ 149 =
      if f32Exponent w = 0 then (-1 : ℝ) ^ (w.toNat / 2 ^ 31) * (f32Fraction w : ℝ) * (2 : ℝ) ^ (-149 : ℤ)
      else (-1 : ℝ) ^ (w.toNat / 2 ^ 31) * (2 ^ 23 + (f32Fraction w : ℝ)) * (2 : ℝ) ^ ((f32Exponent w : ℤ) - 150) := by
  rw [f32Units_eq_sign_mul]
  push_cast
  rw [mul_div_assoc, f32Magnitude_units_div, mul_ite]
  simp only [mul_assoc]

/-! ### The sanitised value, clause by clause (R13) -/

theorem san_of_isNaN {w : Word} (h : f32IsNaN w = true) : san w = ⟨0, 0⟩ := if_pos (.inl h)

theorem san_of_sign {w : Word} (h : f32Sign w = true) : san w = ⟨0, 0⟩ := if_pos (.inr h)

theorem san_of_posInf {w : Word} (hs : f32Sign w = false) (h : f32IsInf w = true) : san w = maxFinite := by
  have hnan : ¬ f32IsNaN w = true := fun hn => ((f32IsNaN_iff w).mp hn).2 ((f32IsInf_iff w).mp h).2
  simp [san, hs, h, hnan]

theorem san_of_finite {w : Word} (hs : f32Sign w = false) (hq : f32Exponent w ≠ 255) : san w = f32Magnitude w := by
  simp [san, hs, f32IsNaN, f32IsInf, hq]

theorem zero_units_div : ((Scaled.units ⟨0, 0⟩ : ℕ) : ℝ) / 2 ^ 149 = 0 := by
  simp [Scaled.units_div]

theorem maxFinite_units_div : (maxFinite.units : ℝ) / 2 ^ 149 = (2 ^ 24 - 1) * 2 ^ 104 := by
  rw [Scaled.units_div, maxFinite]
  norm_num

/-- R13 as an ordered chain: NaN, negative, `+Inf`, then the finite values of R11. -/
theorem san_units_div (w : Word) :
    ((san w).units : ℝ) / 2 ^ 149 =
      if f32Exponent w = 255 ∧ f32Fraction w ≠ 0 then 0
      else if w.toNat / 2 ^ 31 = 1 then 0
      else if f32Exponent w = 255 then (2 ^ 24 - 1) * 2 ^ 104
      else if f32Exponent w = 0 then (f32Fraction w : ℝ) * (2 : ℝ) ^ (-149 : ℤ)
      else (2 ^ 23 + (f32Fraction w : ℝ)) * (2 : ℝ) ^ ((f32Exponent w : ℤ) - 150) := by
  by_cases hnan : f32Exponent w = 255 ∧ f32Fraction w ≠ 0
  · rw [if_pos hnan, san_of_isNaN ((f32IsNaN_iff w).mpr hnan), zero_units_div]
  rw [if_neg hnan]
  cases hs : f32Sign w with
  | true => rw [if_pos ((f32Sign_eq_true_iff w).mp hs), san_of_sign hs, zero_units_div]
  | false =>
    have hpos : ¬ w.toNat / 2 ^ 31 = 1 := by rw [← f32Sign_eq_true_iff, hs]; exact Bool.false_ne_true
    rw [if_neg hpos]
    by_cases hq : f32Exponent w = 255
    · have hinf : f32IsInf w = true := (f32IsInf_iff w).mpr ⟨hq, not_not.mp fun ht => hnan ⟨hq, ht⟩⟩
      rw [if_pos hq, san_of_posInf hs hinf, maxFinite_units_div]
    · rw [if_neg hq, san_of_finite hs hq, f32Magnitude_units_div]

/-- Settles O41: R11 by the sign and the two finite forms of a pattern, R13 by its clauses in order. -/
theorem sanitisedValue : Obligations.SanitisedValue := by
  refine ⟨fun w x hx _ => ?_, fun w x hx => ?_⟩
  · exact hx.trans (f32Units_div w)
  · exact ((isUnits_natCast_iff _ x).mp hx).trans (san_units_div w)

end Sys2Proof.Machine
end

section
/-!
PROOFS. Reset as a move of the host (R44, R350, R351): what a register holds at its reset value, what `State.resetBlock` answers field by
field, and O6 assembled from them.
-/

namespace Sys2Proof.Machine

/-! ### The reset values (R20, R44) -/

/-- `EXPOSURE` and `GAMMA` are the only registers whose reset value is not 0. -/
theorem Regs.get_reset_eq_zero {i : Nat} (h4 : i ≠ 4) (h5 : i ≠ 5) : Regs.reset.get i = 0 := by
  unfold Regs.get
  split
  case h_5 => exact absurd rfl h4
  case h_6 => exact absurd rfl h5
  all_goals rfl

theorem Regs.get_reset (i : Nat) :
    Regs.reset.get i = if i = 4 then 0x3F800000 else if i = 5 then 0x400CCCCD else 0 := by
  by_cases h4 : i = 4
  · subst h4; rfl
  by_cases h5 : i = 5
  · subst h5; rfl
  rw [if_neg h4, if_neg h5, Regs.get_reset_eq_zero h4 h5]

/-! ### The state after a reset (R350, R351) -/

@[simp] theorem State.resetBlock_regs (s : State) : s.resetBlock.regs = Regs.reset := rfl

@[simp] theorem State.resetBlock_run (s : State) : s.resetBlock.run = none := rfl

@[simp] theorem State.resetBlock_inputs (s : State) : s.resetBlock.inputs = s.inputs := by
  cases hr : s.run <;> simp [State.resetBlock, hr]

@[simp] theorem State.resetBlock_busData (s : State) : s.resetBlock.busData = s.busData := by
  cases hr : s.run <;> simp [State.resetBlock, hr]

theorem State.resetBlock_mem_of_idle {s : State} (h : s.run = none) : s.resetBlock.mem = s.mem := by
  simp [State.resetBlock, h]

theorem State.resetBlock_mem_of_running {s : State} {r : Run} (h : s.run = some r) :
    s.resetBlock.mem = s.spoilDestination.mem := by
  simp [State.resetBlock, h]

/-- Reset changes memory only inside the destination region of the command in `CMD`. -/
theorem State.read_resetBlock (s : State) {a : Nat} (h : ¬ InDestination s.regs a) :
    s.resetBlock.mem.read a = s.mem.read a := by
  cases hr : s.run with
  | none => rw [State.resetBlock_mem_of_idle hr]
  | some r =>
    rw [← inDestination_iff, Bool.not_eq_true] at h
    rw [State.resetBlock_mem_of_running hr, State.read_spoilDestination s a h]

theorem step_reset {s : State} {rest : List HostMove} (h : s.inputs = .reset :: rest) :
    step s = .next (State.resetBlock { s with inputs := rest }) :=
  step_host s .reset rest h

/-- Settles O6: the step is `State.resetBlock` of the state without the move, taken field by field. -/
theorem resetMove : Obligations.ResetMove := by
  intro s rest hs
  refine ⟨_, step_reset hs, Regs.get_reset, State.resetBlock_run _, State.resetBlock_inputs _, State.resetBlock_busData _, ?_, ?_⟩
  · intro hidle
    exact State.resetBlock_mem_of_idle (s := { s with inputs := rest }) hidle
  · intro a ha
    exact State.read_resetBlock { s with inputs := rest } ha

end Sys2Proof.Machine
end

section
/-!
PROOFS. The region checks (R68): each check as an inequality of naturals, how a freshly issued command takes its first step and fails, that
every command runs its region checks before anything else, and O14 assembled from them.
-/

namespace Sys2Proof.Machine

/-! ### The checks in the terms of R68 -/

theorem Regs.srcFits_iff (r : Regs) : r.srcFits = true ↔ r.srcAddr.toNat + r.srcLen.toNat ≤ 2 ^ 32 :=
  decide_eq_true_iff

theorem Regs.dstFits_iff (r : Regs) : r.dstFits = true ↔ r.dstAddr.toNat + r.dstLen.toNat ≤ 2 ^ 32 :=
  decide_eq_true_iff

theorem Regs.regionsApart_iff (r : Regs) :
    r.regionsApart = true ↔
      r.srcLen = 0 ∨ r.dstLen = 0 ∨ r.srcAddr.toNat + r.srcLen.toNat ≤ r.dstAddr.toNat ∨
        r.dstAddr.toNat + r.dstLen.toNat ≤ r.srcAddr.toNat := by
  simp only [Regs.regionsApart, Bool.or_eq_true, decide_eq_true_eq, or_assoc]
  rfl

/-- Legal regions: both within memory and, unless one is empty, the one before the other. -/
theorem Regs.regionsOk_iff (r : Regs) :
    r.regionsOk = true ↔
      r.srcAddr.toNat + r.srcLen.toNat ≤ 2 ^ 32 ∧ r.dstAddr.toNat + r.dstLen.toNat ≤ 2 ^ 32 ∧
        (r.srcLen = 0 ∨ r.dstLen = 0 ∨ r.srcAddr.toNat + r.srcLen.toNat ≤ r.dstAddr.toNat ∨
          r.dstAddr.toNat + r.dstLen.toNat ≤ r.srcAddr.toNat) := by
  rw [Regs.regionsOk, Bool.and_eq_true, Bool.and_eq_true, Regs.srcFits_iff, Regs.dstFits_iff, Regs.regionsApart_iff, and_assoc]

theorem Regs.srcFits_eq_false {r : Regs} (h : 2 ^ 32 < r.srcAddr.toNat + r.srcLen.toNat) : r.srcFits = false :=
  Bool.eq_false_iff.mpr fun hfits => Nat.not_lt.mpr ((Regs.srcFits_iff r).mp hfits) h

theorem Regs.dstFits_eq_false {r : Regs} (h : 2 ^ 32 < r.dstAddr.toNat + r.dstLen.toNat) : r.dstFits = false :=
  Bool.eq_false_iff.mpr fun hfits => Nat.not_lt.mpr ((Regs.dstFits_iff r).mp hfits) h

/-- Two regions that are not empty and share a byte. -/
theorem Regs.regionsApart_eq_false {r : Regs} (hsrc : r.srcLen ≠ 0) (hdst : r.dstLen ≠ 0)
    (hlo : r.dstAddr.toNat < r.srcAddr.toNat + r.srcLen.toNat) (hhi : r.srcAddr.toNat < r.dstAddr.toNat + r.dstLen.toNat) :
    r.regionsApart = false := by
  refine Bool.eq_false_iff.mpr fun hapart => ?_
  rcases (Regs.regionsApart_iff r).mp hapart with hempty | hempty | hbefore | hafter
  · exact hsrc hempty
  · exact hdst hempty
  · exact Nat.not_lt.mpr hbefore hlo
  · exact Nat.not_lt.mpr hafter hhi

/-- The checks fail together where one of them fails. -/
theorem Regs.regionsOk_eq_false_iff (r : Regs) :
    r.regionsOk = false ↔ r.srcFits = false ∨ r.dstFits = false ∨ r.regionsApart = false := by
  rw [Regs.regionsOk, Bool.and_eq_false_iff, Bool.and_eq_false_iff, or_assoc]

/-! ### A command that has just been issued -/

theorem Issued.disturbed_eq_false {s : State} (h : Issued s) : s.disturbed = false := by
  simp [State.disturbed, h.1]

theorem Issued.inScanlines_eq_false {s : State} (h : Issued s) : s.inScanlines = false := by
  simp [State.inScanlines, h.1]

/-- A failure at issue changes `STATUS` and `ERRCODE` and nothing else (R320, R322). -/
theorem Issued.raise_eq {s : State} (h : Issued s) (k : FailKind) : s.raise k = failedState s k := by
  rw [State.raise_eq s k h.disturbed_eq_false, h.inScanlines_eq_false]
  rfl

/-- The fetch of a freshly issued command decodes the word in `CMD` (R27, R90). -/
theorem fetch_of_issued {r : Run} (s : State) {i : Instr} (hphase : r.phase = .issued) (hdec : decodeCommand s.regs.cmd = .ok i) :
    fetch r s = .run i := by
  simp [fetch, fetchCode, hphase, Phase.place, decode, hdec]

theorem Issued.step_eq_exec {s : State} (h : Issued s) {i : Instr} (hdec : decodeCommand s.regs.cmd = .ok i) :
    step s = exec i s := by
  obtain ⟨hrun, hinputs⟩ := h
  rw [step_engine s hinputs, engineStep_running s _ hrun, fetch_of_issued s rfl hdec]
  rfl

/-! ### Every command begins with its region checks -/

theorem execHdrp_of_srcFits_eq_false {s : State} (h : s.regs.srcFits = false) : execHdrp s = .next (s.raise .badOperand) := by
  simp [execHdrp, h]

theorem execScan_of_regionsOk_eq_false {s : State} (h : s.regs.regionsOk = false) : execScan s = .next (s.raise .badOperand) := by
  simp [execScan, scanFailure, h]

theorem execDhdr_of_regionsOk_eq_false {s : State} (h : s.regs.regionsOk = false) : execDhdr s = .next (s.raise .badOperand) := by
  simp [execDhdr, h]

/-- The region checks stand first in the frame of the six conversions (R210). -/
theorem convert_of_regionsOk_eq_false {s : State} (h : s.regs.regionsOk = false) (strideIn strideOut : Nat) (ok : Bool)
    (pixel : Memory → Nat → List Byte) : convert strideIn strideOut ok pixel s = .next (s.raise .badOperand) := by
  simp [convert, convertOk, h]

/-- The legal command words (R90): 1 is `HDRP`; each other one is a command with a destination region, which fails where any of the region
checks fails. -/
theorem decodeCommand_cases {w : Word} (hlo : 1 ≤ w.toNat) (hhi : w.toNat ≤ 9) :
    (w = 1 ∧ decodeCommand w = .ok .hdrp) ∨
      ∃ i, decodeCommand w = .ok i ∧
        ∀ s : State, s.regs.regionsOk = false → exec i s = .next (s.raise .badOperand) := by
  unfold decodeCommand
  split
  case h_1 hw => exact .inl ⟨BitVec.eq_of_toNat_eq hw, rfl⟩
  case h_2 => exact .inr ⟨_, rfl, fun _ h => execScan_of_regionsOk_eq_false h⟩
  case h_3 => exact .inr ⟨_, rfl, fun _ h => execDhdr_of_regionsOk_eq_false h⟩
  case h_10 =>
    simp only [imp_false] at *
    omega
  all_goals exact .inr ⟨_, rfl, fun _ h => convert_of_regionsOk_eq_false h ..⟩

/-- `HDRP` has a source region only, and check (a) is its whole region check (R68, R141). -/
theorem Issued.step_of_srcFits_eq_false {s : State} (h : Issued s) (hlo : 1 ≤ s.regs.cmd.toNat) (hhi : s.regs.cmd.toNat ≤ 9)
    (hfits : s.regs.srcFits = false) : step s = .next (failedState s .badOperand) := by
  rw [← h.raise_eq]
  rcases decodeCommand_cases hlo hhi with ⟨-, hdec⟩ | ⟨i, hdec, hexec⟩
  · exact (h.step_eq_exec hdec).trans (execHdrp_of_srcFits_eq_false hfits)
  · exact (h.step_eq_exec hdec).trans (hexec s ((Regs.regionsOk_eq_false_iff _).mpr (.inl hfits)))

theorem Issued.step_of_regionsOk_eq_false {s : State} (h : Issued s) (hlo : 1 ≤ s.regs.cmd.toNat) (hhi : s.regs.cmd.toNat ≤ 9)
    (hcmd : s.regs.cmd ≠ 1) (hregions : s.regs.regionsOk = false) : step s = .next (failedState s .badOperand) := by
  rw [← h.raise_eq]
  rcases decodeCommand_cases hlo hhi with ⟨hone, -⟩ | ⟨i, hdec, hexec⟩
  · exact absurd hone hcmd
  · exact (h.step_eq_exec hdec).trans (hexec s hregions)

/-- Settles O14: one failing step for each of the checks (a) to (c), and the checks as inequalities. -/
theorem regionChecks : Obligations.RegionChecks := by
  refine ⟨fun s hs hlo hhi hbroken => ?_, Regs.regionsOk_iff⟩
  rcases hbroken with hsrc | ⟨hcmd, hdst | ⟨hsrcLen, hdstLen, hbelow, habove⟩⟩
  · exact hs.step_of_srcFits_eq_false hlo hhi (Regs.srcFits_eq_false hsrc)
  · exact hs.step_of_regionsOk_eq_false hlo hhi hcmd
      ((Regs.regionsOk_eq_false_iff _).mpr (.inr (.inl (Regs.dstFits_eq_false hdst))))
  · exact hs.step_of_regionsOk_eq_false hlo hhi hcmd
      ((Regs.regionsOk_eq_false_iff _).mpr (.inr (.inr (Regs.regionsApart_eq_false hsrcLen hdstLen hbelow habove))))

end Sys2Proof.Machine
end


section
/-!
PROOFS. An illegal command word (R92): the host's write issues it, the decoder has no command for it, and the engine's next step is the
failure `BadOperand`; O13 is those two steps.
-/

namespace Sys2Proof.Machine

/-! ### The words that name no command -/

/-- R92 word for word: a bit of 31:4 is set, or the opcode in bits 3:0 is 0 or one of 10 to 15. The decoder's other nine cases are the
words 1 to 9, which none of these conditions admits. -/
theorem decodeCommand_of_reserved {w : Word} (h : w.toNat / 16 ≠ 0 ∨ w.toNat % 16 = 0 ∨ 10 ≤ w.toNat % 16) :
    decodeCommand w = .error .illegalCommand := by
  unfold decodeCommand
  split
  case h_10 => rfl
  all_goals omega

/-! ### The two steps -/

theorem leadsTo_two {s t u : State} (hst : step s = .next t) (htu : step t = .next u) : leadsTo 2 s u := by
  simp [leadsTo, Host.Core.run, core, hst, htu]

/-- The write to `CMD` of an idle block is the whole of a step: it issues the command (R27). -/
theorem step_write_cmd {s : State} {c : Word} {rest : List HostMove} (hidle : s.run = none) (hinputs : s.inputs = .write 6 c :: rest) :
    step s = .next (State.issue { s with inputs := rest } c) := by
  simp [step_host s _ _ hinputs, hostStep, State.hostWrite, hidle]

theorem issued_issue {s : State} (c : Word) (h : s.inputs = []) : Issued (s.issue c) := ⟨rfl, h⟩

theorem fetch_of_illegal {r : Run} {s : State} (hphase : r.phase = .issued) (hdec : decodeCommand s.regs.cmd = .error .illegalCommand) :
    fetch r s = .failure .badOperand := by
  simp [fetch, fetchCode, hphase, Phase.place, decode, hdec, decodeFailure]

/-- A freshly issued illegal word fails in the engine's first step (R92). -/
theorem Issued.step_of_illegal {s : State} (h : Issued s) (hdec : decodeCommand s.regs.cmd = .error .illegalCommand) :
    step s = .next (failedState s .badOperand) := by
  have ⟨hrun, hinputs⟩ := h
  rw [← h.raise_eq, step_engine s hinputs, engineStep_running s _ hrun, fetch_of_illegal rfl hdec]
  rfl

/-- What a failure leaves of the issue itself is the word in `CMD` and an idle engine (R27, R320). -/
theorem failedState_issue_badOperand {s : State} (c : Word) (hidle : s.run = none) :
    failedState (s.issue c) .badOperand = { s with regs := { s.regs with cmd := c, status := 0b110, errcode := 6 } } := by
  simp [failedState, State.issue, Regs.withOutcome, FailKind.code, statusFailed, hidle]

/-- Settles O13: the host's write issues the word, and the engine's step fails because the word decodes to no command. -/
theorem illegalCommand : Obligations.IllegalCommand := by
  intro s c hidle hinputs hreserved
  have hissued : Issued (State.issue { s with inputs := [] } c) := issued_issue c rfl
  have hfail := hissued.step_of_illegal (decodeCommand_of_reserved hreserved)
  rw [failedState_issue_badOperand (s := { s with inputs := [] }) c hidle] at hfail
  exact leadsTo_two (step_write_cmd hidle hinputs) hfail

end Sys2Proof.Machine
end

section
/-!
PROOFS. The lines of a Radiance header and its `FORMAT` field (R144, R145): the line cutter one byte at a time, what its lines hold and how
they spell the text, when `FormatValue` answers a value or none; O19 and O20 assembled from them.
-/

namespace Sys2Proof.Machine

/-! ### The line cutter, byte by byte (R144) -/

@[simp] theorem headerLinesFrom_nil (cur : List Byte) : headerLinesFrom cur [] = [] := rfl

@[simp] theorem headerLinesFrom_lf (cur bs : List Byte) : headerLinesFrom cur (lf :: bs) = cur.reverse :: headerLinesFrom [] bs :=
  if_pos rfl

theorem headerLinesFrom_of_ne_lf {b : Byte} (h : b ≠ lf) (cur bs : List Byte) :
    headerLinesFrom cur (b :: bs) = headerLinesFrom (b :: cur) bs :=
  if_neg h

/-- The line under way holds no `LF` as long as `cur` holds none, so no finished line does; a tail without `LF` does not matter. -/
theorem lf_notMem_of_mem_headerLinesFrom {bs cur l : List Byte} (hcur : lf ∉ cur) (hl : l ∈ headerLinesFrom cur bs) : lf ∉ l := by
  induction bs generalizing cur with
  | nil => simp at hl
  | cons b bs ih =>
    by_cases hb : b = lf
    · subst hb
      rw [headerLinesFrom_lf, List.mem_cons] at hl
      rcases hl with rfl | hl
      · rwa [List.mem_reverse]
      · exact ih List.not_mem_nil hl
    · rw [headerLinesFrom_of_ne_lf hb] at hl
      exact ih (List.not_mem_cons_of_ne_of_not_mem (Ne.symm hb) hcur) hl

/-- Where the bytes end with an `LF`, the lines with their `LF`s are the line under way and then those bytes: nothing is left over. -/
theorem flatMap_headerLinesFrom_append_lf (cur bs : List Byte) :
    (headerLinesFrom cur (bs ++ [lf])).flatMap (fun l => l ++ [lf]) = cur.reverse ++ (bs ++ [lf]) := by
  induction bs generalizing cur with
  | nil => simp
  | cons b bs ih =>
    rw [List.cons_append]
    by_cases hb : b = lf
    · subst hb
      rw [headerLinesFrom_lf, List.flatMap_cons, ih]
      simp
    · rw [headerLinesFrom_of_ne_lf hb, ih]
      simp

/-! ### The lines of a header text (R144, R147) -/

theorem lf_notMem_of_mem_headerLines {text l : List Byte} (hl : l ∈ headerLines text) : lf ∉ l :=
  lf_notMem_of_mem_headerLinesFrom List.not_mem_nil hl

theorem flatMap_headerLines {text : List Byte} (h : text.getLast? = some lf) :
    (headerLines text).flatMap (fun l => l ++ [lf]) = text := by
  obtain ⟨bs, rfl⟩ := List.getLast?_eq_some_iff.mp h
  exact flatMap_headerLinesFrom_append_lf [] bs

/-- A text that ends with `LF` has a line, since no lines at all would spell the empty text. -/
theorem headerLines_ne_nil {text : List Byte} (h : text.getLast? = some lf) : headerLines text ≠ [] := by
  intro hnil
  have hjoin := flatMap_headerLines h
  rw [hnil, List.flatMap_nil] at hjoin
  subst hjoin
  simp at h

theorem getLast?_headerLines {text : List Byte} (h : headerLines text ≠ []) :
    (headerLines text).getLast? = some (resolutionLine text) := by
  rw [resolutionLine, List.getLast?_eq_some_getLast h, Option.getD_some]

/-- Settles O19: the cutter's lines spell the text and hold no `LF`; there is a last one because the text is not empty. -/
theorem headerLines_spec : Obligations.HeaderLines := fun _ htext =>
  ⟨flatMap_headerLines htext, fun _ hl => lf_notMem_of_mem_headerLines hl, getLast?_headerLines (headerLines_ne_nil htext)⟩

/-! ### The FORMAT field (R145) -/

/-- A line begins with the key and leaves `v` after it exactly when it is the key followed by `v`. -/
theorem formatKey_prefix_and_drop_eq_iff (l v : List Byte) :
    formatKey <+: l ∧ l.drop formatKey.length = v ↔ l = formatKey ++ v := by
  constructor
  · rintro ⟨hkey, rfl⟩
    exact List.prefix_append_drop hkey
  · rintro rfl
    exact ⟨List.prefix_append _ _, List.drop_left⟩

/-- The search for the key answers `l` exactly when `l` begins with the key and no line before it does. -/
theorem find?_formatKey_eq_some_iff (ls : List (List Byte)) (l : List Byte) :
    ls.find? (fun l => formatKey.isPrefixOf l) = some l ↔
      formatKey <+: l ∧ ∃ before after, ls = before ++ l :: after ∧ ∀ k ∈ before, ¬ formatKey <+: k := by
  simp [List.find?_eq_some_iff_append, ← List.isPrefixOf_iff_prefix]

theorem formatValue_eq_some_iff (text v : List Byte) :
    formatValue text = some v ↔
      ∃ before after, headerLines text = before ++ (formatKey ++ v) :: after ∧ ∀ l ∈ before, ¬ formatKey <+: l := by
  rw [formatValue, Option.map_eq_some_iff]
  constructor
  · rintro ⟨l, hfind, hdrop⟩
    obtain ⟨hkey, hfirst⟩ := (find?_formatKey_eq_some_iff _ l).mp hfind
    rwa [(formatKey_prefix_and_drop_eq_iff l v).mp ⟨hkey, hdrop⟩] at hfirst
  · intro hfirst
    obtain ⟨hkey, hdrop⟩ := (formatKey_prefix_and_drop_eq_iff _ v).mpr rfl
    exact ⟨formatKey ++ v, (find?_formatKey_eq_some_iff _ _).mpr ⟨hkey, hfirst⟩, hdrop⟩

theorem formatValue_eq_none_iff (text : List Byte) : formatValue text = none ↔ ∀ l ∈ headerLines text, ¬ formatKey <+: l := by
  rw [formatValue, Option.map_eq_none_iff, List.find?_eq_none]
  simp only [List.isPrefixOf_iff_prefix]

/-- Settles O20: the key's seven bytes written out are `formatKey`, and the search stops at the first line that begins with it. -/
theorem formatField : Obligations.FormatField :=
  ⟨formatValue_eq_some_iff, formatValue_eq_none_iff⟩

end Sys2Proof.Machine
end

section
/-!
PROOFS. The scanline decoder at its single steps (R171 to R188): the issue checks of `SCAN`, the signature, and the two old-style groups,
which share one emission; O15, O25, O27 and O28 assembled from them.
-/

namespace Sys2Proof.Machine

/-! ### The issue checks of `SCAN` (R171) -/

theorem illegalWidth_iff (w : Word) : (w = 0 ∨ Config.dimMax < w.toNat) ↔ ¬ (1 ≤ w.toNat ∧ w.toNat ≤ 65535) := by
  rw [← BitVec.toNat_inj, BitVec.ofNat_eq_ofNat, BitVec.toNat_zero, Config.dimMax]
  omega

/-- The checks in the terms of R171, first failure first. -/
theorem scanFailure_eq (r : Regs) :
    scanFailure r =
      if r.regionsOk = false then some .badOperand
      else if ¬ (1 ≤ r.width.toNat ∧ r.width.toNat ≤ 65535) then some .badOperand
      else if ¬ r.pos.toNat ≤ r.srcLen.toNat then some .badOperand
      else if ¬ r.ipos.toNat + 4 * r.width.toNat ≤ r.dstLen.toNat then some .outputTooSmall
      else none := by
  simp only [scanFailure, illegalWidth_iff, Bool.not_eq_true', Nat.not_le]

theorem exec_scan_of_failure {s : State} {k : FailKind} (h : scanFailure s.regs = some k) : exec .scan s = .next (s.raise k) := by
  simp [exec, execScan, h]

theorem exec_scan_of_passed {s : State} (h : scanFailure s.regs = none) :
    exec .scan s = .next (s.start (.line none .start) (Staged.ofRegs s.regs)) := by
  simp [exec, execScan, h]

theorem Issued.exec_scan_eq {s : State} (hs : Issued s) :
    exec .scan s = .next ((scanFailure s.regs).elim
      { s with run := some { phase := .line none .start, staged := Staged.ofRegs s.regs, disturbed := false } } (failedState s)) := by
  cases hfail : scanFailure s.regs with
  | some k => rw [exec_scan_of_failure hfail, hs.raise_eq, Option.elim_some]
  | none => rw [exec_scan_of_passed hfail, State.start, hs.disturbed_eq_false, Option.elim_none]

/-- Settles O15: one outcome for each branch of the chain. -/
theorem scanIssueChecks : Obligations.ScanIssueChecks := by
  intro s hs
  rw [hs.exec_scan_eq, scanFailure_eq]
  split_ifs <;> rfl

/-! ### A command that is decoding a scanline -/

theorem State.disturbed_of_run {s : State} {r : Run} (h : s.run = some r) : s.disturbed = r.disturbed := by
  simp [State.disturbed, h]

theorem State.inScanlines_of_run {s : State} {rc : Option Nat} {lp : LinePos} {st : Staged} {d : Bool}
    (h : s.run = some { phase := .line rc lp, staged := st, disturbed := d }) : s.inScanlines = true := by
  simp [State.inScanlines, h]

/-- A failure in a scanline that nobody disturbed spoils the destination (R72, R322). -/
theorem State.raise_of_inLine {s : State} {rc : Option Nat} {lp : LinePos} {st : Staged}
    (h : s.run = some { phase := .line rc lp, staged := st, disturbed := false }) (k : FailKind) :
    s.raise k = failedInScanlines s k := by
  rw [State.raise_eq s k (State.disturbed_of_run h), if_pos (State.inScanlines_of_run h)]

/-! ### The signature (R174) -/

theorem exec_nsSig_at_start {s : State} {rc : Option Nat} {st : Staged} {d : Bool} (width16 : BitVec 15)
    (h : s.run = some { phase := .line rc .start, staged := st, disturbed := d }) :
    exec (.nsSig width16) s =
      if width16.toNat = st.width.toNat then
        .next { s with run := some { phase := .line rc (.plane .r Planes.empty), staged := st.skip 4, disturbed := d } }
      else .next (s.raise .scanlineWidthMismatch) := by
  simp [exec, execNsSig, h]

/-- Settles O25: the two branches of the width check. -/
theorem nsSigToken : Obligations.NsSigToken := by
  refine fun s rc st width16 hrun => ⟨fun hwidth => ?_, fun hwidth => ?_⟩
  · rw [exec_nsSig_at_start width16 hrun, if_pos hwidth]
    rfl
  · rw [exec_nsSig_at_start width16 hrun, if_neg hwidth, State.raise_of_inLine hrun]

/-! ### Pixels and the word in `PREV` (R35) -/

theorem toNat_append_byte {n : Nat} (x : BitVec n) (b : Byte) : (x ++ b).toNat = 256 * x.toNat + b.toNat := by
  rw [BitVec.toNat_append, ← Nat.shiftLeft_add_eq_or_of_lt b.isLt, Nat.shiftLeft_eq, Nat.mul_comm]

/-- R in the lowest byte, E in the highest. -/
theorem prevOfPixel_eq_append (r g b e : Byte) : prevOfPixel ⟨r, g, b, e⟩ = e ++ b ++ g ++ r := by
  apply BitVec.eq_of_toNat_eq
  rw [toNat_append_byte, toNat_append_byte, toNat_append_byte]
  simp only [prevOfPixel, leWord, BitVec.toNat_ofNat]
  omega

theorem prevOfPixel_pixelOfPrev (w : Word) : prevOfPixel (pixelOfPrev w) = w := by
  apply BitVec.eq_of_toNat_eq
  simp only [prevOfPixel, pixelOfPrev, leWord, wordByte, BitVec.toNat_ofNat]
  omega

/-- After copies of the pixel in `PREV`, and after none, the pixel in `PREV` is the same (R186). -/
theorem Staged.emitted_replicate_prev (st : Staged) (k : Nat) :
    st.emitted (List.replicate k (pixelOfPrev st.prev)) = { st with ipos := BitVec.ofNat 32 (st.ipos.toNat + 4 * k) } := by
  cases k with
  | zero => simp [Staged.emitted]
  | succ k => simp [Staged.emitted, List.getLast?_replicate, prevOfPixel_pixelOfPrev]

theorem Staged.emitted_singleton (st : Staged) (r g b e : Byte) :
    st.emitted [⟨r, g, b, e⟩] = { st with ipos := BitVec.ofNat 32 (st.ipos.toNat + 4), prev := e ++ b ++ g ++ r } := by
  simp [Staged.emitted, prevOfPixel_eq_append]

/-! ### The end of a scanline (R188, R290) -/

/-- The end of a scanline of a command that nobody disturbed, in the terms of the statements. -/
theorem endLine_emitted {r : Run} {s : State} (rc : Option Nat) (px : List Rgbe) (hs : s.disturbed = false)
    (hr : r.disturbed = false) :
    endLine rc { r with staged := r.staged.emitted px }
      { s with mem := s.mem.writeBytes (emitAddr s.regs r.staged) (pixelBytes px) } = scanlineDone rc r.staged px s := by
  obtain ⟨phase, staged, disturbed⟩ := r
  subst hr
  match rc with
  | some (n + 2) => rfl
  | none | some 0 | some 1 => exact State.finish_eq _ _ hs

/-! ### The old-style groups (R182 to R187) -/

/-- A group that leaves the scanline short of its width. -/
theorem emitThen_oldRest_of_lt {px : List Rgbe} {w em : Nat} {r : Run} {s : State} (rc : Option Nat) (sh : Nat) (hmore : em < w)
    (hfits : s.regs.dstAddr.toNat + r.staged.ipos.toNat + 4 * px.length ≤ 2 ^ 32) :
    emitThen px rc (oldRest w em sh) r s = .next
      { s with
        mem := s.mem.writeBytes (s.regs.dstAddr.toNat + r.staged.ipos.toNat) (pixelBytes px)
        run := some { r with phase := .line rc (.old em sh), staged := r.staged.emitted px } } := by
  have hrest : oldRest w em sh = some (.old em sh) := if_pos hmore
  rw [hrest, emitThen_eq]
  exact if_pos hfits

/-- A group that completes the scanline. -/
theorem emitThen_oldRest_of_le {px : List Rgbe} {w em : Nat} {r : Run} {s : State} (rc : Option Nat) (sh : Nat) (hlast : w ≤ em)
    (hs : s.disturbed = false) (hr : r.disturbed = false)
    (hfits : s.regs.dstAddr.toNat + r.staged.ipos.toNat + 4 * px.length ≤ 2 ^ 32) :
    emitThen px rc (oldRest w em sh) r s = .next (scanlineDone rc r.staged px s) := by
  have hrest : oldRest w em sh = none := if_neg (Nat.not_lt.mpr hlast)
  rw [hrest, emitThen_eq, ← endLine_emitted rc px hs hr]
  exact if_pos hfits

/-- Where an old-style group may stand, and its counters there (R183, R187). -/
theorem groupCounters_eq_some {lp : LinePos} {em sh : Nat} (h : lp = .start ∧ em = 0 ∧ sh = 0 ∨ lp = .old em sh) :
    groupCounters lp = some (em, sh) := by
  rcases h with ⟨rfl, rfl, rfl⟩ | rfl <;> rfl

theorem exec_osPix_of_counters {s : State} {rc : Option Nat} {lp : LinePos} {st : Staged} {d : Bool} {em sh : Nat} (r g b e : Byte)
    (hrun : s.run = some { phase := .line rc lp, staged := st, disturbed := d }) (hlp : groupCounters lp = some (em, sh)) :
    exec (.osPix r g b e) s =
      emitThen [⟨r, g, b, e⟩] rc (oldRest st.width.toNat (em + 1) 0)
        { phase := .line rc lp, staged := st.skip 4, disturbed := d } s := by
  simp [exec, execOsPix, hrun, hlp]

theorem exec_osMark_of_counters {s : State} {rc : Option Nat} {lp : LinePos} {st : Staged} {d : Bool} {em sh : Nat} (e : Byte)
    (hrun : s.run = some { phase := .line rc lp, staged := st, disturbed := d }) (hlp : groupCounters lp = some (em, sh)) :
    exec (.osMark e) s =
      emitThen (List.replicate (markerCount st.width.toNat em sh e) (pixelOfPrev st.prev)) rc
        (oldRest st.width.toNat (em + markerCount st.width.toNat em sh e) (min (sh + 8) 248))
        { phase := .line rc lp, staged := st.skip 4, disturbed := d } s := by
  simp [exec, execOsMark, hrun, hlp]

/-- Settles O27: a group of one pixel. -/
theorem osPixToken : Obligations.OsPixToken := by
  intro s rc lp em sh st r g b e hlp hrun hfits st'
  rw [exec_osPix_of_counters r g b e hrun (groupCounters_eq_some hlp)]
  refine ⟨fun hmore => ?_, fun hlast => ?_⟩
  · rw [emitThen_oldRest_of_lt (px := [⟨r, g, b, e⟩]) rc 0 hmore hfits, Staged.emitted_singleton]
    rfl
  · exact emitThen_oldRest_of_le rc 0 hlast (State.disturbed_of_run hrun) rfl hfits

/-- Settles O28: a group of `k` copies of the pixel in `PREV`, so `PREV` is the same after it, and after none. -/
theorem osMarkToken : Obligations.OsMarkToken := by
  intro s rc lp em sh st e hlp hrun k px st' hfits
  have hlen : px.length = k := List.length_replicate
  rw [← hlen] at hfits
  rw [exec_osMark_of_counters e hrun (groupCounters_eq_some hlp)]
  refine ⟨fun hmore => ?_, fun hlast => ?_⟩
  · have hst : st'.emitted px = { st' with ipos := BitVec.ofNat 32 (st.ipos.toNat + 4 * k) } := st'.emitted_replicate_prev k
    rw [← hst]
    exact emitThen_oldRest_of_lt rc _ hmore hfits
  · exact emitThen_oldRest_of_le rc _ hlast (State.disturbed_of_run hrun) rfl hfits

end Sys2Proof.Machine
end

section
/-!
PROOFS. The frame of the six conversions (R71, R77, R210): a memory read back after a row of equal blocks has been written, the pixel
formats in the terms of the bytes read, and what a conversion whose checks pass leaves in the state.
-/

namespace Sys2Proof.Machine

/-! ### Blocks written one behind the other -/

theorem Memory.readBytes_writeBytes (m : Memory) (a : Nat) (bs : List Byte) : (m.writeBytes a bs).readBytes a bs.length = bs := by
  refine List.ext_getElem (Memory.readBytes_length ..) fun k hk hk' => ?_
  rw [Memory.readBytes_getElem, Memory.read_writeBytes_inside m a bs k hk']

theorem flatMap_range_length {f : Nat → List Byte} {stride : Nat} (hf : ∀ i, (f i).length = stride) (n : Nat) :
    ((List.range n).flatMap f).length = stride * n := by
  simp [List.length_flatMap, hf, Nat.mul_comm]

/-- Of `n` blocks of one length, each stands where its index says: the blocks after it are written behind it. -/
theorem Memory.readBytes_writeBytes_blocks (m : Memory) (a : Nat) {f : Nat → List Byte} {stride : Nat}
    (hf : ∀ i, (f i).length = stride) {n i : Nat} (hi : i < n) :
    (m.writeBytes a ((List.range n).flatMap f)).readBytes (a + stride * i) stride = f i := by
  induction n with
  | zero => exact absurd hi (Nat.not_lt_zero i)
  | succ n ih =>
    rw [List.range_succ, List.flatMap_append, List.flatMap_singleton, Memory.writeBytes_append, flatMap_range_length hf]
    rcases Nat.lt_succ_iff_lt_or_eq.mp hi with hlt | rfl
    · have hbehind : stride * i + stride ≤ stride * n := Nat.mul_le_mul_left stride hlt
      rw [← ih hlt]
      exact Memory.readBytes_congr _ _ _ _ fun x _ hx => Memory.read_writeBytes_outside _ _ _ (.inl (by omega))
    · have hblock := Memory.readBytes_writeBytes (m.writeBytes a ((List.range i).flatMap f)) (a + stride * i) (f i)
      rwa [hf i] at hblock

/-! ### Pixels in memory (R63 to R66) -/

theorem leWord_wordBytes (w : Word) : leWord (wordByte w 0) (wordByte w 1) (wordByte w 2) (wordByte w 3) = w :=
  prevOfPixel_pixelOfPrev w

theorem Memory.rgbeAt_of_readBytes {m : Memory} {a : Nat} {p : Rgbe} (h : m.readBytes a 4 = p.bytes) : m.rgbeAt a = p := by
  simp only [Memory.readBytes, Rgbe.bytes, List.cons.injEq] at h
  obtain ⟨hr, hg, hb, he, -⟩ := h
  rw [Memory.rgbeAt, hr, hg, hb, he]

theorem Memory.readWord_of_readBytes {m : Memory} {a : Nat} {w : Word} (h : m.readBytes a 4 = leBytes w) : m.readWord a = w := by
  simp only [Memory.readBytes, leBytes, List.cons.injEq] at h
  obtain ⟨h0, h1, h2, h3, -⟩ := h
  rw [Memory.readWord, h0, h1, h2, h3, leWord_wordBytes]

theorem Memory.floatAt_of_readBytes {m : Memory} {a : Nat} {p : FloatPixel} (h : m.readBytes a 12 = p.bytes) : m.floatAt a = p := by
  have hsplit : m.readBytes a 12 = m.readBytes a 4 ++ m.readBytes (a + 4) 4 ++ m.readBytes (a + 8) 4 := rfl
  rw [hsplit, FloatPixel.bytes] at h
  obtain ⟨hrg, hb⟩ := List.append_inj h rfl
  obtain ⟨hr, hg⟩ := List.append_inj hrg rfl
  rw [Memory.floatAt, Memory.readWord_of_readBytes hr, Memory.readWord_of_readBytes hg, Memory.readWord_of_readBytes hb]

/-! ### A conversion whose checks pass (R210, R311) -/

/-- Success once memory has been written, which leaves the run as it was (R311). -/
theorem State.finish_written {s : State} (m : Memory) (regs : Regs) (h : s.disturbed = false) :
    State.finish { s with mem := m } regs = { s with mem := m, regs := regs.withOutcome 0, run := none } :=
  State.finish_eq { s with mem := m } regs h

theorem ConversionReady.convertOk_eq_true {s : State} {strideIn strideOut : Nat} {ok : Bool}
    (h : ConversionReady s strideIn strideOut) (hok : ok = true) : convertOk s.regs strideIn strideOut ok = true := by
  obtain ⟨-, hregions, hsrc, hdst⟩ := h
  simp [convertOk, pixelCount, hregions, hsrc, hdst, hok]

/-- Block `n` of the destination holds the result of pixel `n` of the source. -/
theorem ConversionReady.exec_spec {s : State} {i : Instr} {strideIn strideOut : Nat} {ok : Bool} {pixel : Memory → Nat → List Byte}
    (h : ConversionReady s strideIn strideOut) (hexec : exec i s = convert strideIn strideOut ok pixel s) (hok : ok = true)
    (hpixel : ∀ m a, (pixel m a).length = strideOut) :
    ∃ t, exec i s = .next t ∧ ConversionDone s (s.regs.srcLen.toNat / strideIn) strideOut t ∧
      ∀ n, n < s.regs.srcLen.toNat / strideIn →
        t.mem.readBytes (s.regs.dstAddr.toNat + strideOut * n) strideOut =
          pixel s.mem (s.regs.srcAddr.toNat + strideIn * n) := by
  have hlength := convertedBytes_length s strideIn strideOut pixel hpixel
  rw [hexec, convert_eq, if_pos (h.convertOk_eq_true hok), State.finish_written _ _ h.1.disturbed_eq_false]
  refine ⟨_, rfl, ⟨rfl, rfl, rfl, rfl, rfl, fun a ha => ?_⟩, fun n hn => ?_⟩
  · rw [pixelCount] at hlength
    exact Memory.read_writeBytes_outside _ _ _ (by rwa [hlength])
  · rw [Nat.mul_comm strideIn]
    exact Memory.readBytes_writeBytes_blocks s.mem _ (fun _ => hpixel _ _) hn

end Sys2Proof.Machine
end

section
/-!
PROOFS. The conversions to float pixels (R12, R211, R241): `rnd32` is exact on a number of at most 24 significant bits, which every channel
of an RGBE pixel and of an RGB9_E5 word is; O35 and O38 assembled from that and the frame.
-/

namespace Sys2Proof.Machine

/-! ### Rounding to binary32 a number that needs no rounding (R11, R12) -/

/-- A pattern read as `k` times `2^23` and a significand `a`, below `2^23` only where it is subnormal, denotes `a * 2^k` units: the hidden
bit of a normal `a` makes the exponent field `k + 1`. -/
theorem denotes_of_toNat_eq {w : Word} {k a : Nat} (hw : w.toNat = k * 2 ^ 23 + a) (ha : a < 2 ^ 24) (hnormal : k = 0 ∨ 2 ^ 23 ≤ a)
    (hk : k ≤ 253) : denotes w (a * 2 ^ k) := by
  have hpos : f32Sign w = false := (f32Sign_eq_false_iff w).mpr (by omega)
  refine ⟨by omega, ?_⟩
  rw [f32Units, hpos, if_neg Bool.false_ne_true, f32Magnitude]
  rcases Nat.lt_or_ge a (2 ^ 23) with hsub | hbig
  · have hk0 : k = 0 := by omega
    have hexp : f32Exponent w = 0 := by simp only [f32Exponent]; omega
    have hfrac : f32Fraction w = a := by simp only [f32Fraction]; omega
    simp [Scaled.units, hexp, hfrac, hk0]
  · have hexp : f32Exponent w = k + 1 := by simp only [f32Exponent]; omega
    have hfrac : 2 ^ 23 + f32Fraction w = a := by simp only [f32Fraction]; omega
    rw [if_neg (by omega), hexp, hfrac]
    rfl

theorem rneDiv_mul_pow (a k : Nat) : rneDiv (a * 2 ^ k) k = a := by
  have hquot : a * 2 ^ k / 2 ^ k = a := Nat.mul_div_cancel a (Nat.two_pow_pos k)
  have hrem : a * 2 ^ k % 2 ^ k = 0 := Nat.mul_mod_left a (2 ^ k)
  have hdown : ¬ (2 ^ k < 2 * 0 ∨ 2 * 0 = 2 ^ k ∧ a % 2 = 1) := by
    have := Nat.two_pow_pos k
    omega
  simp only [rneDiv, hquot, hrem, if_neg hdown]

/-- Above `2^24` units `rnd32` drops the bits below the leading 24, and here they are 0. -/
theorem toNat_rnd32_of_normal {a k : Nat} (hlo : 2 ^ 23 ≤ a) (hhi : a < 2 ^ 24) (hk0 : k ≠ 0) (hk : k ≤ 253) :
    (rnd32 (a * 2 ^ k)).toNat = k * 2 ^ 23 + a := by
  have hlog : Nat.log2 (a * 2 ^ k) = 23 + k := by
    have hne : a * 2 ^ k ≠ 0 := (Nat.mul_pos (by omega) (Nat.two_pow_pos k)).ne'
    refine (Nat.log2_eq_iff hne).mpr ⟨?_, ?_⟩
    · rw [Nat.pow_add]
      exact Nat.mul_le_mul_right _ hlo
    · rw [Nat.add_right_comm, Nat.pow_add]
      exact Nat.mul_lt_mul_of_pos_right hhi (Nat.two_pow_pos k)
  have hlarge : 2 ^ 24 ≤ a * 2 ^ k := by
    calc 2 ^ 24 = 2 ^ 23 * 2 ^ 1 := rfl
      _ ≤ a * 2 ^ k := Nat.mul_le_mul hlo (Nat.pow_le_pow_right two_pos (Nat.one_le_iff_ne_zero.mpr hk0))
  simp only [rnd32, if_neg (Nat.not_lt.mpr hlarge), hlog, Nat.add_sub_cancel_left, rneDiv_mul_pow, BitVec.toNat_ofNat]
  omega

/-- A number of at most 24 significant bits, from `2^24` on, is a 24-bit significand times a smaller power of two. -/
theorem exists_normal_significand {m j : Nat} (hm : m < 2 ^ 24) (hlarge : 2 ^ 24 ≤ m * 2 ^ j) :
    ∃ d k, j = d + k ∧ k ≠ 0 ∧ 2 ^ 23 ≤ m * 2 ^ d ∧ m * 2 ^ d < 2 ^ 24 := by
  have hm0 : m ≠ 0 := by
    rintro rfl
    omega
  obtain ⟨d, hd⟩ : ∃ d, 23 = Nat.log2 m + d := Nat.exists_eq_add_of_le (Nat.lt_succ_iff.mp ((Nat.log2_lt hm0).mpr hm))
  have hhi : m * 2 ^ d < 2 ^ 24 := by
    calc m * 2 ^ d < 2 ^ (Nat.log2 m + 1) * 2 ^ d := Nat.mul_lt_mul_of_pos_right Nat.lt_log2_self (Nat.two_pow_pos d)
      _ = 2 ^ 24 := by rw [← Nat.pow_add, Nat.add_right_comm, ← hd]
  have hlo : 2 ^ 23 ≤ m * 2 ^ d := by
    calc 2 ^ 23 = 2 ^ Nat.log2 m * 2 ^ d := by rw [← Nat.pow_add, ← hd]
      _ ≤ m * 2 ^ d := Nat.mul_le_mul_right _ (Nat.log2_self_le hm0)
  have hdj : d < j := by
    by_contra hle
    have hmul : m * 2 ^ j ≤ m * 2 ^ d := Nat.mul_le_mul_left m (Nat.pow_le_pow_right two_pos (Nat.not_lt.mp hle))
    omega
  exact ⟨d, j - d, by omega, by omega, hlo, hhi⟩

/-- A number of at most 24 significant bits, of at most 277 bits in all, is rounded to itself. -/
theorem denotes_rnd32 {m j b : Nat} (hm : m < 2 ^ b) (hb : b ≤ 24) (hsize : b + j ≤ 277) :
    denotes (rnd32 (m * 2 ^ j)) (m * 2 ^ j) := by
  rcases Nat.lt_or_ge (m * 2 ^ j) (2 ^ 24) with hsmall | hlarge
  · have hw : (rnd32 (m * 2 ^ j)).toNat = 0 * 2 ^ 23 + m * 2 ^ j := by
      rw [rnd32, if_pos hsmall, BitVec.toNat_ofNat]
      omega
    simpa using denotes_of_toNat_eq hw hsmall (.inl rfl) (Nat.zero_le _)
  · obtain ⟨d, k, rfl, hk0, hlo, hhi⟩ := exists_normal_significand (hm.trans_le (Nat.pow_le_pow_right two_pos hb)) hlarge
    have hk : k ≤ 253 := by
      have hbits : 2 ^ 23 < 2 ^ (b + d) := by
        rw [Nat.pow_add 2 b]
        exact hlo.trans_lt (Nat.mul_lt_mul_of_pos_right hm (Nat.two_pow_pos d))
      have := (Nat.pow_lt_pow_iff_right Nat.one_lt_two).mp hbits
      omega
    rw [Nat.pow_add, ← Nat.mul_assoc]
    exact denotes_of_toNat_eq (toNat_rnd32_of_normal hlo hhi hk0 hk) hhi (.inr hlo) hk

/-! ### The channels (R93, R97) -/

theorem denotes_rgbeChannel (m e : Byte) : denotes (rnd32 (rgbeChannel m e).units) (m.toNat * 2 ^ (e.toNat + 13)) := by
  have he := e.isLt
  exact denotes_rnd32 (j := e.toNat + 13) (b := 8) m.isLt (by norm_num) (by omega)

theorem denotes_rgb9e5Channel {m e : Nat} (hm : m < 512) (he : e < 32) :
    denotes (rnd32 (rgb9e5Channel m e).units) (m * 2 ^ (e + 125)) :=
  denotes_rnd32 (j := e + 125) (b := 9) hm (by norm_num) (by omega)

theorem r9_lt (w : Word) : r9 w < 512 := by
  have := w.isLt
  rw [r9]
  omega

theorem g9_lt (w : Word) : g9 w < 512 := Nat.mod_lt _ (by norm_num)

theorem b9_lt (w : Word) : b9 w < 512 := Nat.mod_lt _ (by norm_num)

theorem e5_lt (w : Word) : e5 w < 32 := Nat.mod_lt _ (by norm_num)

/-- Every channel of the result of `RGBE2F` is exact (R211). -/
theorem denotes_rgbeToFloat (p : Rgbe) :
    denotes (rgbeToFloat p).r (p.r.toNat * 2 ^ (p.e.toNat + 13)) ∧ denotes (rgbeToFloat p).g (p.g.toNat * 2 ^ (p.e.toNat + 13)) ∧
      denotes (rgbeToFloat p).b (p.b.toNat * 2 ^ (p.e.toNat + 13)) := by
  dsimp only [rgbeToFloat]
  exact ⟨denotes_rgbeChannel p.r p.e, denotes_rgbeChannel p.g p.e, denotes_rgbeChannel p.b p.e⟩

/-- Every channel of the result of `RGB9E52F` is exact (R241). -/
theorem denotes_rgb9e5ToFloat (w : Word) :
    denotes (rgb9e5ToFloat w).r (r9 w * 2 ^ (e5 w + 125)) ∧ denotes (rgb9e5ToFloat w).g (g9 w * 2 ^ (e5 w + 125)) ∧
      denotes (rgb9e5ToFloat w).b (b9 w * 2 ^ (e5 w + 125)) := by
  dsimp only [rgb9e5ToFloat]
  exact ⟨denotes_rgb9e5Channel (r9_lt w) (e5_lt w), denotes_rgb9e5Channel (g9_lt w) (e5_lt w),
    denotes_rgb9e5Channel (b9_lt w) (e5_lt w)⟩

/-! ### The commands -/

theorem exec_rgbe2f (s : State) : exec .rgbe2f s = convert 4 12 true (fun m a => (rgbeToFloat (m.rgbeAt a)).bytes) s := rfl

theorem exec_rgb9e52f (s : State) : exec .rgb9e52f s = convert 4 12 true (fun m a => (rgb9e5ToFloat (m.readWord a)).bytes) s := rfl

/-- Settles O35: the frame, and `rnd32` is exact on every RGBE channel. -/
theorem rgbe2fResult : Obligations.Rgbe2fResult := by
  intro s hs
  obtain ⟨t, hexec, hdone, hblocks⟩ := hs.exec_spec (exec_rgbe2f s) rfl fun _ _ => FloatPixel.bytes_length _
  refine ⟨t, hexec, hdone, fun i hi => ?_⟩
  intro p q
  have hq : q = rgbeToFloat p := Memory.floatAt_of_readBytes (hblocks i hi)
  rw [hq]
  exact denotes_rgbeToFloat p

/-- Settles O38: the frame, and `rnd32` is exact on every RGB9_E5 channel. -/
theorem rgb9e52fResult : Obligations.Rgb9e52fResult := by
  intro s hs
  obtain ⟨t, hexec, hdone, hblocks⟩ := hs.exec_spec (exec_rgb9e52f s) rfl fun _ _ => FloatPixel.bytes_length _
  refine ⟨t, hexec, hdone, fun i hi => ?_⟩
  intro u q
  have hq : q = rgb9e5ToFloat u := Memory.floatAt_of_readBytes (hblocks i hi)
  rw [hq]
  exact denotes_rgb9e5ToFloat u

end Sys2Proof.Machine
end

section
/-!
PROOFS. Exact numbers of units as reals, for the two conversions from float pixels: the larger of two, quotients by a power of two rounded
down and half up (R14, R224, R234), and the logarithm's floor and ceiling (R15).
-/

namespace Sys2Proof.Machine

/-! ### Order -/

theorem max_units_div (a b : ℕ) : max ((a : ℝ) / 2 ^ 149) ((b : ℝ) / 2 ^ 149) = ((max a b : ℕ) : ℝ) / 2 ^ 149 := by
  rw [max_div_div_right (by positivity), Nat.cast_max]

theorem min_units_div (a b : ℕ) : min ((a : ℝ) / 2 ^ 149) ((b : ℝ) / 2 ^ 149) = ((min a b : ℕ) : ℝ) / 2 ^ 149 := by
  rw [min_div_div_right (by positivity), Nat.cast_min]

/-- `2^e` is `2^k` units where `k = e + 149`. -/
theorem zpow_eq_units_div {e : ℤ} {k : ℕ} (hk : (k : ℤ) = e + 149) : (2 : ℝ) ^ e = ((2 ^ k : ℕ) : ℝ) / 2 ^ 149 := by
  have he : e = (k : ℤ) - (149 : ℕ) := by omega
  rw [he, zpow_sub₀ two_ne_zero, zpow_natCast, zpow_natCast, Nat.cast_pow, Nat.cast_ofNat]

/-! ### Quotients by a power of two -/

theorem units_div_zpow (c : ℕ) {e : ℤ} {k : ℕ} (hk : (k : ℤ) = e + 149) : (c : ℝ) / 2 ^ 149 / 2 ^ e = c / ((2 ^ k : ℕ) : ℝ) := by
  rw [zpow_eq_units_div hk, div_div_div_cancel_right₀ (by positivity)]

theorem floor_units_div_zpow (c : ℕ) {e : ℤ} {k : ℕ} (hk : (k : ℤ) = e + 149) :
    ⌊(c : ℝ) / 2 ^ 149 / 2 ^ e⌋ = ((c / 2 ^ k : ℕ) : ℤ) := by
  rw [units_div_zpow c hk, Int.floor_div_natCast, Int.floor_natCast, Int.natCast_div]

/-- `rhu` of the quotient: one half more, rounded down (R14). -/
theorem floor_units_div_zpow_add_half (c : ℕ) {e : ℤ} {k : ℕ} (hk : (k : ℤ) = e + 149) :
    ⌊(c : ℝ) / 2 ^ 149 / 2 ^ e + 1 / 2⌋ = (rhuDiv c k : ℤ) := by
  have hfraction : (c : ℝ) / ((2 ^ k : ℕ) : ℝ) + 1 / 2 = ((2 * c + 2 ^ k : ℕ) : ℝ) / ((2 ^ (k + 1) : ℕ) : ℝ) := by
    push_cast
    field_simp
    ring
  rw [units_div_zpow c hk, hfraction, Int.floor_div_natCast, Int.floor_natCast, ← Int.natCast_div, rhuDiv]

/-! ### Logarithms (R15) -/

theorem ceilLog2_eq_clog {n : ℕ} (hn : n ≠ 0) : ceilLog2 n = Nat.clog 2 n := by
  rw [ceilLog2]
  split
  case isTrue hpow =>
    rw [← hpow, Nat.clog_pow 2 _ one_lt_two, hpow]
  case isFalse hpow =>
    refine le_antisymm ?_ (Nat.clog_le_of_le_pow Nat.lt_log2_self.le)
    exact (Nat.lt_clog_iff_pow_lt one_lt_two).mpr (lt_of_le_of_ne (Nat.log2_self_le hn) hpow)

theorem logb_units_div {n : ℕ} (hn : n ≠ 0) : Real.logb 2 ((n : ℝ) / 2 ^ 149) = Real.logb 2 n - (149 : ℕ) := by
  rw [Real.logb_div (Nat.cast_ne_zero.mpr hn) (by positivity), Real.logb_pow, Real.logb_self_eq_one one_lt_two, mul_one]

theorem ceil_logb_units_div {n : ℕ} (hn : n ≠ 0) : ⌈Real.logb 2 ((n : ℝ) / 2 ^ 149)⌉ = (ceilLog2 n : ℤ) - 149 := by
  have hceil : ⌈Real.logb 2 (n : ℝ)⌉ = (Nat.clog 2 n : ℤ) := by
    exact_mod_cast (Real.ceil_logb_natCast (b := 2) n.cast_nonneg).trans (Int.clog_natCast 2 n)
  rw [logb_units_div hn, Int.ceil_sub_natCast, hceil, ceilLog2_eq_clog hn, Nat.cast_ofNat]

theorem floor_logb_units_div {n : ℕ} (hn : n ≠ 0) : ⌊Real.logb 2 ((n : ℝ) / 2 ^ 149)⌋ = (Nat.log2 n : ℤ) - 149 := by
  have hfloor : ⌊Real.logb 2 (n : ℝ)⌋ = (Nat.log 2 n : ℤ) := by
    exact_mod_cast (Real.floor_logb_natCast (b := 2) n.cast_nonneg).trans (Int.log_natCast 2 n)
  rw [logb_units_div hn, Int.floor_sub_natCast, hfloor, Nat.log2_eq_log_two, Nat.cast_ofNat]

end Sys2Proof.Machine
end

section
/-!
PROOFS. `F2RGBE` (R220 to R225): the exponent and the mantissas of the pixel as the real formula of R220, and O36 assembled from them and
the frame.
-/

namespace Sys2Proof.Machine

/-! ### The shared exponent (R220, R222, R223) -/

theorem units_div_eq_half_iff (n : ℕ) : (n : ℝ) / 2 ^ 149 = 1 / 2 ↔ n = 2 ^ 148 := by
  have hhalf : (1 / 2 : ℝ) = ((2 ^ 148 : ℕ) : ℝ) / 2 ^ 149 := by norm_num
  rw [hhalf, div_left_inj' (by positivity), Nat.cast_inj]

theorem rgbeExponent_eq {n : ℕ} (hn : n ≠ 0) :
    rgbeExponent n = if (n : ℝ) / 2 ^ 149 = 1 / 2 then 0 else ⌈Real.logb 2 ((n : ℝ) / 2 ^ 149)⌉ := by
  rw [rgbeExponent, ceil_logb_units_div hn]
  simp only [units_div_eq_half_iff]

theorem rgbeExponentClamped_eq {n : ℕ} (hn : n ≠ 0) :
    rgbeExponentClamped n =
      max (-128) (min 127 (if (n : ℝ) / 2 ^ 149 = 1 / 2 then 0 else ⌈Real.logb 2 ((n : ℝ) / 2 ^ 149)⌉)) := by
  rw [← rgbeExponent_eq hn, rgbeExponentClamped]
  omega

theorem neg_128_le_rgbeExponentClamped (n : ℕ) : -128 ≤ rgbeExponentClamped n := by
  rw [rgbeExponentClamped]
  omega

theorem rgbeExponentClamped_le_127 (n : ℕ) : rgbeExponentClamped n ≤ 127 := min_le_right _ _

/-! ### The pixel (R220, R224, R225) -/

theorem toNat_rgbeMantissa {ec : ℤ} (hec : -128 ≤ ec) (c : ℕ) :
    ((rgbeMantissa ec c).toNat : ℤ) = min 255 ⌊(c : ℝ) / 2 ^ 149 / (2 : ℝ) ^ (ec - 8)⌋ := by
  have hshift : ((141 + ec).toNat : ℤ) = ec - 8 + 149 := by omega
  rw [floor_units_div_zpow c hshift, rgbeMantissa, BitVec.toNat_ofNat]
  generalize c / 2 ^ (141 + ec).toNat = m
  omega

/-- The exponent byte is the clamped exponent plus 128, which a byte holds. -/
theorem toNat_rgbeExponentByte (n : ℕ) :
    ((BitVec.ofNat 8 (rgbeExponentClamped n + 128).toNat).toNat : ℤ) = rgbeExponentClamped n + 128 := by
  have hlo := neg_128_le_rgbeExponentClamped n
  have hhi := rgbeExponentClamped_le_127 n
  rw [BitVec.toNat_ofNat]
  omega

theorem floatToRgbe_of_eq_zero {p : FloatPixel} (h : max (san p.r).units (max (san p.g).units (san p.b).units) = 0) :
    floatToRgbe p = ⟨0, 0, 0, 0⟩ := if_pos h

theorem floatToRgbe_of_ne_zero {p : FloatPixel} {n : ℕ} (h : max (san p.r).units (max (san p.g).units (san p.b).units) = n)
    (hn : n ≠ 0) :
    floatToRgbe p =
      ⟨rgbeMantissa (rgbeExponentClamped n) (san p.r).units, rgbeMantissa (rgbeExponentClamped n) (san p.g).units,
        rgbeMantissa (rgbeExponentClamped n) (san p.b).units, BitVec.ofNat 8 (rgbeExponentClamped n + 128).toNat⟩ := by
  subst h
  exact if_neg hn

/-! ### The command -/

theorem exec_f2rgbe (s : State) : exec .f2rgbe s = convert 12 4 true (fun m a => (floatToRgbe (m.floatAt a)).bytes) s := rfl

/-- Settles O36: the frame, and the pixel for a black and for a lit input. -/
theorem f2rgbeResult : Obligations.F2rgbeResult := by
  intro s hs
  obtain ⟨t, hexec, hdone, hblocks⟩ := hs.exec_spec (exec_f2rgbe s) rfl fun _ _ => Rgbe.bytes_length _
  refine ⟨t, hexec, hdone, fun i hi r g b => ?_⟩
  intro q p v ec hr hg hb
  have hp : p = floatToRgbe q := Memory.rgbeAt_of_readBytes (hblocks i hi)
  rw [isUnits_natCast_iff] at hr hg hb
  obtain ⟨n, hn⟩ : ∃ n, max (san q.r).units (max (san q.g).units (san q.b).units) = n := ⟨_, rfl⟩
  have hv : v = (n : ℝ) / 2 ^ 149 := by simp only [v, hr, hg, hb, max_units_div, hn]
  have hv0 : v = 0 ↔ n = 0 := by simp [hv]
  refine ⟨fun hblack => ?_, fun hlit => ?_⟩
  · rw [hp, floatToRgbe_of_eq_zero (hn.trans (hv0.mp hblack))]
  · have hn0 : n ≠ 0 := mt hv0.mpr hlit
    have hec : ec = rgbeExponentClamped n := by rw [rgbeExponentClamped_eq hn0, ← hv]
    have hlo := neg_128_le_rgbeExponentClamped n
    rw [hp, floatToRgbe_of_ne_zero hn hn0, hec, hr, hg, hb]
    exact ⟨toNat_rgbeExponentByte n, toNat_rgbeMantissa hlo _, toNat_rgbeMantissa hlo _, toNat_rgbeMantissa hlo _⟩

end Sys2Proof.Machine
end

section
/-!
PROOFS. `F2RGB9E5` (R230 to R234): the shared exponent before and after the one re-normalisation as the real formula of R230, the bounds
that let the four fields stand in one word, and O37 assembled from them and the frame.
-/

namespace Sys2Proof.Machine

/-! ### The shared exponent (R232, R233) -/

/-- The input clamp, 32768, in units (R231). -/
theorem min_units_div_clamp (n : ℕ) : min ((n : ℝ) / 2 ^ 149) 32768 = ((min n rgb9e5Clamp : ℕ) : ℝ) / 2 ^ 149 := by
  have hclamp : (32768 : ℝ) = (rgb9e5Clamp : ℝ) / 2 ^ 149 := by norm_num [rgb9e5Clamp]
  rw [hclamp, min_units_div]

theorem units_div_lt_tiny_iff (n : ℕ) : (n : ℝ) / 2 ^ 149 < (2 : ℝ) ^ (-16 : ℤ) ↔ n < 2 ^ 133 := by
  rw [zpow_eq_units_div (k := 133) (by norm_num), div_lt_div_iff_of_pos_right (by positivity), Nat.cast_lt]

theorem le_log2_of_not_tiny {n : ℕ} (h : ¬ n < 2 ^ 133) : 133 ≤ Nat.log2 n :=
  (Nat.le_log2 (by omega)).mpr (Nat.not_lt.mp h)

theorem sharedExponent_eq (n : ℕ) :
    (sharedExponent n : ℤ) =
      if (n : ℝ) / 2 ^ 149 < (2 : ℝ) ^ (-16 : ℤ) then 0 else ⌊Real.logb 2 ((n : ℝ) / 2 ^ 149)⌋ + 16 := by
  simp only [units_div_lt_tiny_iff, sharedExponent]
  split
  case isTrue => rfl
  case isFalse hlarge =>
    have hlog := le_log2_of_not_tiny hlarge
    rw [floor_logb_units_div (by omega)]
    omega

theorem finalExponent_eq (n : ℕ) :
    (finalExponent n : ℤ) =
      if 511 < ⌊(n : ℝ) / 2 ^ 149 / (2 : ℝ) ^ ((sharedExponent n : ℤ) - 24) + 1 / 2⌋ then (sharedExponent n : ℤ) + 1
      else sharedExponent n := by
  rw [floor_units_div_zpow_add_half n (k := 125 + sharedExponent n) (by omega), finalExponent]
  norm_cast

/-! ### Bounds of the fields (R97, R234) -/

theorem rhuDiv_le_of_lt {n k c : ℕ} (h : n < c * 2 ^ k) : rhuDiv n k ≤ c := by
  refine Nat.lt_succ_iff.mp (Nat.div_lt_of_lt_mul ?_)
  calc 2 * n + 2 ^ k < 2 * (c * 2 ^ k) + 2 * 2 ^ k := by omega
    _ = 2 ^ (k + 1) * (c + 1) := by ring

theorem rhuDiv_mono {m n : ℕ} (h : m ≤ n) (k : ℕ) : rhuDiv m k ≤ rhuDiv n k :=
  Nat.div_le_div_right (by omega)

theorem lt_pow_sharedExponent (n : ℕ) : n < 2 ^ (134 + sharedExponent n) := by
  rw [sharedExponent]
  split
  case isTrue hsmall => exact hsmall.trans (by norm_num)
  case isFalse hlarge =>
    have hlog := le_log2_of_not_tiny hlarge
    have hexp : 134 + (Nat.log2 n - 133) = Nat.log2 n + 1 := by omega
    rw [hexp]
    exact Nat.lt_log2_self

/-- One re-normalisation is enough: the largest channel then fits in 9 bits. -/
theorem rhuDiv_finalExponent_le (n : ℕ) : rhuDiv n (125 + finalExponent n) ≤ 511 := by
  rw [finalExponent]
  split
  case isFalse hfits => exact Nat.not_lt.mp hfits
  case isTrue =>
    have hn : n < 256 * 2 ^ (125 + (sharedExponent n + 1)) := by
      calc n < 2 ^ (134 + sharedExponent n) := lt_pow_sharedExponent n
        _ = 256 * 2 ^ (125 + (sharedExponent n + 1)) := by ring
    exact (rhuDiv_le_of_lt hn).trans (by norm_num)

/-- The clamp keeps the exponent in 5 bits: only the clamp value itself has 31 before re-normalisation, and needs none. -/
theorem finalExponent_le {n : ℕ} (hn : n ≤ rgb9e5Clamp) : finalExponent n ≤ 31 := by
  rw [rgb9e5Clamp] at hn
  have hshared : sharedExponent n ≤ 31 := by
    rw [sharedExponent]
    split
    case isTrue => exact Nat.zero_le _
    case isFalse hlarge =>
      have hlog : Nat.log2 n < 165 := (Nat.log2_lt (by omega)).mpr (by omega)
      omega
  rcases Nat.lt_or_eq_of_le hshared with hlt | htop
  · rw [finalExponent]
    split <;> omega
  · have hround : rhuDiv n (125 + sharedExponent n) ≤ 257 := by
      rw [htop]
      exact rhuDiv_le_of_lt (by omega)
    have hfinal : finalExponent n = sharedExponent n := if_neg (by omega)
    rw [hfinal, htop]

/-! ### The word (R97) -/

/-- Four fields in one word, as `floatToRgb9e5` packs them, are read back one by one. -/
theorem fields_pack_rgb9e5 {r g b e : ℕ} (hr : r ≤ 511) (hg : g ≤ 511) (hb : b ≤ 511) (he : e ≤ 31) {w : Word}
    (hw : w = BitVec.ofNat 32 (r * 2 ^ 23 + g * 2 ^ 14 + b * 2 ^ 5 + e)) : e5 w = e ∧ r9 w = r ∧ g9 w = g ∧ b9 w = b := by
  have hnat : w.toNat = r * 2 ^ 23 + g * 2 ^ 14 + b * 2 ^ 5 + e := by
    rw [hw, BitVec.toNat_ofNat]
    omega
  simp only [e5, r9, g9, b9, hnat]
  omega

theorem fields_floatToRgb9e5 {p : FloatPixel} {r g b n : ℕ} (hr : min (san p.r).units rgb9e5Clamp = r)
    (hg : min (san p.g).units rgb9e5Clamp = g) (hb : min (san p.b).units rgb9e5Clamp = b) (hn : max r (max g b) = n) :
    let w := floatToRgb9e5 p
    let k := 125 + finalExponent n
    e5 w = finalExponent n ∧ r9 w = rhuDiv r k ∧ g9 w = rhuDiv g k ∧ b9 w = rhuDiv b k := by
  subst hr hg hb
  have hclamp : n ≤ rgb9e5Clamp := by omega
  have htop := rhuDiv_finalExponent_le n
  refine fields_pack_rgb9e5 ?_ ?_ ?_ (finalExponent_le hclamp) (by rw [floatToRgb9e5, hn])
  all_goals exact (rhuDiv_mono (by omega) _).trans htop

/-! ### The command -/

theorem exec_f2rgb9e5 (s : State) : exec .f2rgb9e5 s = convert 12 4 true (fun m a => leBytes (floatToRgb9e5 (m.floatAt a))) s := rfl

/-- Settles O37: the frame, and the four fields of the word. -/
theorem f2rgb9e5Result : Obligations.F2rgb9e5Result := by
  intro s hs
  obtain ⟨t, hexec, hdone, hblocks⟩ := hs.exec_spec (exec_f2rgb9e5 s) rfl fun _ _ => leBytes_length _
  refine ⟨t, hexec, hdone, fun i hi x y z => ?_⟩
  intro q u hx hy hz r g b maxC es0 es denom
  have hu : u = floatToRgb9e5 q := Memory.readWord_of_readBytes (hblocks i hi)
  rw [isUnits_natCast_iff] at hx hy hz
  obtain ⟨nr, hnr⟩ : ∃ n, min (san q.r).units rgb9e5Clamp = n := ⟨_, rfl⟩
  obtain ⟨ng, hng⟩ : ∃ n, min (san q.g).units rgb9e5Clamp = n := ⟨_, rfl⟩
  obtain ⟨nb, hnb⟩ : ∃ n, min (san q.b).units rgb9e5Clamp = n := ⟨_, rfl⟩
  obtain ⟨n, hn⟩ : ∃ n, max nr (max ng nb) = n := ⟨_, rfl⟩
  have hr : r = (nr : ℝ) / 2 ^ 149 := by simp only [r, hx, min_units_div_clamp, hnr]
  have hg : g = (ng : ℝ) / 2 ^ 149 := by simp only [g, hy, min_units_div_clamp, hng]
  have hb : b = (nb : ℝ) / 2 ^ 149 := by simp only [b, hz, min_units_div_clamp, hnb]
  have hmaxC : maxC = (n : ℝ) / 2 ^ 149 := by simp only [maxC, hr, hg, hb, max_units_div, hn]
  have hes0 : es0 = sharedExponent n := by rw [sharedExponent_eq, ← hmaxC]
  have hes : es = finalExponent n := by rw [finalExponent_eq, ← hmaxC, ← hes0]
  have hdenom : ((125 + finalExponent n : ℕ) : ℤ) = es - 24 + 149 := by omega
  obtain ⟨he5, hr9, hg9, hb9⟩ := fields_floatToRgb9e5 hnr hng hnb hn
  rw [hu, he5, hr9, hg9, hb9, hr, hg, hb]
  exact ⟨hes.symm, (floor_units_div_zpow_add_half nr hdenom).symm, (floor_units_div_zpow_add_half ng hdenom).symm,
    (floor_units_div_zpow_add_half nb hdenom).symm⟩

end Sys2Proof.Machine
end

section
/-!
PROOFS. The worked examples of the converters (R213, R228, R236, R243), the pixel functions run on the spec's own bytes.
-/

namespace Sys2Proof.Machine

/-- Settles O48: one closed evaluation for each example. -/
theorem converterExamples : Obligations.ConverterExamples :=
  ⟨by decide +kernel, by decide +kernel, by decide +kernel, by decide +kernel⟩

end Sys2Proof.Machine
end

section
/-!
PROOFS. The decode orchestrator (R290 to R300): the issue checks of `DHDR`, which are the region checks alone (O16), and its worked example
(O49), run token by token: the host's write, the issue, the header, a literal pixel, and the marker that repeats it.
-/

namespace Sys2Proof.Machine

/-! ### The issue checks of `DHDR` (R294) -/

/-- Legal regions let `DHDR` go on to its header; else it fails as any command does at its issue. -/
theorem Issued.exec_dhdr_eq {s : State} (hs : Issued s) :
    exec .dhdr s = .next
      (if s.regs.regionsOk = true then
        { s with run := some { phase := .header true .s0, staged := Staged.atHeader s.regs, disturbed := false } }
      else failedState s .badOperand) := by
  by_cases hregions : s.regs.regionsOk = true
  · rw [if_pos hregions]
    simp [exec, execDhdr, hregions, State.start, hs.disturbed_eq_false]
  · rw [if_neg hregions, ← hs.raise_eq]
    exact execDhdr_of_regionsOk_eq_false (Bool.eq_false_iff.mpr hregions)

/-- Settles O16: the region checks in the terms of R68 decide between the two outcomes. -/
theorem dhdrIssueChecks : Obligations.DhdrIssueChecks := by
  refine fun s hs => ⟨fun hlegal => ?_, fun hillegal => ?_⟩
  · rw [hs.exec_dhdr_eq, if_pos ((Regs.regionsOk_iff _).mpr hlegal)]
    rfl
  · rw [hs.exec_dhdr_eq, if_neg (mt (Regs.regionsOk_iff _).mp hillegal)]
    rfl

/-! ### The steps of a running command -/

theorem leadsTo_succ {k : Nat} {s t u : State} (hst : step s = .next t) (htu : leadsTo k t u) : leadsTo (k + 1) s u := by
  simpa [leadsTo, Host.Core.run, core, hst] using htu

/-- A command whose source region lies in memory runs the instruction that stands in its place (R27, R113). -/
theorem step_eq_exec_of_decode {s : State} {r : Run} {i : Instr} (hrun : s.run = some r) (hinputs : s.inputs = [])
    (hfits : s.regs.srcFits = true) (hdec : decode r.phase.place (fetchCode r s) = .ok i) : step s = exec i s := by
  have hfetch : fetch r s = .run i := by simp [fetch, hfits, hdec]
  rw [step_engine s hinputs, engineStep_running s r hrun, hfetch]
  rfl

/-- A header that parses, in `DHDR`, with a destination that holds the image: the scanlines follow (R291 to R293). -/
theorem exec_hdr_of_parsed {s : State} {hs : HState} {st : Staged} {d : Bool} {text : List Byte} {h w : Nat}
    (hrun : s.run = some { phase := .header true hs, staged := st, disturbed := d }) (hparse : parseHeader hs text = .ok (h, w))
    (hcapacity : 4 * w * h ≤ s.regs.dstLen.toNat) :
    exec (.hdr text) s = .next
      { s with
        run := some { phase := .line (some h) .start, staged := stageHeader st text.length h w, disturbed := d } } := by
  simp [exec, execHdr, hrun, hparse, startImage, hcapacity]

/-! ### The worked example (R155, R300) -/

namespace DecodeExample

/-- The 45 bytes of R155. -/
def header : List Byte :=
  [0x23, 0x3F, 0x52, 0x41, 0x44, 0x49, 0x41, 0x4E, 0x43, 0x45, 0x0A,
    0x46, 0x4F, 0x52, 0x4D, 0x41, 0x54, 0x3D, 0x33, 0x32, 0x2D, 0x62, 0x69, 0x74, 0x5F, 0x72, 0x6C, 0x65, 0x5F,
    0x72, 0x67, 0x62, 0x65, 0x0A, 0x0A, 0x2D, 0x59, 0x20, 0x31, 0x20, 0x2B, 0x58, 0x20, 0x32, 0x0A]

/-- The one pixel of the image, which the stream holds once. -/
def pixel : Rgbe := ⟨0x0A, 0x14, 0x1E, 0x81⟩

/-- The whole stream: the header, the pixel, and a marker for three copies of it. -/
def stream : List Byte := header ++ (pixel.bytes ++ [0x01, 0x01, 0x01, 0x03])

/-- The machine with the stream and the operands in place, and no host move pending. -/
def loaded : State :=
  { State.reset with
    regs := { State.reset.regs with srcLen := 53, dstAddr := 64, dstLen := 8 }
    mem := State.reset.mem.writeBytes 0 stream }

/-- `DHDR` at work on the example, with a phase, staged registers and a memory. -/
def running (phase : Phase) (staged : Staged) (mem : Memory) : State :=
  { loaded.issue 3 with mem := mem, run := some { phase := phase, staged := staged, disturbed := false } }

/-- What the header stages: two pixels in one scanline, and the cursor after the 45 bytes (R152). -/
def afterHeader : Staged := stageHeader (Staged.atHeader (loaded.issue 3).regs) 45 1 2

/-- What the literal pixel stages (R185). -/
def afterPixel : Staged := (afterHeader.skip 4).emitted [pixel]

/-- Memory once the first pixel is stored. -/
def pixelStored : Memory := loaded.mem.writeBytes 64 (pixelBytes [pixel])

/-- The end of the example: the marker has brought the second pixel, which ends the only scanline and so the command. -/
def final : State := scanlineDone (some 1) (afterPixel.skip 4) [pixel] (running (.line (some 1) (.old 1 0)) afterPixel pixelStored)

theorem step_issue : step { loaded with inputs := [.write 6 3] } = .next (loaded.issue 3) := step_write_cmd rfl rfl

theorem issued : Issued (loaded.issue 3) := issued_issue 3 rfl

/-- While it runs, the example runs what the decoder reads at its place. -/
theorem step_running {phase : Phase} {staged : Staged} {mem : Memory} {i : Instr}
    (hdec : decode phase.place (fetchCode ⟨phase, staged, false⟩ (running phase staged mem)) = .ok i) :
    step (running phase staged mem) = exec i (running phase staged mem) := by
  have hfits : (loaded.issue 3).regs.srcFits = true := by decide +kernel
  exact step_eq_exec_of_decode rfl rfl hfits hdec

theorem step_dhdr :
    step (loaded.issue 3) = .next (running (.header true .s0) (Staged.atHeader (loaded.issue 3).regs) loaded.mem) := by
  have hregions : (loaded.issue 3).regs.regionsOk = true := by decide +kernel
  rw [issued.step_eq_exec rfl, issued.exec_dhdr_eq, if_pos hregions]
  rfl

theorem step_header :
    step (running (.header true .s0) (Staged.atHeader (loaded.issue 3).regs) loaded.mem) =
      .next (running (.line (some 1) .start) afterHeader loaded.mem) := by
  have hparse : parseHeader .s0 header = .ok (1, 2) := rfl
  rw [step_running (i := .hdr header) rfl, exec_hdr_of_parsed rfl hparse (by decide +kernel)]
  rfl

/-- The first pixel leaves the scanline one pixel short of its width. -/
theorem step_pixel :
    step (running (.line (some 1) .start) afterHeader loaded.mem) =
      .next (running (.line (some 1) (.old 1 0)) afterPixel pixelStored) := by
  rw [step_running (i := .osPix 0x0A 0x14 0x1E 0x81) rfl,
    exec_osPix_of_counters (em := 0) (sh := 0) _ _ _ _ rfl rfl]
  exact emitThen_oldRest_of_lt (em := 1) (some 1) 0 (by decide +kernel) (by decide +kernel)

/-- The marker asks for three copies and the scanline takes the one it lacks (R186). -/
theorem step_marker : step (running (.line (some 1) (.old 1 0)) afterPixel pixelStored) = .next final := by
  rw [step_running (i := .osMark 3) rfl, exec_osMark_of_counters (em := 1) (sh := 0) _ rfl rfl]
  exact emitThen_oldRest_of_le (em := 2) (some 1) 8 (by decide +kernel) rfl rfl (by decide +kernel)

/-- The two pixels stand one behind the other. -/
theorem final_mem : final.mem = loaded.mem.writeBytes 64 (pixelBytes [pixel, pixel]) :=
  (Memory.writeBytes_append loaded.mem 64 (pixelBytes [pixel]) (pixelBytes [pixel])).symm

end DecodeExample

open DecodeExample in
/-- Settles O49: the host's write and the four engine steps, then the two pixels read back. -/
theorem decodeExample : Obligations.DecodeExample := by
  have hsteps : leadsTo 5 { loaded with inputs := [.write 6 3] } final :=
    leadsTo_succ step_issue <| leadsTo_succ step_dhdr <| leadsTo_succ step_header <| leadsTo_two step_pixel step_marker
  refine ⟨final, hsteps, rfl, by decide +kernel, ?_⟩
  rw [final_mem]
  exact Memory.readBytes_writeBytes loaded.mem 64 (pixelBytes [pixel, pixel])

end Sys2Proof.Machine
end

section
/-!
PROOFS. What a failure commits (R312, R320): one inversion lemma for the engine's step, which goes on, fails or finishes; the end of a
command that nobody disturbed, by induction on its steps; and O56 read off from it.
-/

namespace Sys2Proof.Machine

/-! ### What a step of a running command can do -/

/-- The three ways a step of a running command can answer: the command goes on with its registers as they were, it fails by `raise`
(R312), or it ends by `done` (R311). -/
inductive EngineMove (s : State) : State → Prop
  | goesOn (m : Memory) (r : Run) (h : r.disturbed = s.disturbed) : EngineMove s { s with mem := m, run := some r }
  | fails (k : FailKind) : EngineMove s (s.raise k)
  | finishes (m : Memory) (regs : Regs) : EngineMove s (State.finish { s with mem := m } regs)

theorem EngineMove.start (s : State) (ph : Phase) (st : Staged) : EngineMove s (s.start ph st) :=
  .goesOn s.mem _ rfl

/-! ### The commands at their issue -/

theorem execHdrp_engineMove {s t : State} (h : execHdrp s = .next t) : EngineMove s t := by
  unfold execHdrp at h
  split at h <;> cases h
  · exact .start ..
  · exact .fails _

theorem execDhdr_engineMove {s t : State} (h : execDhdr s = .next t) : EngineMove s t := by
  unfold execDhdr at h
  split at h <;> cases h
  · exact .start ..
  · exact .fails _

theorem execScan_engineMove {s t : State} (h : execScan s = .next t) : EngineMove s t := by
  unfold execScan at h
  split at h <;> cases h
  · exact .fails _
  · exact .start ..

theorem convert_engineMove {s t : State} {strideIn strideOut : Nat} {ok : Bool} {pixel : Memory → Nat → List Byte}
    (h : convert strideIn strideOut ok pixel s = .next t) : EngineMove s t := by
  rw [convert_eq] at h
  split at h <;> cases h
  · exact .finishes ..
  · exact .fails _

/-! ### The tokens -/

theorem startImage_engineMove {s : State} {r : Run} (hr : r.disturbed = s.disturbed) (st : Staged) (w h : Nat) :
    EngineMove s (startImage r st w h s) := by
  unfold startImage
  split
  · exact .goesOn s.mem _ hr
  · exact .fails _

theorem execHdr_engineMove {s t : State} {text : List Byte} (h : execHdr text s = .next t) : EngineMove s t := by
  unfold execHdr at h
  split at h
  case h_2 => cases h
  case h_1 hrun =>
    split at h
    case h_1 => cases h; exact .fails _
    case h_2 =>
      split at h <;> cases h
      · exact startImage_engineMove (State.disturbed_of_run hrun).symm ..
      · exact .finishes s.mem _

theorem execNsSig_engineMove {s t : State} {width16 : BitVec 15} (h : execNsSig width16 s = .next t) : EngineMove s t := by
  unfold execNsSig at h
  split at h
  case h_2 => cases h
  case h_1 hrun =>
    split at h <;> cases h
    · exact .goesOn s.mem _ (State.disturbed_of_run hrun).symm
    · exact .fails _

theorem endLine_engineMove {s : State} {r : Run} (rc : Option Nat) (m : Memory) (hr : r.disturbed = s.disturbed) :
    EngineMove s (endLine rc r { s with mem := m }) := by
  rcases endLine_cases rc r { s with mem := m } with ⟨n, -, heq⟩ | ⟨-, heq⟩
  · rw [heq]; exact .goesOn m _ hr
  · rw [heq]; exact .finishes m _

theorem emitThen_engineMove {s t : State} {r : Run} {px : List Rgbe} {rc : Option Nat} {rest : Option LinePos}
    (h : emitThen px rc rest r s = .next t) (hr : r.disturbed = s.disturbed) : EngineMove s t := by
  rw [emitThen_eq] at h
  split at h <;> cases h
  cases rest with
  | some lp => exact .goesOn _ _ hr
  | none => exact endLine_engineMove (r := { r with staged := r.staged.emitted px }) rc _ hr

theorem planeToken_engineMove {s t : State} {r : Run} (hrun : s.run = some r) {rc : Option Nat} {c : Chan} {tmp : Planes} {n : Nat}
    {bs : List Byte} (h : planeToken rc c tmp n bs r s = .next t) : EngineMove s t := by
  have hr : r.disturbed = s.disturbed := (State.disturbed_of_run hrun).symm
  rcases planeToken_cases rc c tmp n bs r s with ⟨-, heq⟩ | ⟨-, c', -, heq⟩ | ⟨-, -, heq⟩ <;> rw [heq] at h
  · cases h; exact .goesOn s.mem _ hr
  · cases h; exact .goesOn s.mem _ hr
  · exact emitThen_engineMove h hr

theorem execNsRun_engineMove {s t : State} {n : BitVec 7} {v : Byte} (h : execNsRun n v s = .next t) : EngineMove s t := by
  unfold execNsRun at h
  split at h
  case h_1 hrun => exact planeToken_engineMove hrun h
  case h_2 => cases h

theorem execNsLit_engineMove {s t : State} {data : List Byte} (h : execNsLit data s = .next t) : EngineMove s t := by
  unfold execNsLit at h
  split at h
  case h_1 hrun => exact planeToken_engineMove hrun h
  case h_2 => cases h

theorem execNsNop0_engineMove {s t : State} (h : execNsNop0 s = .next t) : EngineMove s t := by
  unfold execNsNop0 at h
  split at h
  case h_1 hrun => exact planeToken_engineMove hrun h
  case h_2 => cases h

theorem execOsPix_engineMove {s t : State} {r g b e : Byte} (h : execOsPix r g b e s = .next t) : EngineMove s t := by
  unfold execOsPix at h
  split at h
  case h_2 => cases h
  case h_1 hrun =>
    split at h
    · exact emitThen_engineMove h (State.disturbed_of_run hrun).symm
    · cases h

theorem execOsMark_engineMove {s t : State} {e : Byte} (h : execOsMark e s = .next t) : EngineMove s t := by
  unfold execOsMark at h
  split at h
  case h_2 => cases h
  case h_1 hrun =>
    split at h
    · exact emitThen_engineMove h (State.disturbed_of_run hrun).symm
    · cases h

/-! ### The engine -/

theorem exec_engineMove {s t : State} {i : Instr} (h : exec i s = .next t) : EngineMove s t := by
  cases i with
  | hdrp => exact execHdrp_engineMove h
  | scan => exact execScan_engineMove h
  | dhdr => exact execDhdr_engineMove h
  | rgbe2f | f2rgbe | f2rgb9e5 | rgb9e52f | rgbe2ldr | f2ldr => exact convert_engineMove h
  | hdr => exact execHdr_engineMove h
  | nsSig => exact execNsSig_engineMove h
  | osMark => exact execOsMark_engineMove h
  | osPix => exact execOsPix_engineMove h
  | nsNop0 => exact execNsNop0_engineMove h
  | nsRun => exact execNsRun_engineMove h
  | nsLit => exact execNsLit_engineMove h

theorem engineStep_engineMove {s t : State} {r : Run} (hrun : s.run = some r) (h : engineStep s = .next t) : EngineMove s t := by
  rw [engineStep_running s r hrun] at h
  cases hfetch : fetch r s with
  | run i => rw [hfetch] at h; exact exec_engineMove h
  | failure k => rw [hfetch] at h; cases h; exact .fails k
  | stop e => rw [hfetch] at h; cases h

/-! ### The registers at the end of a command -/

/-- A failure of a command that nobody disturbed touches `STATUS` and `ERRCODE` alone, in a scanline and before (R320). -/
theorem State.raise_regs {s : State} (k : FailKind) (h : s.disturbed = false) : (s.raise k).regs = s.regs.withOutcome k.code := by
  rw [State.raise_eq s k h]
  split
  · simp [failedInScanlines, failedState]
  · rfl

theorem State.finish_errcode {s : State} (regs : Regs) (h : s.disturbed = false) : (s.finish regs).regs.errcode = 0 := by
  simp [State.finish_eq s regs h]

/-- The outcomes of a command that runs with the registers `regs`: success, or a failure that leaves `regs` as they were but for
`STATUS` and `ERRCODE`. -/
def EndsCleanly (regs final : Regs) : Prop := final.errcode = 0 ∨ ∃ k : FailKind, final = regs.withOutcome k.code

theorem EngineMove.inputs_eq {s t : State} (h : EngineMove s t) : t.inputs = s.inputs := by
  cases h with
  | goesOn m r hr => rfl
  | fails k => exact State.raise_inputs s k
  | finishes m regs => exact State.finish_inputs _ regs

/-- A step of a command that nobody disturbed ends it cleanly, or goes on undisturbed with the same registers. -/
theorem EngineMove.undisturbed_cases {s t : State} (h : EngineMove s t) (hs : s.disturbed = false) :
    (t.run = none ∧ EndsCleanly s.regs t.regs) ∨
      (t.run ≠ none ∧ t.disturbed = false ∧ t.regs = s.regs) := by
  cases h with
  | goesOn m r hr => exact .inr ⟨Option.some_ne_none r, hr.trans hs, rfl⟩
  | fails k => exact .inl ⟨State.raise_run s k, .inr ⟨k, State.raise_regs k hs⟩⟩
  | finishes m regs => exact .inl ⟨State.finish_run _ regs, .inl (State.finish_errcode regs hs)⟩

/-! ### Runs of the machine -/

theorem eq_of_leadsTo_zero {s t : State} (h : leadsTo 0 s t) : t = s := by
  cases h; rfl

theorem exists_step_of_leadsTo_succ {k : Nat} {s t : State} (h : leadsTo (k + 1) s t) :
    ∃ u, step s = .next u ∧ leadsTo k u t := by
  cases hstep : step s with
  | next u => exact ⟨u, rfl, by simpa [leadsTo, Host.Core.run, core, hstep] using h⟩
  | fault e => simp [leadsTo, Host.Core.run, core, hstep] at h
  | refused e => simp [leadsTo, Host.Core.run, core, hstep] at h

/-- An idle machine on which the host makes no move stays as it is (R353). -/
theorem eq_of_leadsTo_of_idle {k : Nat} {s t : State} (hidle : s.run = none) (hinputs : s.inputs = []) (h : leadsTo k s t) : t = s := by
  induction k with
  | zero => exact eq_of_leadsTo_zero h
  | succ k ih =>
    obtain ⟨u, hstep, hrest⟩ := exists_step_of_leadsTo_succ h
    rw [step_engine s hinputs, engineStep_idle s hidle] at hstep
    cases hstep
    exact ih hrest

/-- By induction on the steps: until its last one a command keeps the registers, so what that one leaves is said of the first ones. -/
theorem endsCleanly_of_leadsTo {k : Nat} {s t : State} (hrun : s.run ≠ none) (hs : s.disturbed = false) (hinputs : s.inputs = [])
    (h : leadsTo k s t) (ht : t.run = none) : EndsCleanly s.regs t.regs := by
  induction k generalizing s with
  | zero => exact absurd (eq_of_leadsTo_zero h ▸ ht) hrun
  | succ k ih =>
    obtain ⟨r, hr⟩ := Option.ne_none_iff_exists'.mp hrun
    obtain ⟨u, hstep, hrest⟩ := exists_step_of_leadsTo_succ h
    rw [step_engine s hinputs] at hstep
    have hmove : EngineMove s u := engineStep_engineMove hr hstep
    have huinputs : u.inputs = [] := hmove.inputs_eq.trans hinputs
    rcases hmove.undisturbed_cases hs with ⟨hidle, hclean⟩ | ⟨hgoes, hu, hregs⟩
    · rw [eq_of_leadsTo_of_idle hidle huinputs hrest]
      exact hclean
    · exact hregs ▸ ih hgoes hu huinputs hrest

/-! ### The statement -/

theorem FailKind.code_ne_zero (k : FailKind) : k.code ≠ 0 := by
  cases k <;> decide

theorem FailKind.code_le_six (k : FailKind) : k.code ≤ 6 := by
  cases k <;> decide

/-- Settles O56: a command issued by the host runs undisturbed, so it ends cleanly; the code of a failure kind is not 0 and at most 6. -/
theorem failureCommitsNothing : Obligations.FailureCommitsNothing := by
  intro s c t ⟨hidle, hinputs, ht, k, hsteps⟩ herr
  have hclean : EndsCleanly (s.issue c).regs t.regs := endsCleanly_of_leadsTo (Option.some_ne_none _) rfl hinputs hsteps ht
  obtain hsuccess | ⟨kind, hfail⟩ := hclean
  · exact absurd hsuccess herr
  · rw [hfail]
    refine ⟨?_, ?_⟩
    · simp [Regs.withOutcome, kind.code_ne_zero, statusFailed]
    · exact (Nat.mod_le _ _).trans kind.code_le_six

end Sys2Proof.Machine
end

section
/-!
PROOFS. The end of a header (R100, R142): the automaton of R142 read from each of its states, the shortest beginning of the bytes that ends with the
terminator pattern, and O3 assembled from them.
-/

namespace Sys2Proof.Machine

/-! ### The terminator pattern -/

/-- A byte in front of a text makes a new terminator pattern only as the first `LF` of it. -/
theorem endsWithTerminator_cons_iff (b : Byte) (t : List Byte) :
    EndsWithTerminator (b :: t) ↔
      EndsWithTerminator t ∨ b = lf ∧ ∃ line, t = lf :: line ++ [lf] ∧ line ≠ [] ∧ lf ∉ line := by
  constructor
  · rintro ⟨before, line, htext, hne, hline⟩
    cases before with
    | nil =>
      simp only [List.nil_append, List.cons_append, List.cons.injEq] at htext
      exact .inr ⟨htext.1, line, htext.2, hne, hline⟩
    | cons x before =>
      simp only [List.cons_append, List.cons.injEq] at htext
      exact .inl ⟨before, line, htext.2, hne, hline⟩
  · rintro (⟨before, line, rfl, hne, hline⟩ | ⟨rfl, line, rfl, hne, hline⟩)
    · exact ⟨b :: before, line, rfl, hne, hline⟩
    · exact ⟨[], line, rfl, hne, hline⟩

theorem not_endsWithTerminator_nil : ¬ EndsWithTerminator [] := by
  rintro ⟨before, line, htext, -, -⟩
  simp at htext

/-- The rest of a line after its first byte: it ends with the `LF` of the line. -/
theorem exists_line_cons_iff {b : Byte} {t : List Byte} (hb : b ≠ lf) :
    (∃ line, b :: t = line ++ [lf] ∧ line ≠ [] ∧ lf ∉ line) ↔ ∃ line, t = line ++ [lf] ∧ lf ∉ line := by
  constructor
  · rintro ⟨line, htext, hne, hline⟩
    obtain ⟨x, line, rfl⟩ := List.exists_cons_of_ne_nil hne
    simp only [List.cons_append, List.cons.injEq] at htext
    exact ⟨line, htext.2, fun h => hline (List.mem_cons_of_mem _ h)⟩
  · rintro ⟨line, rfl, hline⟩
    exact ⟨b :: line, rfl, List.cons_ne_nil _ _, List.not_mem_cons_of_ne_of_not_mem (Ne.symm hb) hline⟩

/-- No line of more than its `LF` begins with one. -/
theorem not_exists_line_lf_cons (t : List Byte) : ¬ ∃ line, lf :: t = line ++ [lf] ∧ line ≠ [] ∧ lf ∉ line := by
  rintro ⟨line, htext, hne, hline⟩
  obtain ⟨x, line, rfl⟩ := List.exists_cons_of_ne_nil hne
  simp only [List.cons_append, List.cons.injEq] at htext
  exact hline (htext.1 ▸ List.mem_cons_self)

/-! ### The automaton's states -/

/-- `t` completes the terminator pattern, read on from a state of the automaton: the state stands for the `LF`s just passed, and `s3` for
being in the line that may end the header (R142). -/
def EndsFrom : HState → List Byte → Prop
  | .s0, t => EndsWithTerminator t
  | .s1, t => EndsWithTerminator (lf :: t)
  | .s2, t => EndsWithTerminator (lf :: lf :: t)
  | .s3, t => EndsWithTerminator t ∨ ∃ line, t = line ++ [lf] ∧ lf ∉ line

theorem not_endsFrom_nil (hs : HState) : ¬ EndsFrom hs [] := by
  cases hs <;> simp [EndsFrom, endsWithTerminator_cons_iff, not_endsWithTerminator_nil]

theorem endsFrom_s3_lf : EndsFrom .s3 [lf] := .inr ⟨[], rfl, List.not_mem_nil⟩

/-- A byte that does not accept leads to the automaton's next state. -/
theorem endsFrom_cons_iff {hs : HState} {b : Byte} (hmore : ¬ (hs = .s3 ∧ b = lf)) (t : List Byte) :
    EndsFrom hs (b :: t) ↔ EndsFrom (HState.next hs (b = lf)) t := by
  by_cases hb : b = lf
  · subst hb
    cases hs with
    | s0 => simp [EndsFrom, HState.next]
    | s1 => simp [EndsFrom, HState.next]
    | s2 =>
      have hline := not_exists_line_lf_cons t
      simp only [EndsFrom, HState.next, decide_true, endsWithTerminator_cons_iff lf (lf :: lf :: t), true_and]
      refine or_iff_left ?_
      rintro ⟨line, htext, hrest⟩
      exact hline ⟨line, (List.cons.inj htext).2, hrest⟩
    | s3 => exact absurd ⟨rfl, rfl⟩ hmore
  · have hline := exists_line_cons_iff (t := t) hb
    cases hs with
    | s0 => simp [EndsFrom, HState.next, hb, endsWithTerminator_cons_iff]
    | s1 => simp [EndsFrom, HState.next, hb, endsWithTerminator_cons_iff]
    | s2 => simpa [EndsFrom, HState.next, hb, endsWithTerminator_cons_iff] using or_congr_right hline
    | s3 =>
      have hlast : (∃ line, b :: t = line ++ [lf] ∧ lf ∉ line) ↔ ∃ line, t = line ++ [lf] ∧ lf ∉ line := by
        rw [← hline]
        refine exists_congr fun line => and_congr_right fun htext => (and_iff_right ?_).symm
        rintro rfl
        exact hb (List.cons.inj htext).1
      simp [EndsFrom, HState.next, hb, endsWithTerminator_cons_iff, hlast]

/-! ### `FindTerminator` -/

theorem headerLength_cons_of_accepts {hs : HState} {b : Byte} (h : hs = .s3 ∧ b = lf) (bs : List Byte) :
    headerLength hs (b :: bs) = some 1 := if_pos h

theorem headerLength_cons_of_not_accepts {hs : HState} {b : Byte} (h : ¬ (hs = .s3 ∧ b = lf)) (bs : List Byte) :
    headerLength hs (b :: bs) = (headerLength (HState.next hs (b = lf)) bs).map (· + 1) := if_neg h

/-- From every state, `FindTerminator` answers the length of the shortest beginning that completes the pattern (R142). -/
theorem headerLength_eq_some_iff (hs : HState) (bs : List Byte) (n : Nat) :
    headerLength hs bs = some n ↔ n ≤ bs.length ∧ EndsFrom hs (bs.take n) ∧ ∀ m, m < n → ¬ EndsFrom hs (bs.take m) := by
  induction bs generalizing hs n with
  | nil => simp [headerLength, not_endsFrom_nil]
  | cons b bs ih =>
    by_cases haccepts : hs = .s3 ∧ b = lf
    · rw [headerLength_cons_of_accepts haccepts, Option.some_inj]
      obtain ⟨rfl, rfl⟩ := haccepts
      constructor
      · rintro rfl
        refine ⟨by simp, by simpa using endsFrom_s3_lf, fun m hm => ?_⟩
        rw [Nat.lt_one_iff.mp hm]
        exact not_endsFrom_nil _
      · rintro ⟨-, hends, hshort⟩
        rcases Nat.lt_trichotomy n 1 with hlt | rfl | hgt
        · rw [Nat.lt_one_iff.mp hlt] at hends
          exact absurd hends (not_endsFrom_nil _)
        · rfl
        · exact absurd (by simpa using endsFrom_s3_lf) (hshort 1 hgt)
    · rw [headerLength_cons_of_not_accepts haccepts, Option.map_eq_some_iff]
      constructor
      · rintro ⟨n, hn, rfl⟩
        obtain ⟨hle, hends, hshort⟩ := (ih _ n).mp hn
        refine ⟨by simpa using hle, (endsFrom_cons_iff haccepts _).mpr hends, fun m hm => ?_⟩
        cases m with
        | zero => exact not_endsFrom_nil _
        | succ m => exact mt (endsFrom_cons_iff haccepts _).mp (hshort m (by omega))
      · rintro ⟨hle, hends, hshort⟩
        cases n with
        | zero => exact absurd hends (not_endsFrom_nil _)
        | succ n =>
          refine ⟨n, (ih _ n).mpr ⟨by simpa using hle, (endsFrom_cons_iff haccepts _).mp hends, fun m hm => ?_⟩, rfl⟩
          exact mt (endsFrom_cons_iff haccepts _).mpr (hshort (m + 1) (by omega))

/-- Settles O3: `FindTerminator` begins in the state `s0`, where nothing has been read. -/
theorem headerTokenShortest : Obligations.HeaderTokenShortest := headerLength_eq_some_iff .s0

/-! ### Prefixes and absence -/

theorem headerLength_le {hs : HState} {bs : List Byte} {n : Nat} (h : headerLength hs bs = some n) : n ≤ bs.length :=
  ((headerLength_eq_some_iff hs bs n).mp h).1

/-- The terminator is found in the same place whatever follows it. -/
theorem headerLength_append {hs : HState} {bs : List Byte} {n : Nat} (h : headerLength hs bs = some n) (rest : List Byte) :
    headerLength hs (bs ++ rest) = some n := by
  obtain ⟨hle, hends, hshort⟩ := (headerLength_eq_some_iff hs bs n).mp h
  refine (headerLength_eq_some_iff hs _ n).mpr ⟨by simp; omega, ?_, fun m hm => ?_⟩
  · rwa [List.take_append_of_le_length hle]
  · rw [List.take_append_of_le_length (by omega)]
    exact hshort m hm

/-- The bytes up to the terminator hold it, and nothing shorter does. -/
theorem headerLength_take {hs : HState} {bs : List Byte} {n : Nat} (h : headerLength hs bs = some n) :
    headerLength hs (bs.take n) = some n := by
  obtain ⟨hle, hends, hshort⟩ := (headerLength_eq_some_iff hs bs n).mp h
  refine (headerLength_eq_some_iff hs _ n).mpr ⟨by simp [hle], by rwa [List.take_take, Nat.min_self], fun m hm => ?_⟩
  rw [List.take_take, Nat.min_eq_left hm.le]
  exact hshort m hm

theorem headerLength_eq_none_iff (hs : HState) (bs : List Byte) :
    headerLength hs bs = none ↔ ∀ m, ¬ EndsFrom hs (bs.take m) := by
  classical
  constructor
  · intro hnone m hends
    have hex : ∃ m, EndsFrom hs (bs.take m) := ⟨m, hends⟩
    have hfirst : ∀ k, k < Nat.find hex → ¬ EndsFrom hs (bs.take k) := fun k hk => Nat.find_min hex hk
    have hle : Nat.find hex ≤ bs.length := by
      by_contra hgt
      refine hfirst bs.length (by omega) ?_
      have := Nat.find_spec hex
      rwa [List.take_of_length_le (by omega)] at this ⊢
    have hsome := (headerLength_eq_some_iff hs bs (Nat.find hex)).mpr ⟨hle, Nat.find_spec hex, hfirst⟩
    rw [hnone] at hsome
    cases hsome
  · intro hnever
    rw [Option.eq_none_iff_forall_ne_some]
    intro n hn
    exact hnever n ((headerLength_eq_some_iff hs bs n).mp hn).2.1

end Sys2Proof.Machine
end

section
/-!
PROOFS. The codec (R90 to R113): the bytes of each form of token read back from what the decoder answers, and O1, O2 and O4 assembled from
them.
-/

namespace Sys2Proof.Machine

/-! ### Command words (R90) -/

/-- The decoder of command words inverts the encoder of commands: one word for each of the nine. -/
theorem decodeCommand_eq_ok_iff (w : Word) (i : Instr) : decodeCommand w = .ok i ↔ encode i = .word w := by
  constructor
  · unfold decodeCommand
    split
    case h_10 => intro h; cases h
    all_goals
      intro h
      cases h
      exact congrArg Code.word (BitVec.eq_of_toNat_eq (Eq.symm ‹_›))
  · cases i
    case hdr | nsSig | osMark | osPix | nsNop0 | nsRun | nsLit => intro h; cases h
    all_goals
      intro h
      cases h
      rfl

/-- The instructions of one word are the commands, and each is an instruction of the encoding. -/
theorem wellFormed_and_recognisedAt_of_encode_word {i : Instr} {w : Word} (h : encode i = .word w) :
    WellFormed i = true ∧ recognisedAt .command i = true := by
  cases i
  case hdr | nsSig | osMark | osPix | nsNop0 | nsRun | nsLit => cases h
  all_goals exact ⟨rfl, rfl⟩

/-! ### Groups of four bytes (R104, R110, R111) -/

theorem isSignature_iff (b0 b1 b2 : Byte) : isSignature b0 b1 b2 = true ↔ b0 = 2 ∧ b1 = 2 ∧ b2.toNat < 128 := by
  simp [isSignature, and_assoc]

theorem decodeToken_lineStart_of_signature {b0 b1 b2 : Byte} (h : isSignature b0 b1 b2 = true) (b3 : Byte) (rest : List Byte) :
    decodeToken .lineStart (b0 :: b1 :: b2 :: b3 :: rest) = .ok (.nsSig (width16 b2 b3)) := if_pos h

theorem decodeToken_lineStart_of_not_signature {b0 b1 b2 : Byte} (h : isSignature b0 b1 b2 = false) (b3 : Byte) (rest : List Byte) :
    decodeToken .lineStart (b0 :: b1 :: b2 :: b3 :: rest) = .ok (decodeGroup b0 b1 b2 b3) := by
  simp [decodeToken, h]

theorem decodeToken_oldStyle_cons (b0 b1 b2 b3 : Byte) (rest : List Byte) :
    decodeToken .oldStyle (b0 :: b1 :: b2 :: b3 :: rest) = .ok (decodeGroup b0 b1 b2 b3) := rfl

theorem wellFormed_osPix_iff (r g b e : Byte) : WellFormed (.osPix r g b e) = true ↔ ¬ (r = 1 ∧ g = 1 ∧ b = 1) := by
  simp [WellFormed, imp_iff_not_or, or_assoc]

/-- The two width bytes of a signature hold its 15 bits, big-endian (R105). -/
theorem width16_of_bytes (w : BitVec 15) : width16 (BitVec.ofNat 8 (w.toNat / 256)) (BitVec.ofNat 8 (w.toNat % 256)) = w := by
  have hw := w.isLt
  apply BitVec.eq_of_toNat_eq
  simp only [width16, BitVec.toNat_ofNat]
  omega

theorem toNat_width16 {b2 b3 : Byte} (h : b2.toNat < 128) : (width16 b2 b3).toNat = b2.toNat * 256 + b3.toNat := by
  have hb := b3.isLt
  simp only [width16, BitVec.toNat_ofNat]
  omega

theorem encode_nsSig_width16 {b2 b3 : Byte} (h : b2.toNat < 128) : encode (.nsSig (width16 b2 b3)) = .bytes [2, 2, b2, b3] := by
  have hb := b3.isLt
  have hhigh : BitVec.ofNat 8 ((width16 b2 b3).toNat / 256) = b2 := by
    apply BitVec.eq_of_toNat_eq
    rw [toNat_width16 h, BitVec.toNat_ofNat]
    omega
  have hlow : BitVec.ofNat 8 ((width16 b2 b3).toNat % 256) = b3 := by
    apply BitVec.eq_of_toNat_eq
    rw [toNat_width16 h, BitVec.toNat_ofNat]
    omega
  rw [encode, hhigh, hlow]

theorem decodeGroup_of_not_ones {b0 b1 b2 : Byte} (h : ¬ (b0 = 1 ∧ b1 = 1 ∧ b2 = 1)) (b3 : Byte) :
    decodeGroup b0 b1 b2 b3 = .osPix b0 b1 b2 b3 := if_neg h

/-- A group is its own code, and a pixel that reads as a marker is none (R110). -/
theorem decodeGroup_spec (b0 b1 b2 b3 : Byte) :
    WellFormed (decodeGroup b0 b1 b2 b3) = true ∧ recognisedAt .oldStyle (decodeGroup b0 b1 b2 b3) = true ∧
      (isSignature b0 b1 b2 = false → recognisedAt .lineStart (decodeGroup b0 b1 b2 b3) = true) ∧
      encode (decodeGroup b0 b1 b2 b3) = .bytes [b0, b1, b2, b3] := by
  by_cases hmark : b0 = 1 ∧ b1 = 1 ∧ b2 = 1
  · obtain ⟨rfl, rfl, rfl⟩ := hmark
    exact ⟨rfl, rfl, fun _ => rfl, rfl⟩
  · rw [decodeGroup_of_not_ones hmark]
    refine ⟨?_, rfl, fun hsig => ?_, rfl⟩
    · exact (wellFormed_osPix_iff ..).mpr hmark
    · simp [recognisedAt, hsig]

/-! ### Control bytes (R106 to R108) -/

theorem toNat_runCount {c : Byte} (h : 128 < c.toNat) : (BitVec.ofNat 7 (c.toNat - 128)).toNat = c.toNat - 128 := by
  have hc := c.isLt
  rw [BitVec.toNat_ofNat]
  omega

theorem wellFormed_nsRun_iff (n : BitVec 7) (v : Byte) : WellFormed (.nsRun n v) = true ↔ n ≠ 0 := decide_eq_true_iff

theorem encode_nsRun_of_control {c : Byte} (h : 128 < c.toNat) (v : Byte) :
    encode (.nsRun (BitVec.ofNat 7 (c.toNat - 128)) v) = .bytes [c, v] := by
  have hcontrol : BitVec.ofNat 8 (128 + (BitVec.ofNat 7 (c.toNat - 128)).toNat) = c := by
    apply BitVec.eq_of_toNat_eq
    have hc := c.isLt
    rw [toNat_runCount h, BitVec.toNat_ofNat]
    omega
  rw [encode, hcontrol]

theorem toNat_ne_zero_of_ne_zero {n : Nat} {c : BitVec n} (h : c ≠ 0) : c.toNat ≠ 0 :=
  fun hz => h (BitVec.eq_of_toNat_eq hz)

theorem ne_zero_of_toNat_pos {n : Nat} {c : BitVec n} (h : 0 < c.toNat) : c ≠ 0 := by
  rintro rfl
  simp at h

/-- What the decoder answers in a channel plane, control byte by control byte. -/
theorem decodeToken_plane_cons (c : Byte) (rest : List Byte) :
    decodeToken .plane (c :: rest) =
      if c = 0 then .ok .nsNop0
      else if c.toNat ≤ 128 then
        (if c.toNat ≤ rest.length then .ok (.nsLit (rest.take c.toNat)) else .error .truncated)
      else
        match rest with
        | v :: _ => .ok (.nsRun (BitVec.ofNat 7 (c.toNat - 128)) v)
        | [] => .error .truncated := rfl

/-- A token of a channel plane was read from its own code. -/
theorem decodeToken_plane_spec {bs : List Byte} {i : Instr} (h : decodeToken .plane bs = .ok i) :
    WellFormed i = true ∧ recognisedAt .plane i = true ∧ ∃ e rest, encode i = .bytes e ∧ bs = e ++ rest := by
  cases bs with
  | nil => cases h
  | cons c rest =>
    rw [decodeToken_plane_cons] at h
    split at h
    case isTrue hzero =>
      cases h
      exact ⟨rfl, rfl, [0], rest, rfl, hzero ▸ rfl⟩
    case isFalse hne =>
      have hpos := toNat_ne_zero_of_ne_zero hne
      split at h
      case isTrue hlit =>
        split at h <;> cases h
        case isTrue hlen =>
          have htake : (rest.take c.toNat).length = c.toNat := by simpa using hlen
          refine ⟨?_, rfl, c :: rest.take c.toNat, rest.drop c.toNat, ?_, by simp⟩
          · simp only [WellFormed, htake, Bool.and_eq_true, decide_eq_true_eq]
            omega
          · simp only [encode, htake, BitVec.ofNat_toNat, BitVec.setWidth_eq]
      case isFalse hrun =>
        split at h <;> cases h
        case h_1 v tail =>
          refine ⟨?_, rfl, [c, v], tail, encode_nsRun_of_control (by omega) v, rfl⟩
          have hcount := toNat_runCount (c := c) (by omega)
          exact (wellFormed_nsRun_iff _ v).mpr (ne_zero_of_toNat_pos (by omega))

/-! ### Encoded, then decoded -/

theorem decodeToken_header_append {text : List Byte} (h : headerTerminated text = true) (rest : List Byte) :
    decodeToken (.header .s0) (text ++ rest) = .ok (.hdr text) := by
  have hlength : headerLength .s0 text = some text.length := by simpa [headerTerminated] using h
  simp [decodeToken, headerLength_append hlength rest]

theorem decodeToken_nsRun {n : BitVec 7} (hn : n ≠ 0) (v : Byte) (rest : List Byte) :
    decodeToken .plane (BitVec.ofNat 8 (128 + n.toNat) :: v :: rest) = .ok (.nsRun n v) := by
  have hlt := n.isLt
  have hpos := toNat_ne_zero_of_ne_zero hn
  have hcontrol : (BitVec.ofNat 8 (128 + n.toNat)).toNat = 128 + n.toNat := by
    rw [BitVec.toNat_ofNat]
    omega
  have hne : BitVec.ofNat 8 (128 + n.toNat) ≠ 0 := ne_zero_of_toNat_pos (by omega)
  have hcount : BitVec.ofNat 7 n.toNat = n := by simp
  rw [decodeToken_plane_cons, if_neg hne, hcontrol, if_neg (by omega), Nat.add_sub_cancel_left, hcount]

theorem decodeToken_nsLit {data : List Byte} (hlo : 1 ≤ data.length) (hhi : data.length ≤ 128) (rest : List Byte) :
    decodeToken .plane (BitVec.ofNat 8 data.length :: (data ++ rest)) = .ok (.nsLit data) := by
  have hcontrol : (BitVec.ofNat 8 data.length).toNat = data.length := by
    rw [BitVec.toNat_ofNat]
    omega
  have hne : BitVec.ofNat 8 data.length ≠ 0 := ne_zero_of_toNat_pos (by omega)
  rw [decodeToken_plane_cons, if_neg hne, hcontrol, if_pos hhi, if_pos (by simp), List.take_left]

/-- Settles O1: each command is its word, and each token is read back in each of its places. -/
theorem decodeEncode : Obligations.DecodeEncode := by
  intro i p rest hwf hplace
  cases i with
  | hdrp | scan | dhdr | rgbe2f | f2rgbe | f2rgb9e5 | rgb9e52f | rgbe2ldr | f2ldr =>
    obtain rfl : p = .command := by simpa [recognisedAt] using hplace
    rfl
  | hdr text =>
    obtain rfl : p = .header .s0 := by simpa [recognisedAt] using hplace
    exact decodeToken_header_append hwf rest
  | nsSig w =>
    obtain rfl : p = .lineStart := by simpa [recognisedAt] using hplace
    have hw := w.isLt
    have hsig : isSignature 2 2 (BitVec.ofNat 8 (w.toNat / 256)) = true := by
      rw [isSignature_iff, BitVec.toNat_ofNat]
      exact ⟨rfl, rfl, by omega⟩
    exact (decodeToken_lineStart_of_signature hsig _ rest).trans (by rw [width16_of_bytes])
  | osMark e =>
    have hp : p = .lineStart ∨ p = .oldStyle := by simpa [recognisedAt] using hplace
    rcases hp with rfl | rfl <;> rfl
  | osPix r g b e =>
    have hpixel := decodeGroup_of_not_ones ((wellFormed_osPix_iff r g b e).mp hwf) e
    have hp : p = .lineStart ∧ isSignature r g b = false ∨ p = .oldStyle := by simpa [recognisedAt] using hplace
    rcases hp with ⟨rfl, hsig⟩ | rfl
    · exact (decodeToken_lineStart_of_not_signature hsig e rest).trans (by rw [hpixel])
    · exact (decodeToken_oldStyle_cons r g b e rest).trans (by rw [hpixel])
  | nsNop0 =>
    obtain rfl : p = .plane := by simpa [recognisedAt] using hplace
    rfl
  | nsRun n v =>
    obtain rfl : p = .plane := by simpa [recognisedAt] using hplace
    exact decodeToken_nsRun ((wellFormed_nsRun_iff n v).mp hwf) v rest
  | nsLit data =>
    obtain rfl : p = .plane := by simpa [recognisedAt] using hplace
    obtain ⟨hlo, hhi⟩ : 1 ≤ data.length ∧ data.length ≤ 128 := by simpa [WellFormed] using hwf
    exact decodeToken_nsLit hlo hhi rest

/-! ### Decoded, then encoded -/

/-- A token of a place in a scanline was read from its own code. -/
theorem decodeToken_spec {p : Place} (hp : ∀ hs, p ≠ .header hs) {bs : List Byte} {i : Instr} (h : decodeToken p bs = .ok i) :
    WellFormed i = true ∧ recognisedAt p i = true ∧ ∃ e rest, encode i = .bytes e ∧ bs = e ++ rest := by
  cases p with
  | command => cases h
  | header hs => exact absurd rfl (hp hs)
  | plane => exact decodeToken_plane_spec h
  | lineStart =>
    match bs with
    | [] | [_] | [_, _] | [_, _, _] => cases h
    | b0 :: b1 :: b2 :: b3 :: rest =>
      cases hsig : isSignature b0 b1 b2 with
      | true =>
        rw [decodeToken_lineStart_of_signature hsig] at h
        obtain ⟨rfl, rfl, hb2⟩ := (isSignature_iff _ _ _).mp hsig
        cases h
        exact ⟨rfl, rfl, _, rest, encode_nsSig_width16 hb2, rfl⟩
      | false =>
        rw [decodeToken_lineStart_of_not_signature hsig] at h
        cases h
        obtain ⟨hwf, -, hstart, hencode⟩ := decodeGroup_spec b0 b1 b2 b3
        exact ⟨hwf, hstart hsig, _, rest, hencode, rfl⟩
  | oldStyle =>
    match bs with
    | [] | [_] | [_, _] | [_, _, _] => cases h
    | b0 :: b1 :: b2 :: b3 :: rest =>
      cases h
      obtain ⟨hwf, hold, -, hencode⟩ := decodeGroup_spec b0 b1 b2 b3
      exact ⟨hwf, hold, _, rest, hencode, rfl⟩

theorem decode_bytes (p : Place) (bs : List Byte) : decode p (.bytes bs) = decodeToken p bs := by
  cases p <;> rfl

/-- Settles O2: a command is its word, a token the code in front of the bytes; the header token is where `FindTerminator` answers. -/
theorem decodedIsEncoded : Obligations.DecodedIsEncoded := by
  refine ⟨fun p c i hp hdec => ?_, fun bs => ?_⟩
  · cases c with
    | word w =>
      cases p with
      | command =>
        have hencode := (decodeCommand_eq_ok_iff w i).mp hdec
        obtain ⟨hwf, hplace⟩ := wellFormed_and_recognisedAt_of_encode_word hencode
        rw [hencode]
        exact ⟨hwf, hplace, rfl⟩
      | header | lineStart | plane | oldStyle => cases hdec
    | bytes bs =>
      rw [decode_bytes] at hdec
      obtain ⟨hwf, hplace, e, rest, hencode, hbs⟩ := decodeToken_spec hp hdec
      rw [hencode]
      exact ⟨hwf, hplace, rest, hbs⟩
  · rw [decode_bytes]
    cases hlength : headerLength .s0 bs with
    | some n =>
      obtain ⟨hle, hends, hshort⟩ := (headerLength_eq_some_iff .s0 bs n).mp hlength
      have hn : (bs.take n).length = n := by simpa using hle
      refine ⟨bs.take n, bs.drop n, by simp [decodeToken, hlength], (List.take_append_drop n bs).symm, rfl, .inl ⟨?_, hends, ?_⟩⟩
      · simp [WellFormed, headerTerminated, headerLength_take hlength, hle]
      · intro m hm
        rw [hn] at hm
        rw [List.take_take, Nat.min_eq_left hm.le]
        exact hshort m hm
    | none =>
      refine ⟨bs, [], by simp [decodeToken, hlength], (List.append_nil bs).symm, rfl, .inr ⟨?_, rfl, ?_⟩⟩
      · simp [WellFormed, headerTerminated, hlength]
      · exact (headerLength_eq_none_iff .s0 bs).mp hlength

/-- Settles O4: closed evaluations of the decoder. -/
theorem sampleWordsDecode : Obligations.SampleWordsDecode := by
  unfold Obligations.SampleWordsDecode
  decide

end Sys2Proof.Machine
end

section
/-!
PROOFS. The terms of the invariant: `statusOk`, `memoryOk` and `runOk` unfolded once, phase by phase, and each kept by the operations that
the meanings share (R28, R29, R41, R68).
-/

namespace Sys2Proof.Machine

/-! ### `STATUS` and `ERRCODE` -/

theorem statusOk_of_running {s : State} {r : Run} (h : s.run = some r) :
    statusOk s = true ↔ s.regs.status = statusBusy ∧ s.regs.errcode = 0 := by
  simp [statusOk, h]

theorem statusOk_of_idle {s : State} (h : s.run = none) :
    statusOk s = true ↔
      s.regs.status = 0 ∧ s.regs.errcode = 0 ∨ s.regs.status = statusDone ∧ s.regs.errcode = 0 ∨
        s.regs.status = statusFailed ∧ 1 ≤ s.regs.errcode.toNat ∧ s.regs.errcode.toNat ≤ 6 := by
  simp [statusOk, h, or_assoc, and_assoc]

/-- What every command leaves in `STATUS` and `ERRCODE` (R310 to R312): success, or a failure with one of its six codes. -/
theorem withOutcome_status_errcode (r : Regs) {n : Nat} (h : n ≤ 6) :
    ((r.withOutcome n).status = statusDone ∧ (r.withOutcome n).errcode = 0) ∨
      ((r.withOutcome n).status = statusFailed ∧ 1 ≤ (r.withOutcome n).errcode.toNat ∧ (r.withOutcome n).errcode.toNat ≤ 6) := by
  rcases Nat.eq_zero_or_pos n with rfl | hpos
  · exact .inl ⟨rfl, rfl⟩
  · have herr : (r.withOutcome n).errcode.toNat = n := by
      rw [Regs.withOutcome_errcode, BitVec.toNat_ofNat]
      omega
    exact .inr ⟨by rw [Regs.withOutcome_status, if_neg (by omega)], by omega, by omega⟩

theorem outcomeCode_le_six (o : Option FailKind) : outcomeCode o ≤ 6 := by
  cases o with
  | none => exact Nat.zero_le 6
  | some k => exact k.code_le_six

/-- However a command ends, disturbed or not, its outcome is one of the seven (R310, R76). -/
theorem State.conclude_regs_eq_withOutcome (s : State) (o : Option FailKind) (regs : Regs) :
    ∃ (r : Regs) (n : Nat), n ≤ 6 ∧ (s.conclude o regs).regs = r.withOutcome n := by
  cases hd : s.disturbed with
  | false => exact ⟨regs, _, outcomeCode_le_six o, by rw [State.conclude_undisturbed _ _ _ hd]⟩
  | true =>
    rw [State.conclude_disturbed _ _ _ hd]
    exact ⟨_, Config.disturbedOutcome (s.spoilDestination.draws + 1) % 7, by omega, rfl⟩

theorem State.conclude_status_errcode (s : State) (o : Option FailKind) (regs : Regs) :
    ((s.conclude o regs).regs.status = statusDone ∧ (s.conclude o regs).regs.errcode = 0) ∨
      ((s.conclude o regs).regs.status = statusFailed ∧ 1 ≤ (s.conclude o regs).regs.errcode.toNat ∧
        (s.conclude o regs).regs.errcode.toNat ≤ 6) := by
  obtain ⟨r, n, hn, hregs⟩ := s.conclude_regs_eq_withOutcome o regs
  rw [hregs]
  exact withOutcome_status_errcode r hn

theorem State.statusOk_conclude (s : State) (o : Option FailKind) (regs : Regs) : statusOk (s.conclude o regs) = true :=
  (statusOk_of_idle (State.conclude_run s o regs)).mpr (.inr (s.conclude_status_errcode o regs))

/-! ### Memory -/

theorem memoryOk_iff (s : State) :
    memoryOk s = true ↔ s.mem.wf = true ∧ ∀ sp ∈ s.mem.unspec, 1 ≤ sp.draw ∧ sp.draw ≤ s.draws := by
  simp [memoryOk]

/-- The canonical form is a matter of the memory and the draws alone, and more draws keep it. -/
theorem memoryOk_mono {s t : State} (h : memoryOk s = true) (hwf : t.mem.wf = true) (hunspec : t.mem.unspec = s.mem.unspec)
    (hdraws : s.draws ≤ t.draws) : memoryOk t = true := by
  rw [memoryOk_iff] at h ⊢
  obtain ⟨-, hspans⟩ := h
  refine ⟨hwf, fun sp hsp => ?_⟩
  obtain ⟨hlo, hhi⟩ := hspans sp (hunspec ▸ hsp)
  exact ⟨hlo, hhi.trans hdraws⟩

theorem wf_of_memoryOk {s : State} (h : memoryOk s = true) : s.mem.wf = true := ((memoryOk_iff s).mp h).1

theorem State.memoryOk_spoilDestination {s : State} (h : memoryOk s = true) : memoryOk s.spoilDestination = true := by
  unfold State.spoilDestination
  split
  · rw [memoryOk_iff] at h ⊢
    obtain ⟨hwf, hspans⟩ := h
    refine ⟨Memory.wf_spoil _ _ _ hwf, fun sp hsp => ?_⟩
    rw [Memory.spoil_unspec, List.mem_cons] at hsp
    rcases hsp with rfl | hsp
    · simp
    · obtain ⟨hlo, hhi⟩ := hspans sp hsp
      exact ⟨hlo, hhi.trans (Nat.le_succ _)⟩
  · exact h

theorem State.memoryOk_conclude {s : State} (h : memoryOk s = true) (o : Option FailKind) (regs : Regs) :
    memoryOk (s.conclude o regs) = true := by
  cases hd : s.disturbed with
  | false =>
    rw [State.conclude_undisturbed _ _ _ hd]
    exact memoryOk_mono h (wf_of_memoryOk h) rfl le_rfl
  | true =>
    rw [State.conclude_disturbed _ _ _ hd]
    have hspoiled := State.memoryOk_spoilDestination h
    have hwf := wf_of_memoryOk hspoiled
    exact memoryOk_mono hspoiled hwf rfl (Nat.le_succ _)

/-! ### The invariant of an idle and of a running state -/

theorem inv_of_idle {s : State} (hidle : s.run = none) (hstatus : statusOk s = true) (hmem : memoryOk s = true) : Inv s :=
  ⟨hstatus, hmem, fun r hr => absurd (hidle ▸ hr) (Option.some_ne_none r).symm⟩

/-- A command that ends leaves a state with the invariant. -/
theorem State.inv_conclude {s : State} (h : memoryOk s = true) (o : Option FailKind) (regs : Regs) : Inv (s.conclude o regs) :=
  inv_of_idle (State.conclude_run s o regs) (s.statusOk_conclude o regs) (State.memoryOk_conclude h o regs)

theorem State.inv_finish {s : State} (h : memoryOk s = true) (regs : Regs) : Inv (s.finish regs) := State.inv_conclude h none regs

theorem State.inv_raise {s : State} (h : memoryOk s = true) (k : FailKind) : Inv (s.raise k) := by
  unfold State.raise
  split
  · exact State.inv_conclude (State.memoryOk_spoilDestination h) _ _
  · exact State.inv_conclude h _ _

/-- A running command that goes on with its registers as they are. -/
theorem Inv.goesOn {s : State} {r r' : Run} {m : Memory} (h : Inv s) (hrun : s.run = some r) (hwf : m.wf = true)
    (hunspec : m.unspec = s.mem.unspec) (hr' : runOk s.regs r' = true) : Inv { s with mem := m, run := some r' } := by
  obtain ⟨hstatus, hmem, -⟩ := h
  refine ⟨(statusOk_of_running rfl).mpr ((statusOk_of_running hrun).mp hstatus), memoryOk_mono hmem hwf hunspec le_rfl, ?_⟩
  intro r'' hr''
  cases hr''
  exact hr'

/-! ### The invariant of a running command, phase by phase -/

theorem runOk_issued_iff (regs : Regs) (st : Staged) (d : Bool) :
    runOk regs { phase := .issued, staged := st, disturbed := d } = true ↔ st = Staged.ofRegs regs := by
  have hcount : st = Staged.ofRegs regs → st.count = regs.count := by
    rintro rfl
    rfl
  simpa [runOk, phaseCommandOk] using hcount

/-- What the header phase has established (R31, R68, R141, R294). -/
structure HeaderOk (regs : Regs) (thenScan : Bool) (hs : HState) (st : Staged) : Prop where
  cmd : regs.cmd = if thenScan then 3 else 1
  start : hs = .s0
  staged : st = Staged.atHeader regs
  srcFits : regs.srcFits = true
  regions : thenScan = true → regs.regionsOk = true

theorem runOk_header_iff (regs : Regs) (thenScan : Bool) (hs : HState) (st : Staged) (d : Bool) :
    runOk regs { phase := .header thenScan hs, staged := st, disturbed := d } = true ↔ HeaderOk regs thenScan hs st := by
  simp only [runOk, phaseCommandOk, Bool.and_eq_true, decide_eq_true_eq, Bool.or_eq_true, Bool.not_eq_true']
  constructor
  · rintro ⟨⟨hcmd, -⟩, ⟨⟨hstart, hstaged⟩, hfits⟩, hregions⟩
    exact ⟨hcmd, hstart, hstaged, hfits, fun hscan => hregions.resolve_left (by simp [hscan])⟩
  · rintro ⟨hcmd, hstart, rfl, hfits, hregions⟩
    exact ⟨⟨hcmd, rfl⟩, ⟨⟨hstart, rfl⟩, hfits⟩, (Bool.eq_false_or_eq_true thenScan).symm.imp_right hregions⟩

/-- What the decoding of a scanline has established (R68, R171, R292): the pixels still to come fit in the destination region. -/
structure LineOk (regs : Regs) (rc : Option Nat) (lp : LinePos) (st : Staged) : Prop where
  command : phaseCommandOk regs.cmd (.line rc lp) = true
  count : st.count = regs.count
  regions : regs.regionsOk = true
  one_le_width : 1 ≤ st.width.toNat
  width_le : st.width.toNat ≤ Config.dimMax
  pos_le : st.pos.toNat ≤ regs.srcLen.toNat
  capacity : st.ipos.toNat + 4 * (linesLeft rc * st.width.toNat - emittedPixels lp) ≤ regs.dstLen.toNat
  linePos : linePosOk st.width.toNat lp = true

theorem runOk_line_iff (regs : Regs) (rc : Option Nat) (lp : LinePos) (st : Staged) (d : Bool) :
    runOk regs { phase := .line rc lp, staged := st, disturbed := d } = true ↔ LineOk regs rc lp st := by
  simp only [runOk, Bool.and_eq_true, decide_eq_true_eq]
  constructor
  · rintro ⟨⟨hcmd, hcount⟩, ⟨⟨⟨⟨hregions, hw⟩, hw'⟩, hpos⟩, hcap⟩, hlp⟩
    exact ⟨hcmd, hcount, hregions, hw, hw', hpos, hcap, hlp⟩
  · rintro ⟨hcmd, hcount, hregions, hw, hw', hpos, hcap, hlp⟩
    exact ⟨⟨hcmd, hcount⟩, ⟨⟨⟨⟨hregions, hw⟩, hw'⟩, hpos⟩, hcap⟩, hlp⟩

theorem srcFits_of_regionsOk {r : Regs} (h : r.regionsOk = true) : r.srcFits = true :=
  (Regs.srcFits_iff r).mpr ((Regs.regionsOk_iff r).mp h).1

theorem dstEnd_le_of_regionsOk {r : Regs} (h : r.regionsOk = true) : r.dstAddr.toNat + r.dstLen.toNat ≤ 2 ^ 32 :=
  ((Regs.regionsOk_iff r).mp h).2.1

/-- `SCAN` decodes one scanline, `DHDR` at least one more (R290). -/
theorem one_le_linesLeft {cmd : Word} {rc : Option Nat} {lp : LinePos} (h : phaseCommandOk cmd (.line rc lp) = true) :
    1 ≤ linesLeft rc := by
  cases rc with
  | none => exact le_rfl
  | some n =>
    simp only [phaseCommandOk, Bool.and_eq_true, decide_eq_true_eq] at h
    exact h.2

/-- The command word of a decoder of scanlines. -/
theorem cmd_of_lineCommand {cmd : Word} {rc : Option Nat} {lp : LinePos} (h : phaseCommandOk cmd (.line rc lp) = true) :
    cmd = if rc = none then 2 else 3 := by
  cases rc with
  | none => exact of_decide_eq_true h
  | some n =>
    simp only [phaseCommandOk, Bool.and_eq_true, decide_eq_true_eq] at h
    exact h.1

namespace LineOk

variable {regs : Regs} {rc : Option Nat} {lp : LinePos} {st : Staged}

/-- The pixels that the current scanline still lacks fit. -/
theorem room (h : LineOk regs rc lp st) :
    st.ipos.toNat + 4 * (st.width.toNat - emittedPixels lp) ≤ regs.dstLen.toNat := by
  have hlines := Nat.mul_le_mul_right st.width.toNat (one_le_linesLeft h.command)
  have hcap := h.capacity
  omega

theorem emittedPixels_lt (h : LineOk regs rc lp st) : emittedPixels lp < st.width.toNat := by
  have hw := h.one_le_width
  have hlp := h.linePos
  cases lp with
  | start => exact hw
  | plane c tmp => exact hw
  | old em sh =>
    simp only [linePosOk, Bool.and_eq_true, decide_eq_true_eq] at hlp
    exact hlp.1.1

/-- What is emitted next lies in the destination region, which lies in memory. -/
theorem emitAddr_le (h : LineOk regs rc lp st) {n k : Nat} (hk : emittedPixels lp + k ≤ st.width.toNat) :
    emitAddr regs (st.skip n) + 4 * k ≤ regs.dstAddr.toNat + regs.dstLen.toNat ∧
      emitAddr regs (st.skip n) + 4 * k ≤ Config.memSize := by
  have hroom := h.room
  have hend := dstEnd_le_of_regionsOk h.regions
  rw [emitAddr, Staged.skip_ipos, Config.memSize]
  omega

theorem toNat_pos_skip (h : LineOk regs rc lp st) {n : Nat} (hn : n ≤ regs.srcLen.toNat - st.pos.toNat) :
    (st.skip n).pos.toNat = st.pos.toNat + n := by
  have hlt := regs.srcLen.isLt
  have hpos := h.pos_le
  rw [Staged.skip_pos, BitVec.toNat_ofNat]
  omega

theorem toNat_ipos_emitted (h : LineOk regs rc lp st) {px : List Rgbe} (hpx : emittedPixels lp + px.length ≤ st.width.toNat) (n : Nat) :
    ((st.skip n).emitted px).ipos.toNat = st.ipos.toNat + 4 * px.length := by
  have hlt := regs.dstLen.isLt
  have hroom := h.room
  rw [Staged.emitted_ipos, Staged.skip_ipos, BitVec.toNat_ofNat]
  omega

end LineOk

end Sys2Proof.Machine
end

section
/-!
PROOFS. What a step of a running command can do, phase by phase, in a state that has the invariant: what is fetched, what a token of a
scanline answers (`LineMove`), the header token and the commands at their issue.
-/

namespace Sys2Proof.Machine

/-! ### The code of a token -/

theorem encode_length_eq_tokenLength {i : Instr} {e : List Byte} (h : encode i = .bytes e) : e.length = tokenLength i := by
  cases i
  case hdrp | scan | dhdr | rgbe2f | f2rgbe | f2rgb9e5 | rgb9e52f | rgbe2ldr | f2ldr => cases h
  all_goals
    cases h
    simp [tokenLength, Nat.add_comm]

theorem Phase.place_line_ne_header (rc : Option Nat) (lp : LinePos) (hs : HState) : (Phase.line rc lp).place ≠ .header hs := by
  cases lp <;> exact Place.noConfusion

/-- A token of a scanline has at least one byte (R113). -/
theorem one_le_tokenLength {rc : Option Nat} {lp : LinePos} {i : Instr} (h : recognisedAt (Phase.line rc lp).place i = true) :
    1 ≤ tokenLength i := by
  cases i
  case hdr => cases lp <;> cases h
  case nsLit => exact Nat.le_add_right 1 _
  case hdrp | scan | dhdr | rgbe2f | f2rgbe | f2rgb9e5 | rgb9e52f | rgbe2ldr | f2ldr => cases lp <;> cases h
  all_goals simp [tokenLength]

/-- In a scanline the decoder fails only where the bytes end inside the token (R172, R183). -/
theorem decodeToken_line_error {rc : Option Nat} {lp : LinePos} {bs : List Byte} {e : DecodeError}
    (h : decodeToken (Phase.line rc lp).place bs = .error e) : e = .truncated := by
  cases lp with
  | start =>
    match bs with
    | [] | [_] | [_, _] | [_, _, _] => cases h; rfl
    | b0 :: b1 :: b2 :: b3 :: rest =>
      simp only [Phase.place, decodeToken] at h
      split at h <;> cases h
  | old em sh =>
    match bs with
    | [] | [_] | [_, _] | [_, _, _] => cases h; rfl
    | b0 :: b1 :: b2 :: b3 :: rest => cases h
  | plane c tmp =>
    cases bs with
    | nil => cases h; rfl
    | cons c rest =>
      rw [Phase.place, decodeToken_plane_cons] at h
      split at h
      · cases h
      split at h
      · split at h <;> cases h
        rfl
      · split at h <;> cases h
        rfl

/-- What a running scanline fetches: a token that lies whole in the rest of the source region, or an underrun (R172, R316). -/
theorem fetch_line {s : State} {rc : Option Nat} {lp : LinePos} {st : Staged} {d : Bool} (hfits : s.regs.srcFits = true) :
    (∃ i, fetch { phase := .line rc lp, staged := st, disturbed := d } s = .run i ∧ WellFormed i = true ∧
        recognisedAt (Phase.line rc lp).place i = true ∧ tokenLength i ≤ s.regs.srcLen.toNat - st.pos.toNat) ∨
      fetch { phase := .line rc lp, staged := st, disturbed := d } s = .failure .inputUnderrun := by
  have hcode : fetchCode { phase := .line rc lp, staged := st, disturbed := d } s =
      .bytes (s.srcBytes st.pos.toNat longestToken) := rfl
  cases hdec : decodeToken (Phase.line rc lp).place (s.srcBytes st.pos.toNat longestToken) with
  | ok i =>
    obtain ⟨hwf, hplace, e, rest, hencode, hbs⟩ := decodeToken_spec (Phase.place_line_ne_header rc lp) hdec
    refine .inl ⟨i, by simp [fetch, hcode, hfits, decode_bytes, hdec], hwf, hplace, ?_⟩
    have hlength := srcBytes_length s st.pos.toNat longestToken
    rw [hbs, List.length_append, encode_length_eq_tokenLength hencode] at hlength
    omega
  | error e =>
    obtain rfl := decodeToken_line_error hdec
    exact .inr (by simp [fetch, hcode, hfits, decode_bytes, hdec, decodeFailure])

/-! ### Channel planes (R175, R176, R181) -/

theorem planesOk_r_iff (w : Nat) (tmp : Planes) :
    planesOk w .r tmp = true ↔ tmp.r.length < w ∧ tmp.g = [] ∧ tmp.b = [] ∧ tmp.e = [] := by
  simp [planesOk, and_assoc]

theorem planesOk_g_iff (w : Nat) (tmp : Planes) :
    planesOk w .g tmp = true ↔ tmp.r.length = w ∧ tmp.g.length < w ∧ tmp.b = [] ∧ tmp.e = [] := by
  simp [planesOk, and_assoc]

theorem planesOk_b_iff (w : Nat) (tmp : Planes) :
    planesOk w .b tmp = true ↔ tmp.r.length = w ∧ tmp.g.length = w ∧ tmp.b.length < w ∧ tmp.e = [] := by
  simp [planesOk, and_assoc]

theorem planesOk_e_iff (w : Nat) (tmp : Planes) :
    planesOk w .e tmp = true ↔ tmp.r.length = w ∧ tmp.g.length = w ∧ tmp.b.length = w ∧ tmp.e.length < w := by
  simp [planesOk, and_assoc]

theorem planesOk_empty {w : Nat} (hw : 1 ≤ w) : planesOk w .r Planes.empty = true :=
  (planesOk_r_iff w Planes.empty).mpr ⟨hw, rfl, rfl, rfl⟩

theorem get_length_lt_of_planesOk {w : Nat} {c : Chan} {tmp : Planes} (h : planesOk w c tmp = true) :
    (tmp.get c).length < w := by
  cases c with
  | r => exact ((planesOk_r_iff w tmp).mp h).1
  | g => exact ((planesOk_g_iff w tmp).mp h).2.1
  | b => obtain ⟨-, -, hb, -⟩ := (planesOk_b_iff w tmp).mp h; exact hb
  | e => obtain ⟨-, -, -, he⟩ := (planesOk_e_iff w tmp).mp h; exact he

/-- A plane that stays short stays the one being filled. -/
theorem planesOk_put {w : Nat} {c : Chan} {tmp : Planes} (h : planesOk w c tmp = true) {bs : List Byte}
    (hshort : ((tmp.put c bs).get c).length < w) : planesOk w c (tmp.put c bs) = true := by
  cases c with
  | r =>
    obtain ⟨-, hg, hb, he⟩ := (planesOk_r_iff w tmp).mp h
    exact (planesOk_r_iff w _).mpr ⟨hshort, hg, hb, he⟩
  | g =>
    obtain ⟨hr, -, hb, he⟩ := (planesOk_g_iff w tmp).mp h
    exact (planesOk_g_iff w _).mpr ⟨hr, hshort, hb, he⟩
  | b =>
    obtain ⟨hr, hg, -, he⟩ := (planesOk_b_iff w tmp).mp h
    exact (planesOk_b_iff w _).mpr ⟨hr, hg, hshort, he⟩
  | e =>
    obtain ⟨hr, hg, hb, -⟩ := (planesOk_e_iff w tmp).mp h
    exact (planesOk_e_iff w _).mpr ⟨hr, hg, hb, hshort⟩

/-- A plane that is filled gives way to the next, which is still empty. -/
theorem planesOk_next {w : Nat} {c c' : Chan} {tmp : Planes} (h : planesOk w c tmp = true) (hnext : Chan.next c = some c')
    {bs : List Byte} (hfull : ((tmp.put c bs).get c).length = w) : planesOk w c' (tmp.put c bs) = true := by
  have hpos : 0 < w := Nat.zero_lt_of_lt (get_length_lt_of_planesOk h)
  have hempty : ∀ plane : List Byte, plane = [] → plane.length < w := fun plane hnil => hnil ▸ hpos
  cases c with
  | r =>
    cases hnext
    obtain ⟨-, hg, hb, he⟩ := (planesOk_r_iff w tmp).mp h
    exact (planesOk_g_iff w _).mpr ⟨hfull, hempty _ hg, hb, he⟩
  | g =>
    cases hnext
    obtain ⟨hr, -, hb, he⟩ := (planesOk_g_iff w tmp).mp h
    exact (planesOk_b_iff w _).mpr ⟨hr, hfull, hempty _ hb, he⟩
  | b =>
    cases hnext
    obtain ⟨hr, hg, -, he⟩ := (planesOk_b_iff w tmp).mp h
    exact (planesOk_e_iff w _).mpr ⟨hr, hg, hfull, hempty _ he⟩
  | e => cases hnext

theorem chan_eq_e_of_next_eq_none {c : Chan} (h : Chan.next c = none) : c = .e := by
  cases c with
  | e => rfl
  | r | g | b => cases h

/-- Once the fourth plane is full the four hold one scanline of pixels. -/
theorem interleave_length_of_planesOk {w : Nat} {tmp : Planes} (h : planesOk w .e tmp = true) {bs : List Byte}
    (hfull : ((tmp.put .e bs).get .e).length = w) :
    (interleave (tmp.put .e bs).r (tmp.put .e bs).g (tmp.put .e bs).b (tmp.put .e bs).e).length = w := by
  obtain ⟨hr, hg, hb, -⟩ := (planesOk_e_iff w tmp).mp h
  have hr' : (tmp.put .e bs).r.length = w := hr
  have hg' : (tmp.put .e bs).g.length = w := hg
  have hb' : (tmp.put .e bs).b.length = w := hb
  have he' : (tmp.put .e bs).e.length = w := hfull
  rw [interleave_length, hr', hg', hb', he', Nat.min_self, Nat.min_self]

/-- What passes a plane's end is dropped, so a plane that does not stay short is exactly full. -/
theorem get_put_length_of_full {w : Nat} {c : Chan} {tmp : Planes} (h : planesOk w c tmp = true) {bs : List Byte}
    (hfull : w ≤ ((tmp.put c (bs.take (w - (tmp.get c).length))).get c).length) :
    ((tmp.put c (bs.take (w - (tmp.get c).length))).get c).length = w :=
  le_antisymm (planeToken_filled_le tmp c bs w (get_length_lt_of_planesOk h).le) hfull

/-! ### The tokens of a scanline -/

theorem exec_plane {s : State} {rc : Option Nat} {c : Chan} {tmp : Planes} {st : Staged} {d : Bool} {i : Instr} {n : Nat}
    {bs : List Byte} (hrun : s.run = some { phase := .line rc (.plane c tmp), staged := st, disturbed := d })
    (hi : planeBytes i = some (n, bs)) :
    exec i s = planeToken rc c tmp n bs { phase := .line rc (.plane c tmp), staged := st, disturbed := d } s := by
  cases i
  case nsRun | nsLit | nsNop0 =>
    cases hi
    simp [exec, execNsRun, execNsLit, execNsNop0, hrun]
  all_goals cases hi

theorem tokenLength_of_planeBytes {i : Instr} {n : Nat} {bs : List Byte} (h : planeBytes i = some (n, bs)) : tokenLength i = n := by
  cases i
  case nsRun | nsLit | nsNop0 => cases h; rfl
  all_goals cases h

/-- The tokens of a channel plane are the three that bring bytes. -/
theorem exists_planeBytes_of_recognisedAt {i : Instr} (h : recognisedAt .plane i = true) : ∃ n bs, planeBytes i = some (n, bs) := by
  cases i
  case nsRun | nsLit | nsNop0 => exact ⟨_, _, rfl⟩
  all_goals cases h

/-- What an old-style group emits at the counters `em` and `sh`, and the next `SHIFT` (R185, R186). -/
def groupPixels (w em sh : Nat) (prev : Word) : Instr → Option (List Rgbe × Nat)
  | .osPix r g b e => some ([⟨r, g, b, e⟩], 0)
  | .osMark e => some (List.replicate (markerCount w em sh e) (pixelOfPrev prev), min (sh + 8) 248)
  | _ => none

theorem exec_group {s : State} {rc : Option Nat} {lp : LinePos} {st : Staged} {d : Bool} {i : Instr} {em sh sh' : Nat}
    {px : List Rgbe} (hrun : s.run = some { phase := .line rc lp, staged := st, disturbed := d })
    (hlp : groupCounters lp = some (em, sh)) (hi : groupPixels st.width.toNat em sh st.prev i = some (px, sh')) :
    tokenLength i = 4 ∧
      exec i s = emitThen px rc (oldRest st.width.toNat (em + px.length) sh')
        { phase := .line rc lp, staged := st.skip 4, disturbed := d } s := by
  cases i
  case osPix => cases hi; exact ⟨rfl, exec_osPix_of_counters _ _ _ _ hrun hlp⟩
  case osMark => cases hi; exact ⟨rfl, by rw [exec_osMark_of_counters _ hrun hlp, List.length_replicate]⟩
  all_goals cases hi

/-- The tokens of a scanline by the place they stand in: the signature at its start, a group at its start or in an old-style scanline, a
token of a channel plane. -/
theorem lineToken_cases {rc : Option Nat} {lp : LinePos} {i : Instr} (h : recognisedAt (Phase.line rc lp).place i = true)
    (w : Nat) (prev : Word) :
    (∃ width16, i = .nsSig width16 ∧ lp = .start) ∨
      (∃ em sh px sh', groupCounters lp = some (em, sh) ∧ groupPixels w em sh prev i = some (px, sh')) ∨
      ∃ c tmp n bs, lp = .plane c tmp ∧ planeBytes i = some (n, bs) := by
  cases lp with
  | start =>
    cases i
    case nsSig => exact .inl ⟨_, rfl, rfl⟩
    case osMark | osPix => exact .inr (.inl ⟨0, 0, _, _, rfl, rfl⟩)
    all_goals cases h
  | plane c tmp =>
    obtain ⟨n, bs, hbytes⟩ := exists_planeBytes_of_recognisedAt h
    exact .inr (.inr ⟨c, tmp, n, bs, rfl, hbytes⟩)
  | old em sh =>
    cases i
    case osMark | osPix => exact .inr (.inl ⟨em, sh, _, _, rfl, rfl⟩)
    all_goals cases h

/-- The counters of an old-style group are those of the place, and `SHIFT` stays a multiple of 8 up to 248 (R183, R186). -/
theorem groupPixels_bounds {w em sh sh' : Nat} {prev : Word} {lp : LinePos} {i : Instr} {px : List Rgbe} (hlp : linePosOk w lp = true)
    (hw : 1 ≤ w) (hcounters : groupCounters lp = some (em, sh)) (hi : groupPixels w em sh prev i = some (px, sh')) :
    emittedPixels lp = em ∧ em + px.length ≤ w ∧ sh' % 8 = 0 ∧ sh' ≤ 248 := by
  have hbounds : emittedPixels lp = em ∧ em < w ∧ sh % 8 = 0 ∧ sh ≤ 248 := by
    cases lp with
    | start => cases hcounters; exact ⟨rfl, hw, rfl, Nat.zero_le _⟩
    | plane c tmp => cases hcounters
    | old em sh =>
      cases hcounters
      simpa [linePosOk, emittedPixels, and_assoc] using hlp
  obtain ⟨hem, hlt, hmod, hle⟩ := hbounds
  refine ⟨hem, ?_⟩
  cases i
  case osPix =>
    cases hi
    exact ⟨hlt, rfl, Nat.zero_le _⟩
  case osMark e =>
    cases hi
    rw [List.length_replicate, markerCount]
    omega
  all_goals cases hi

/-- The ways a token of `n` bytes can answer in a scanline whose command has established what it must: the signature's width is not the
scanline's; the scanline goes on in a channel plane, nothing stored; it goes on in old style, with pixels stored; its last pixels are stored. -/
inductive LineMove (s : State) (rc : Option Nat) (lp : LinePos) (st : Staged) (d : Bool) (n : Nat) : State → Prop
  | mismatch : LineMove s rc lp st d n (s.raise .scanlineWidthMismatch)
  | plane (c : Chan) (tmp : Planes) (hplanes : planesOk st.width.toNat c tmp = true) (hem : emittedPixels lp = 0) :
    LineMove s rc lp st d n { s with run := some { phase := .line rc (.plane c tmp), staged := st.skip n, disturbed := d } }
  | group (px : List Rgbe) (sh : Nat) (hmore : emittedPixels lp + px.length < st.width.toNat) (hmod : sh % 8 = 0) (hle : sh ≤ 248) :
    LineMove s rc lp st d n
      { s with
        mem := s.mem.writeBytes (emitAddr s.regs (st.skip n)) (pixelBytes px)
        run := some
          { phase := .line rc (.old (emittedPixels lp + px.length) sh)
            staged := (st.skip n).emitted px
            disturbed := d } }
  | lineEnd (px : List Rgbe) (hlast : emittedPixels lp + px.length = st.width.toNat) :
    LineMove s rc lp st d n
      (endLine rc { phase := .line rc lp, staged := (st.skip n).emitted px, disturbed := d }
        { s with mem := s.mem.writeBytes (emitAddr s.regs (st.skip n)) (pixelBytes px) })

theorem planeToken_lineMove {s : State} {rc : Option Nat} {c : Chan} {tmp : Planes} {st : Staged} (d : Bool)
    (hok : LineOk s.regs rc (.plane c tmp) st) (n : Nat) (bs : List Byte) :
    ∃ t, planeToken rc c tmp n bs { phase := .line rc (.plane c tmp), staged := st, disturbed := d } s = .next t ∧
      LineMove s rc (.plane c tmp) st d n t := by
  have hplanes : planesOk st.width.toNat c tmp = true := hok.linePos
  rcases planeToken_cases rc c tmp n bs { phase := .line rc (.plane c tmp), staged := st, disturbed := d } s with
    ⟨hshort, heq⟩ | ⟨hfull, c', hnext, heq⟩ | ⟨hfull, hnone, heq⟩
  · exact ⟨_, heq, .plane c _ (planesOk_put hplanes hshort) rfl⟩
  · exact ⟨_, heq, .plane c' _ (planesOk_next hplanes hnext (get_put_length_of_full hplanes hfull)) rfl⟩
  · obtain rfl := chan_eq_e_of_next_eq_none hnone
    have hlength := interleave_length_of_planesOk hplanes (get_put_length_of_full hplanes hfull)
    have hpx := (Nat.zero_add _).trans hlength
    have hmem := (hok.emitAddr_le (n := n) hpx.le).2
    rw [heq, emitThen_eq, if_pos hmem]
    exact ⟨_, rfl, .lineEnd _ hpx⟩

/-- Every token that is recognised in a scanline answers in one of the four ways; none faults, none is refused. -/
theorem exec_lineMove {s : State} {rc : Option Nat} {lp : LinePos} {st : Staged} {d : Bool} {i : Instr}
    (hrun : s.run = some { phase := .line rc lp, staged := st, disturbed := d }) (hok : LineOk s.regs rc lp st)
    (hplace : recognisedAt (Phase.line rc lp).place i = true) :
    ∃ t, exec i s = .next t ∧ LineMove s rc lp st d (tokenLength i) t := by
  rcases lineToken_cases hplace st.width.toNat st.prev with
    ⟨width16, rfl, rfl⟩ | ⟨em, sh, px, sh', hcounters, hpixels⟩ | ⟨c, tmp, n, bs, rfl, hbytes⟩
  · rw [exec_nsSig_at_start width16 hrun]
    split
    · exact ⟨_, rfl, .plane .r _ (planesOk_empty hok.one_le_width) rfl⟩
    · exact ⟨_, rfl, .mismatch⟩
  · obtain ⟨hlength, hexec⟩ := exec_group hrun hcounters hpixels
    obtain ⟨hem, hle, hmod, hsh⟩ := groupPixels_bounds hok.linePos hok.one_le_width hcounters hpixels
    subst hem
    rw [hexec, hlength, emitThen_eq, if_pos (hok.emitAddr_le hle).2]
    refine ⟨_, rfl, ?_⟩
    rcases Nat.lt_or_eq_of_le hle with hmore | hlast
    · rw [oldRest, if_pos hmore]
      exact .group px sh' hmore hmod hsh
    · rw [oldRest, if_neg (by omega)]
      exact .lineEnd px hlast
  · rw [exec_plane hrun hbytes, tokenLength_of_planeBytes hbytes]
    exact planeToken_lineMove d hok n bs

/-- A step in a scanline: its stream ends early, or a token is run, which lies whole in the rest of the source region. -/
theorem engineStep_line {s : State} {rc : Option Nat} {lp : LinePos} {st : Staged} {d : Bool}
    (hrun : s.run = some { phase := .line rc lp, staged := st, disturbed := d }) (hok : LineOk s.regs rc lp st) :
    engineStep s = .next (s.raise .inputUnderrun) ∨
      ∃ n t, 1 ≤ n ∧ n ≤ s.regs.srcLen.toNat - st.pos.toNat ∧ engineStep s = .next t ∧ LineMove s rc lp st d n t := by
  rw [engineStep_running s _ hrun]
  rcases fetch_line (rc := rc) (lp := lp) (st := st) (d := d) (srcFits_of_regionsOk hok.regions) with
    ⟨i, hfetch, -, hplace, hlength⟩ | hfetch
  · obtain ⟨t, hexec, hmove⟩ := exec_lineMove hrun hok hplace
    exact .inr ⟨_, t, one_le_tokenLength hplace, hlength, by rw [hfetch]; exact hexec, hmove⟩
  · exact .inl (by rw [hfetch]; rfl)

end Sys2Proof.Machine
end

section
/-!
PROOFS. What a step of a running command can do before its scanlines: the header token (R143 to R152, R291, R292) and the nine commands at
their issue (R90, R141, R171, R210, R294).
-/

namespace Sys2Proof.Machine

/-! ### The header token -/

/-- A terminated header has at least the four bytes of the shortest pattern (R100). -/
theorem four_le_of_headerLength {bs : List Byte} {n : Nat} (h : headerLength .s0 bs = some n) : 4 ≤ n := by
  obtain ⟨hle, ⟨before, line, htext, hne, -⟩, -⟩ := (headerLength_eq_some_iff .s0 bs n).mp h
  have hline := List.length_pos_iff.mpr hne
  have hlength := congrArg List.length htext
  simp only [List.length_take, List.length_append, List.length_cons, List.length_nil] at hlength
  omega

theorem headerDim_bounds {tok : List Byte} {n : Nat} (h : headerDim tok = some n) : 1 ≤ n ∧ n ≤ Config.dimMax := by
  unfold headerDim at h
  split at h
  case isTrue hdim =>
    obtain ⟨-, hlo, hhi⟩ := hdim
    cases h
    exact ⟨hlo, hhi⟩
  case isFalse => cases h

/-- Both dimensions of a header are dimensions (R148, R151). -/
theorem headerDims_bounds {text : List Byte} {h w : Nat} (hdims : headerDims text = some (h, w)) :
    (1 ≤ h ∧ h ≤ Config.dimMax) ∧ 1 ≤ w ∧ w ≤ Config.dimMax := by
  unfold headerDims at hdims
  split at hdims
  case h_1 t1 _ t3 _ =>
    split at hdims
    case h_1 hh hw =>
      cases hdims
      exact ⟨headerDim_bounds hh, headerDim_bounds hw⟩
    case h_2 => cases hdims
  case h_2 => cases hdims

/-- A header that parses is terminated, and its dimensions are read from it (R153). -/
theorem parseHeader_ok {hs : HState} {text : List Byte} {h w : Nat} (hparse : parseHeader hs text = .ok (h, w)) :
    headerLength hs text = some text.length ∧ formatValue text = some formatSupported ∧ headerDims text = some (h, w) := by
  unfold parseHeader at hparse
  split at hparse
  case isFalse => cases hparse
  case isTrue hlength =>
    split at hparse
    case isFalse => cases hparse
    case isTrue hformat =>
      split at hparse
      case h_1 hdims => cases hparse; exact ⟨hlength, hformat, hdims⟩
      case h_2 => cases hparse

/-- The two failures of a header (R143, R146, R148). -/
theorem parseHeader_error {hs : HState} {text : List Byte} {k : FailKind} (hparse : parseHeader hs text = .error k) :
    k = .malformedHeader ∨ k = .unsupportedFormat := by
  unfold parseHeader at hparse
  split at hparse
  case isFalse => cases hparse; exact .inl rfl
  case isTrue =>
    split at hparse
    case isFalse => cases hparse; exact .inr rfl
    case isTrue =>
      split at hparse
      case h_1 => cases hparse
      case h_2 => cases hparse; exact .inl rfl

/-- The ways the header token can answer: the header fails, the image does not fit, the image begins, `HDRP` is done. -/
inductive HeaderMove (s : State) (thenScan : Bool) (st : Staged) (d : Bool) : State → Prop
  | fails (k : FailKind) (hk : k = .malformedHeader ∨ k = .unsupportedFormat) : HeaderMove s thenScan st d (s.raise k)
  | tooSmall (hscan : thenScan = true) : HeaderMove s thenScan st d (s.raise .outputTooSmall)
  | image (n h w : Nat) (hscan : thenScan = true) (hn : 4 ≤ n ∧ n ≤ s.regs.srcLen.toNat) (hh : 1 ≤ h ∧ h ≤ Config.dimMax)
      (hw : 1 ≤ w ∧ w ≤ Config.dimMax) (hfits : 4 * w * h ≤ s.regs.dstLen.toNat) :
    HeaderMove s thenScan st d
      { s with run := some { phase := .line (some h) .start, staged := stageHeader st n h w, disturbed := d } }
  | done (n h w : Nat) (hscan : thenScan = false) (hn : 4 ≤ n ∧ n ≤ s.regs.srcLen.toNat) (hh : 1 ≤ h ∧ h ≤ Config.dimMax)
      (hw : 1 ≤ w ∧ w ≤ Config.dimMax) :
    HeaderMove s thenScan st d (s.finish (s.regs.commit (stageHeader st n h w)))

theorem exec_hdr_of_run {s : State} {thenScan : Bool} {hs : HState} {st : Staged} {d : Bool} (text : List Byte)
    (hrun : s.run = some { phase := .header thenScan hs, staged := st, disturbed := d }) :
    exec (.hdr text) s =
      match parseHeader hs text with
      | .error k => .next (s.raise k)
      | .ok (h, w) =>
        if thenScan then
          .next (startImage { phase := .header thenScan hs, staged := st, disturbed := d } (stageHeader st text.length h w) w h s)
        else .next (s.finish (s.regs.commit (stageHeader st text.length h w))) := by
  simp only [exec, execHdr, hrun] <;> rfl

theorem exec_hdr_headerMove {s : State} {thenScan : Bool} {st : Staged} {d : Bool} {text : List Byte}
    (hrun : s.run = some { phase := .header thenScan .s0, staged := st, disturbed := d })
    (htext : text.length ≤ s.regs.srcLen.toNat) :
    ∃ t, exec (.hdr text) s = .next t ∧ HeaderMove s thenScan st d t := by
  rw [exec_hdr_of_run text hrun]
  cases hparse : parseHeader .s0 text with
  | error k => exact ⟨_, rfl, .fails k (parseHeader_error hparse)⟩
  | ok hw =>
    obtain ⟨h, w⟩ := hw
    obtain ⟨hlength, -, hdims⟩ := parseHeader_ok hparse
    obtain ⟨hh, hw⟩ := headerDims_bounds hdims
    have hn := And.intro (four_le_of_headerLength hlength) htext
    cases thenScan with
    | false => exact ⟨_, rfl, .done _ h w rfl hn hh hw⟩
    | true =>
      refine ⟨_, rfl, ?_⟩
      unfold startImage
      split
      case isTrue hfits => exact .image _ h w rfl hn hh hw hfits
      case isFalse => exact .tooSmall rfl

/-- The header place always holds a header token, within the source region (R142). -/
theorem fetch_header {s : State} {thenScan : Bool} {hs : HState} {st : Staged} {d : Bool} (hfits : s.regs.srcFits = true) :
    fetch { phase := .header thenScan hs, staged := st, disturbed := d } s =
      .run (.hdr ((streamFrom s 0).take ((headerLength hs (streamFrom s 0)).getD (streamFrom s 0).length))) := by
  have hcode : fetchCode { phase := .header thenScan hs, staged := st, disturbed := d } s = .bytes (streamFrom s 0) := rfl
  simp [fetch, hcode, hfits, Phase.place, decode_bytes, decodeToken]

theorem streamFrom_length (s : State) (pos : Nat) : (streamFrom s pos).length = s.regs.srcLen.toNat - pos := by
  rw [streamFrom, srcBytes_length, Nat.min_self]

theorem engineStep_header {s : State} {thenScan : Bool} {hs : HState} {st : Staged} {d : Bool}
    (hrun : s.run = some { phase := .header thenScan hs, staged := st, disturbed := d }) (hok : HeaderOk s.regs thenScan hs st) :
    ∃ t, engineStep s = .next t ∧ HeaderMove s thenScan st d t := by
  obtain rfl := hok.start
  rw [engineStep_running s _ hrun, fetch_header hok.srcFits]
  refine exec_hdr_headerMove hrun ?_
  rw [List.length_take, streamFrom_length]
  omega

/-! ### The commands at their issue -/

/-- The ways a command can answer at its issue: its checks fail, its header or its scanline begins, a conversion is done. -/
inductive IssueMove (s : State) : State → Prop
  | fails (k : FailKind) (hk : k = .badOperand ∨ s.regs.cmd = 2 ∧ k = .outputTooSmall) : IssueMove s (s.raise k)
  | header (thenScan : Bool) (hok : HeaderOk s.regs thenScan .s0 (Staged.atHeader s.regs)) :
    IssueMove s (s.start (.header thenScan .s0) (Staged.atHeader s.regs))
  | scan (hok : LineOk s.regs none .start (Staged.ofRegs s.regs)) :
    IssueMove s (s.start (.line none .start) (Staged.ofRegs s.regs))
  | converts (bs : List Byte) (n : Nat) (hlo : 4 ≤ s.regs.cmd.toNat) (hhi : s.regs.cmd.toNat ≤ 9) (hregions : s.regs.regionsOk = true)
      (hbs : bs.length = s.regs.dstLen.toNat) :
    IssueMove s
      (State.finish { s with mem := s.mem.writeBytes s.regs.dstAddr.toNat bs } { s.regs with count := BitVec.ofNat 32 n })

theorem execHdrp_issueMove {s : State} (hcmd : s.regs.cmd = 1) : ∃ t, execHdrp s = .next t ∧ IssueMove s t := by
  unfold execHdrp
  split
  case isTrue hfits =>
    have hok : HeaderOk s.regs false .s0 (Staged.atHeader s.regs) := ⟨hcmd, rfl, rfl, hfits, fun h => Bool.noConfusion h⟩
    exact ⟨_, rfl, .header false hok⟩
  case isFalse => exact ⟨_, rfl, .fails _ (.inl rfl)⟩

theorem execDhdr_issueMove {s : State} (hcmd : s.regs.cmd = 3) : ∃ t, execDhdr s = .next t ∧ IssueMove s t := by
  unfold execDhdr
  split
  case isTrue hregions =>
    have hok : HeaderOk s.regs true .s0 (Staged.atHeader s.regs) :=
      ⟨hcmd, rfl, rfl, srcFits_of_regionsOk hregions, fun _ => hregions⟩
    exact ⟨_, rfl, .header true hok⟩
  case isFalse => exact ⟨_, rfl, .fails _ (.inl rfl)⟩

/-- The failures of the issue checks of `SCAN` (R171). -/
theorem scanFailure_eq_some {r : Regs} {k : FailKind} (h : scanFailure r = some k) : k = .badOperand ∨ k = .outputTooSmall := by
  rw [scanFailure_eq] at h
  split_ifs at h <;> cases h
  · exact .inl rfl
  · exact .inr rfl
  · exact .inl rfl
  · exact .inl rfl

theorem scanFailure_eq_none_iff (r : Regs) :
    scanFailure r = none ↔
      r.regionsOk = true ∧ (1 ≤ r.width.toNat ∧ r.width.toNat ≤ 65535) ∧ r.pos.toNat ≤ r.srcLen.toNat ∧
        r.ipos.toNat + 4 * r.width.toNat ≤ r.dstLen.toNat := by
  rw [scanFailure_eq]
  constructor
  · intro h
    split_ifs at h with hregions hwidth hpos hroom
    exact ⟨Bool.eq_true_of_not_eq_false hregions, hwidth, hpos, hroom⟩
  · rintro ⟨hregions, hwidth, hpos, hroom⟩
    simp [hregions, hwidth, hpos, hroom]

theorem execScan_issueMove {s : State} (hcmd : s.regs.cmd = 2) : ∃ t, execScan s = .next t ∧ IssueMove s t := by
  unfold execScan
  split
  case h_1 k hfail => exact ⟨_, rfl, .fails k ((scanFailure_eq_some hfail).imp_right fun hk => ⟨hcmd, hk⟩)⟩
  case h_2 hpass =>
    obtain ⟨hregions, ⟨hlo, hhi⟩, hpos, hroom⟩ := (scanFailure_eq_none_iff s.regs).mp hpass
    have hcommand : phaseCommandOk s.regs.cmd (.line none .start) = true := decide_eq_true hcmd
    have hcapacity : s.regs.ipos.toNat + 4 * (linesLeft none * s.regs.width.toNat - emittedPixels .start) ≤ s.regs.dstLen.toNat := by
      simpa [linesLeft, emittedPixels] using hroom
    exact ⟨_, rfl, .scan ⟨hcommand, rfl, hregions, hlo, hhi, hpos, hcapacity, rfl⟩⟩

/-- The stride that the pixels of a conversion have in the destination is the one its checks take. -/
theorem convert_issueMove {s : State} {strideIn strideOut : Nat} {ok : Bool} {pixel : Memory → Nat → List Byte}
    (hlo : 4 ≤ s.regs.cmd.toNat) (hhi : s.regs.cmd.toNat ≤ 9) (hpixel : ∀ m a, (pixel m a).length = strideOut) :
    ∃ t, convert strideIn strideOut ok pixel s = .next t ∧ IssueMove s t := by
  rw [convert_eq]
  refine ⟨_, rfl, ?_⟩
  split
  case isTrue hok =>
    simp only [convertOk, Bool.and_eq_true, decide_eq_true_eq] at hok
    obtain ⟨⟨⟨hregions, -⟩, hdst⟩, -⟩ := hok
    have hlength := convertedBytes_length s strideIn strideOut pixel hpixel
    exact .converts _ _ hlo hhi hregions (hlength.trans hdst.symm)
  case isFalse => exact .fails _ (.inl rfl)

/-- Every command word answers at its issue in one of the four ways, an illegal one with its failure (R92). -/
theorem engineStep_issued {s : State} {r : Run} (hrun : s.run = some r) (hphase : r.phase = .issued) :
    ∃ t, engineStep s = .next t ∧ IssueMove s t := by
  rw [engineStep_running s r hrun]
  cases hdec : decodeCommand s.regs.cmd with
  | error e =>
    have he : e = .illegalCommand := by
      unfold decodeCommand at hdec
      split at hdec <;> cases hdec
      rfl
    subst he
    rw [fetch_of_illegal hphase hdec]
    exact ⟨_, rfl, .fails _ (.inl rfl)⟩
  | ok i =>
    rw [fetch_of_issued s hphase hdec]
    have hword := (decodeCommand_eq_ok_iff _ _).mp hdec
    change ∃ t, exec i s = .next t ∧ IssueMove s t
    cases i
    case hdr | nsSig | osMark | osPix | nsNop0 | nsRun | nsLit => cases hword
    all_goals
      have hcmd := (Code.word.inj hword).symm
    case hdrp => exact execHdrp_issueMove hcmd
    case scan => exact execScan_issueMove hcmd
    case dhdr => exact execDhdr_issueMove hcmd
    case rgbe2f | rgb9e52f =>
      exact convert_issueMove (by rw [hcmd]; decide) (by rw [hcmd]; decide) fun _ _ => FloatPixel.bytes_length _
    case f2rgbe => exact convert_issueMove (by rw [hcmd]; decide) (by rw [hcmd]; decide) fun _ _ => Rgbe.bytes_length _
    case f2rgb9e5 => exact convert_issueMove (by rw [hcmd]; decide) (by rw [hcmd]; decide) fun _ _ => leBytes_length _
    case rgbe2ldr | f2ldr => exact convert_issueMove (by rw [hcmd]; decide) (by rw [hcmd]; decide) fun _ _ => Ldr.bytes_length _

end Sys2Proof.Machine
end

section
/-!
PROOFS. The invariant along every step (R28 to R41, R68, R292): each of the moves of the engine and of the host keeps it; O50, O51 and O52
assembled from them.
-/

namespace Sys2Proof.Machine

/-! ### The moves of the engine -/

theorem linesLeft_some (n : Nat) : linesLeft (some n) = n := rfl

theorem emittedPixels_start : emittedPixels .start = 0 := rfl

theorem emittedPixels_plane (c : Chan) (tmp : Planes) : emittedPixels (.plane c tmp) = 0 := rfl

theorem emittedPixels_old (em sh : Nat) : emittedPixels (.old em sh) = em := rfl

/-- Which command decodes scanlines does not depend on the position in one. -/
theorem phaseCommandOk_line {cmd : Word} {rc : Option Nat} {lp : LinePos} (lp' : LinePos)
    (h : phaseCommandOk cmd (.line rc lp) = true) : phaseCommandOk cmd (.line rc lp') = true := by
  cases rc <;> exact h

theorem memoryOk_writeBytes {s : State} (h : memoryOk s = true) {a : Nat} {bs : List Byte} (ha : a + bs.length ≤ Config.memSize) :
    memoryOk { s with mem := s.mem.writeBytes a bs } = true :=
  memoryOk_mono h (Memory.wf_writeBytes (wf_of_memoryOk h) ha) (Memory.writeBytes_unspec ..) le_rfl

theorem IssueMove.inv {s t : State} {r : Run} (hmove : IssueMove s t) (h : Inv s) (hrun : s.run = some r) : Inv t := by
  obtain ⟨-, hmem, -⟩ := id h
  have hwf := wf_of_memoryOk hmem
  cases hmove with
  | fails k hk => exact State.inv_raise hmem k
  | header thenScan hok => exact h.goesOn hrun hwf rfl ((runOk_header_iff ..).mpr hok)
  | scan hok => exact h.goesOn hrun hwf rfl ((runOk_line_iff ..).mpr hok)
  | converts bs n hlo hhi hregions hbs =>
    refine State.inv_finish (memoryOk_writeBytes hmem ?_) _
    rw [hbs]
    exact dstEnd_le_of_regionsOk hregions

/-- The header's values let its first scanline begin (R152, R292). -/
theorem lineOk_stageHeader {regs : Regs} {st : Staged} {n h w : Nat} (hok : HeaderOk regs true .s0 st)
    (hn : n ≤ regs.srcLen.toNat) (hh : 1 ≤ h) (hw : 1 ≤ w ∧ w ≤ Config.dimMax) (hfits : 4 * w * h ≤ regs.dstLen.toNat) :
    LineOk regs (some h) .start (stageHeader st n h w) := by
  have hwidth : (stageHeader st n h w).width.toNat = w := by
    have hmax : Config.dimMax = 65535 := rfl
    rw [stageHeader_width, BitVec.toNat_ofNat]
    omega
  have hpos : (stageHeader st n h w).pos.toNat = n := by
    have hlt := regs.srcLen.isLt
    rw [stageHeader_pos, BitVec.toNat_ofNat]
    omega
  obtain rfl := hok.staged
  refine ⟨?_, rfl, hok.regions rfl, by omega, by omega, by omega, ?_, rfl⟩
  · simpa [phaseCommandOk, hh] using hok.cmd
  · have hcomm : 4 * (h * w) = 4 * w * h := by ring
    rw [hwidth]
    simpa [linesLeft_some, emittedPixels, hcomm] using hfits

theorem HeaderMove.inv {s t : State} {thenScan : Bool} {st : Staged} {d : Bool} (hmove : HeaderMove s thenScan st d t) (h : Inv s)
    (hrun : s.run = some { phase := .header thenScan .s0, staged := st, disturbed := d }) (hok : HeaderOk s.regs thenScan .s0 st) :
    Inv t := by
  obtain ⟨-, hmem, -⟩ := id h
  cases hmove with
  | fails k hk => exact State.inv_raise hmem k
  | tooSmall hscan => exact State.inv_raise hmem _
  | image n hgt w hscan hn hh hw hfits =>
    subst hscan
    exact h.goesOn hrun (wf_of_memoryOk hmem) rfl ((runOk_line_iff ..).mpr (lineOk_stageHeader hok hn.2 hh.1 hw hfits))
  | done n hgt w hscan hn hh hw => exact State.inv_finish hmem _

namespace LineOk

variable {regs : Regs} {rc : Option Nat} {lp : LinePos} {st : Staged}

/-- A token consumed in a channel plane. -/
theorem skip_plane (h : LineOk regs rc lp st) {n : Nat} (hn : n ≤ regs.srcLen.toNat - st.pos.toNat) {c : Chan} {tmp : Planes}
    (hplanes : planesOk st.width.toNat c tmp = true) (hem : emittedPixels lp = 0) :
    LineOk regs rc (.plane c tmp) (st.skip n) := by
  have hpos := h.toNat_pos_skip hn
  have hle := h.pos_le
  have hcap := h.capacity
  rw [hem] at hcap
  exact ⟨phaseCommandOk_line _ h.command, h.count, h.regions, h.one_le_width, h.width_le, by omega, hcap, hplanes⟩

/-- A group consumed and its pixels stored, with more to come. -/
theorem skip_group (h : LineOk regs rc lp st) {n : Nat} (hn : n ≤ regs.srcLen.toNat - st.pos.toNat) {px : List Rgbe} {sh : Nat}
    (hmore : emittedPixels lp + px.length < st.width.toNat) (hmod : sh % 8 = 0) (hsh : sh ≤ 248) :
    LineOk regs rc (.old (emittedPixels lp + px.length) sh) ((st.skip n).emitted px) := by
  have hpos := h.toNat_pos_skip hn
  have hle := h.pos_le
  have hipos := h.toNat_ipos_emitted hmore.le n
  have hcap := h.capacity
  have hlines := Nat.mul_le_mul_right st.width.toNat (one_le_linesLeft h.command)
  refine ⟨phaseCommandOk_line _ h.command, h.count, h.regions, h.one_le_width, h.width_le, ?_, ?_, ?_⟩
  · rw [Staged.emitted_pos]
    omega
  · rw [hipos, Staged.emitted_width, Staged.skip_width, emittedPixels_old]
    omega
  · simp [linePosOk, hmore, hmod, hsh]

/-- The last pixels of a scanline stored, with another scanline to come. -/
theorem skip_lineEnd {n : Nat} (h : LineOk regs (some (n + 2)) lp st) {k : Nat} (hk : k ≤ regs.srcLen.toNat - st.pos.toNat)
    {px : List Rgbe} (hlast : emittedPixels lp + px.length = st.width.toNat) (row : Word) :
    LineOk regs (some (n + 1)) .start { (st.skip k).emitted px with row := row } := by
  have hpos := h.toNat_pos_skip hk
  have hle := h.pos_le
  have hipos := h.toNat_ipos_emitted hlast.le k
  have hcap := h.capacity
  have hlines : (n + 2) * st.width.toNat = (n + 1) * st.width.toNat + st.width.toNat := by ring
  have hcommand : phaseCommandOk regs.cmd (.line (some (n + 1)) .start) = true := by
    simpa [phaseCommandOk] using cmd_of_lineCommand h.command
  refine ⟨hcommand, h.count, h.regions, h.one_le_width, h.width_le, ?_, ?_, rfl⟩
  · rw [Staged.emitted_pos]
    omega
  · rw [linesLeft_some] at hcap
    rw [hipos, Staged.emitted_width, Staged.skip_width, emittedPixels_start, linesLeft_some]
    omega

end LineOk

/-- The memory after an emission of a scanline. -/
theorem LineOk.memoryOk_emitted {s : State} {rc : Option Nat} {lp : LinePos} {st : Staged} (h : LineOk s.regs rc lp st)
    (hmem : memoryOk s = true) {px : List Rgbe} (hpx : emittedPixels lp + px.length ≤ st.width.toNat) (n : Nat) :
    memoryOk { s with mem := s.mem.writeBytes (emitAddr s.regs (st.skip n)) (pixelBytes px) } = true := by
  refine memoryOk_writeBytes hmem ?_
  rw [pixelBytes_length]
  exact (h.emitAddr_le hpx).2

theorem LineMove.inv {s t : State} {rc : Option Nat} {lp : LinePos} {st : Staged} {d : Bool} {n : Nat}
    (hmove : LineMove s rc lp st d n t) (h : Inv s) (hrun : s.run = some { phase := .line rc lp, staged := st, disturbed := d })
    (hok : LineOk s.regs rc lp st) (hn : n ≤ s.regs.srcLen.toNat - st.pos.toNat) : Inv t := by
  obtain ⟨-, hmem, -⟩ := id h
  cases hmove with
  | mismatch => exact State.inv_raise hmem _
  | plane c tmp hplanes hem =>
    exact h.goesOn hrun (wf_of_memoryOk hmem) rfl ((runOk_line_iff ..).mpr (hok.skip_plane hn hplanes hem))
  | group px sh hmore hmod hsh =>
    have hwf := wf_of_memoryOk (hok.memoryOk_emitted hmem hmore.le n)
    exact h.goesOn hrun hwf (Memory.writeBytes_unspec ..) ((runOk_line_iff ..).mpr (hok.skip_group hn hmore hmod hsh))
  | lineEnd px hlast =>
    have hmem' := hok.memoryOk_emitted hmem hlast.le n
    rcases endLine_cases rc { phase := .line rc lp, staged := (st.skip n).emitted px, disturbed := d }
        { s with mem := s.mem.writeBytes (emitAddr s.regs (st.skip n)) (pixelBytes px) } with ⟨m, rfl, heq⟩ | ⟨-, heq⟩
    · rw [heq]
      have hwf := wf_of_memoryOk hmem'
      exact h.goesOn hrun hwf (Memory.writeBytes_unspec ..) ((runOk_line_iff ..).mpr (hok.skip_lineEnd hn hlast _))
    · rw [heq]
      exact State.inv_finish hmem' _

/-- What the invariant says of the phase a running command is in. -/
inductive RunningOk (s : State) : Prop
  | issued (st : Staged) (d : Bool) (hrun : s.run = some { phase := .issued, staged := st, disturbed := d })
  | header (thenScan : Bool) (st : Staged) (d : Bool)
      (hrun : s.run = some { phase := .header thenScan .s0, staged := st, disturbed := d }) (hok : HeaderOk s.regs thenScan .s0 st)
  | line (rc : Option Nat) (lp : LinePos) (st : Staged) (d : Bool)
      (hrun : s.run = some { phase := .line rc lp, staged := st, disturbed := d }) (hok : LineOk s.regs rc lp st)

theorem Inv.runningOk {s : State} (h : Inv s) (hrun : s.run ≠ none) : RunningOk s := by
  obtain ⟨-, -, hr⟩ := h
  obtain ⟨⟨phase, st, d⟩, hrun⟩ := Option.ne_none_iff_exists'.mp hrun
  have hok := hr _ hrun
  cases phase with
  | issued => exact .issued st d hrun
  | header thenScan hs =>
    have hheader := (runOk_header_iff ..).mp hok
    obtain rfl := hheader.start
    exact .header thenScan st d hrun hheader
  | line rc lp => exact .line rc lp st d hrun ((runOk_line_iff ..).mp hok)

/-- The engine never stops, and keeps the invariant. -/
theorem Inv.engineStep {s : State} (h : Inv s) : ∃ t, engineStep s = .next t ∧ Inv t := by
  cases hidle : s.run with
  | none => exact ⟨s, engineStep_idle s hidle, h⟩
  | some r =>
    cases h.runningOk (hidle ▸ Option.some_ne_none r) with
    | issued st d hrun =>
      obtain ⟨t, hstep, hmove⟩ := engineStep_issued hrun rfl
      exact ⟨t, hstep, hmove.inv h hrun⟩
    | header thenScan st d hrun hok =>
      obtain ⟨t, hstep, hmove⟩ := engineStep_header hrun hok
      exact ⟨t, hstep, hmove.inv h hrun hok⟩
    | line rc lp st d hrun hok =>
      rcases engineStep_line hrun hok with hstep | ⟨n, t, -, hn, hstep, hmove⟩
      · exact ⟨_, hstep, State.inv_raise h.2.1 _⟩
      · exact ⟨t, hstep, hmove.inv h hrun hok hn⟩

/-! ### The moves of the host -/

theorem Regs.hostSet_status (r : Regs) (i : Nat) (v : Word) : (r.hostSet i v).status = r.status := by
  unfold Regs.hostSet
  split <;> rfl

theorem Regs.hostSet_errcode (r : Regs) (i : Nat) (v : Word) : (r.hostSet i v).errcode = r.errcode := by
  unfold Regs.hostSet
  split <;> rfl

theorem statusOk_congr {s t : State} (h : statusOk s = true) (hrun : t.run.isSome = s.run.isSome) (hstatus : t.regs.status = s.regs.status)
    (herrcode : t.regs.errcode = s.regs.errcode) : statusOk t = true := by
  cases hs : s.run with
  | none =>
    have ht : t.run = none := by simpa [hs] using hrun
    rwa [statusOk_of_idle ht, hstatus, herrcode, ← statusOk_of_idle hs]
  | some r =>
    obtain ⟨r', ht⟩ := Option.isSome_iff_exists.mp (hrun.trans (hs ▸ rfl))
    rwa [statusOk_of_running ht, hstatus, herrcode, ← statusOk_of_running hs]

theorem State.inv_issue {s : State} (h : Inv s) (c : Word) : Inv (s.issue c) := by
  obtain ⟨-, hmem, -⟩ := h
  refine ⟨(statusOk_of_running rfl).mpr ⟨rfl, rfl⟩, memoryOk_mono hmem (wf_of_memoryOk hmem) rfl le_rfl, ?_⟩
  intro r hr
  cases hr
  exact (runOk_issued_iff _ _ _).mpr rfl

/-- A write while busy is ignored, a write to `CMD` issues a command, any other write leaves `STATUS` and `ERRCODE` alone (R37). -/
theorem State.inv_hostWrite {s : State} (h : Inv s) (i : Nat) (v : Word) : Inv (s.hostWrite i v) := by
  unfold State.hostWrite
  split
  case h_1 => exact h
  case h_2 hidle =>
    split
    case isTrue => exact State.inv_issue h v
    case isFalse =>
      obtain ⟨hstatus, hmem, -⟩ := h
      exact inv_of_idle hidle (statusOk_congr hstatus rfl (Regs.hostSet_status ..) (Regs.hostSet_errcode ..)) hmem

/-- Fields that the invariant does not speak of, and more draws. -/
theorem Inv.of_draws {s t : State} (h : Inv s) (hregs : t.regs = s.regs) (hmem : t.mem = s.mem) (hrun : t.run = s.run)
    (hdraws : s.draws ≤ t.draws) : Inv t := by
  obtain ⟨hstatus, hmemory, hr⟩ := h
  refine ⟨statusOk_congr hstatus (hrun ▸ rfl) (hregs ▸ rfl) (hregs ▸ rfl), ?_, by rwa [hregs, hrun]⟩
  exact memoryOk_mono hmemory (hmem ▸ wf_of_memoryOk hmemory) (hmem ▸ rfl) hdraws

theorem State.inv_hostRead {s : State} (h : Inv s) (i : Nat) : Inv (s.hostRead i) := by
  unfold State.hostRead
  split
  · exact h.of_draws rfl rfl rfl (Nat.le_succ _)
  · exact h.of_draws rfl rfl rfl le_rfl

/-- The mark of a disturbed command is nothing the invariant speaks of. -/
theorem State.inv_disturb {s : State} (h : Inv s) : Inv s.disturb := by
  obtain ⟨hstatus, hmem, hr⟩ := h
  refine ⟨statusOk_congr hstatus (by simp) rfl rfl, hmem, fun r' hr' => ?_⟩
  rw [State.disturb_run, Option.map_eq_some_iff] at hr'
  obtain ⟨r, hrun, rfl⟩ := hr'
  exact hr r hrun

theorem State.inv_hostStore {s : State} (h : Inv s) {a : Nat} (ha : a < Config.memSize) (b : Byte) : Inv (s.hostStore a b) := by
  have hstored : Inv { s with mem := s.mem.write a b } := by
    obtain ⟨hstatus, hmem, hr⟩ := h
    exact ⟨hstatus, memoryOk_mono hmem (Memory.wf_write b (wf_of_memoryOk hmem) ha) rfl le_rfl, hr⟩
  unfold State.hostStore
  split
  · exact State.inv_disturb hstored
  · exact hstored

theorem State.inv_hostLoad {s : State} (h : Inv s) (a : Nat) : Inv (s.hostLoad a) := by
  unfold State.hostLoad
  split
  · exact (State.inv_disturb h).of_draws rfl rfl rfl (Nat.le_succ _)
  · exact h.of_draws rfl rfl rfl le_rfl

theorem State.memoryOk_resetBlock {s : State} (h : memoryOk s = true) : memoryOk s.resetBlock = true := by
  cases hrun : s.run with
  | none =>
    refine memoryOk_mono h (State.resetBlock_mem_of_idle hrun ▸ wf_of_memoryOk h) ?_ ?_ <;> simp [State.resetBlock, hrun]
  | some r =>
    have hspoiled := State.memoryOk_spoilDestination h
    refine memoryOk_mono hspoiled (State.resetBlock_mem_of_running hrun ▸ wf_of_memoryOk hspoiled) ?_ ?_ <;>
      simp [State.resetBlock, hrun]

theorem State.inv_resetBlock {s : State} (h : Inv s) : Inv s.resetBlock :=
  inv_of_idle (State.resetBlock_run s) ((statusOk_of_idle (State.resetBlock_run s)).mpr (.inl ⟨rfl, rfl⟩))
    (State.memoryOk_resetBlock h.2.1)

/-! ### The statements -/

theorem inv_reset : Inv State.reset :=
  inv_of_idle rfl rfl rfl

theorem Inv.inputs {s : State} (h : Inv s) (rest : List HostMove) : Inv { s with inputs := rest } := h

/-- A move of the host keeps the invariant; only an access to an address that memory does not have stops the machine. -/
theorem Inv.hostStep {s : State} (h : Inv s) (mv : HostMove) :
    (∃ t, hostStep mv s = .next t ∧ Inv t) ∨
      ∃ a, 2 ^ 32 ≤ a ∧ hostStep mv s = .fault (.outsideMemory a) ∧ ((∃ b, mv = .store a b) ∨ mv = .load a) := by
  cases mv with
  | write i v => exact .inl ⟨_, rfl, State.inv_hostWrite h i v⟩
  | read i => exact .inl ⟨_, rfl, State.inv_hostRead h i⟩
  | reset => exact .inl ⟨_, rfl, State.inv_resetBlock h⟩
  | wait => exact .inl h.engineStep
  | store a b =>
    by_cases ha : a < Config.memSize
    · exact .inl ⟨_, if_pos ha, State.inv_hostStore h ha b⟩
    · exact .inr ⟨a, Nat.not_lt.mp ha, if_neg ha, .inl ⟨b, rfl⟩⟩
  | load a =>
    by_cases ha : a < Config.memSize
    · exact .inl ⟨_, if_pos ha, State.inv_hostLoad h a⟩
    · exact .inr ⟨a, Nat.not_lt.mp ha, if_neg ha, .inr rfl⟩

/-- Settles O50: at reset the engine is idle and nothing has been written. -/
theorem invAtReset : Obligations.InvAtReset := inv_reset

/-- Settles O52: the engine always answers a next state, and a host move does but for the access outside memory. -/
theorem engineNeverStops : Obligations.EngineNeverStops := by
  intro s h
  cases hinputs : s.inputs with
  | nil =>
    obtain ⟨t, hstep, -⟩ := h.engineStep
    exact .inl ⟨t, (step_engine s hinputs).trans hstep⟩
  | cons mv rest =>
    rw [step_host s mv rest hinputs]
    rcases (h.inputs rest).hostStep mv with ⟨t, hstep, -⟩ | ⟨a, ha, hstep, ⟨b, rfl⟩ | rfl⟩
    · exact .inl ⟨t, hstep⟩
    · exact .inr ⟨a, ha, hstep, .inl ⟨b, rest, rfl⟩⟩
    · exact .inr ⟨a, ha, hstep, .inr ⟨rest, rfl⟩⟩

/-- Settles O51: a step is the engine's or a host move, and either keeps the invariant where it answers a next state. -/
theorem stepKeepsInv : Obligations.StepKeepsInv := by
  intro s t h hstep
  cases hinputs : s.inputs with
  | nil =>
    obtain ⟨u, hnext, hu⟩ := h.engineStep
    rw [step_engine s hinputs, hnext] at hstep
    cases hstep
    exact hu
  | cons mv rest =>
    rw [step_host s mv rest hinputs] at hstep
    rcases (h.inputs rest).hostStep mv with ⟨u, hnext, hu⟩ | ⟨a, -, hfault, -⟩
    · rw [hnext] at hstep
      cases hstep
      exact hu
    · rw [hfault] at hstep
      cases hstep

end Sys2Proof.Machine
end

section
/-!
PROOFS. What a step leaves unchanged: memory outside the destination region (R62, R71, R72), the operand registers (R21 to R27), and what a
disturbed command may still do (R76); O54, O55 and O60 assembled from them.
-/

namespace Sys2Proof.Machine

/-! ### Memory outside the destination region -/

/-- A byte outside the destination region of a command that has one. -/
theorem outside_of_not_inDestination {r : Regs} {a : Nat} (h : ¬ InDestination r a) (hlo : 2 ≤ r.cmd.toNat) (hhi : r.cmd.toNat ≤ 9) :
    a < r.dstAddr.toNat ∨ r.dstAddr.toNat + r.dstLen.toNat ≤ a := by
  by_contra hinside
  push Not at hinside
  exact h ⟨hlo, hhi, hinside⟩

theorem inDestination_eq_false {r : Regs} {a : Nat} (h : ¬ InDestination r a) : r.inDestination a = false := by
  rwa [← inDestination_iff, Bool.not_eq_true] at h

/-- The end of a command, with bytes written before it outside `a`. -/
theorem State.read_finish_written {s : State} (m : Memory) (regs : Regs) {a : Nat} (h : ¬ InDestination s.regs a) :
    (State.finish { s with mem := m } regs).mem.read a = m.read a :=
  State.read_conclude { s with mem := m } none regs a (inDestination_eq_false h)

theorem IssueMove.read {s t : State} (hmove : IssueMove s t) {a : Nat} (h : ¬ InDestination s.regs a) :
    t.mem.read a = s.mem.read a := by
  cases hmove with
  | fails k hk => exact State.read_raise s k a (inDestination_eq_false h)
  | header thenScan hok => rfl
  | scan hok => rfl
  | converts bs n hlo hhi hregions hbs =>
    rw [State.read_finish_written _ _ h]
    refine Memory.read_writeBytes_outside _ _ _ ?_
    rw [hbs]
    exact outside_of_not_inDestination h (by omega) hhi

theorem HeaderMove.read {s t : State} {thenScan : Bool} {st : Staged} {d : Bool} (hmove : HeaderMove s thenScan st d t) {a : Nat}
    (h : ¬ InDestination s.regs a) : t.mem.read a = s.mem.read a := by
  cases hmove with
  | fails k hk => exact State.read_raise s k a (inDestination_eq_false h)
  | tooSmall hscan => exact State.read_raise s _ a (inDestination_eq_false h)
  | image => rfl
  | done => exact State.read_conclude s none _ a (inDestination_eq_false h)

/-- What a scanline's token stores lies in the destination region. -/
theorem LineOk.read_emitted {s : State} {rc : Option Nat} {lp : LinePos} {st : Staged} (hok : LineOk s.regs rc lp st)
    {px : List Rgbe} (hpx : emittedPixels lp + px.length ≤ st.width.toNat) (n : Nat) {a : Nat} (h : ¬ InDestination s.regs a) :
    (s.mem.writeBytes (emitAddr s.regs (st.skip n)) (pixelBytes px)).read a = s.mem.read a := by
  have hcmd := cmd_of_lineCommand hok.command
  have hrange : 2 ≤ s.regs.cmd.toNat ∧ s.regs.cmd.toNat ≤ 9 := by
    rw [hcmd]
    split <;> decide
  have houtside := outside_of_not_inDestination h hrange.1 hrange.2
  have hroom := (hok.emitAddr_le (n := n) hpx).1
  refine Memory.read_writeBytes_outside _ _ _ ?_
  rw [pixelBytes_length]
  rw [emitAddr] at hroom ⊢
  omega

theorem LineMove.read {s t : State} {rc : Option Nat} {lp : LinePos} {st : Staged} {d : Bool} {n : Nat}
    (hmove : LineMove s rc lp st d n t) (hok : LineOk s.regs rc lp st) {a : Nat} (h : ¬ InDestination s.regs a) :
    t.mem.read a = s.mem.read a := by
  cases hmove with
  | mismatch => exact State.read_raise s _ a (inDestination_eq_false h)
  | plane => rfl
  | group px sh hmore hmod hsh => exact hok.read_emitted hmore.le n h
  | lineEnd px hlast =>
    rw [← hok.read_emitted hlast.le n h]
    rcases endLine_cases rc { phase := .line rc lp, staged := (st.skip n).emitted px, disturbed := d }
        { s with mem := s.mem.writeBytes (emitAddr s.regs (st.skip n)) (pixelBytes px) } with ⟨m, -, heq⟩ | ⟨-, heq⟩
    · rw [heq]
    · rw [heq]
      exact State.read_finish_written _ _ h

theorem next_inj {o : Result} {t u : State} (ht : o = .next t) (hu : o = .next u) : t = u :=
  Host.Outcome.next.inj (ht.symm.trans hu)

theorem read_engineStep_of_inv {s t : State} (hinv : Inv s) (hstep : engineStep s = .next t) {a : Nat} (h : ¬ InDestination s.regs a) :
    t.mem.read a = s.mem.read a := by
  cases hidle : s.run with
  | none =>
    rw [engineStep_idle s hidle] at hstep
    cases hstep
    rfl
  | some r =>
    cases hinv.runningOk (hidle ▸ Option.some_ne_none r) with
    | issued st d hrun =>
      obtain ⟨u, hnext, hmove⟩ := engineStep_issued hrun rfl
      obtain rfl := next_inj hnext hstep
      exact hmove.read h
    | header thenScan st d hrun hok =>
      obtain ⟨u, hnext, hmove⟩ := engineStep_header hrun hok
      obtain rfl := next_inj hnext hstep
      exact hmove.read h
    | line rc lp st d hrun hok =>
      rcases engineStep_line hrun hok with hnext | ⟨n, u, -, -, hnext, hmove⟩
      · obtain rfl := next_inj hnext hstep
        exact State.read_raise s _ a (inDestination_eq_false h)
      · obtain rfl := next_inj hnext hstep
        exact hmove.read hok h

/-! ### The moves of the host that store nothing -/

theorem State.hostWrite_mem (s : State) (i : Nat) (v : Word) : (s.hostWrite i v).mem = s.mem := by
  unfold State.hostWrite
  split
  · rfl
  · split <;> rfl

theorem State.hostRead_mem (s : State) (i : Nat) : (s.hostRead i).mem = s.mem := by
  unfold State.hostRead
  split <;> rfl

theorem State.hostLoad_mem (s : State) (a : Nat) : (s.hostLoad a).mem = s.mem := by
  unfold State.hostLoad
  split <;> rfl

/-- Settles O54: the engine writes the destination region only, reset spoils no more than it, and the host stores by a store alone. -/
theorem onlyDestinationWritten : Obligations.OnlyDestinationWritten := by
  intro s t a hinv hstep hstore h
  cases hinputs : s.inputs with
  | nil => exact read_engineStep_of_inv hinv (step_engine s hinputs ▸ hstep) h
  | cons mv rest =>
    rw [step_host s mv rest hinputs] at hstep
    cases mv with
    | write i v => cases hstep; rw [State.hostWrite_mem]
    | read i => cases hstep; rw [State.hostRead_mem]
    | store x b => exact absurd hinputs (hstore x b rest)
    | load x =>
      simp only [hostStep] at hstep
      split at hstep <;> cases hstep
      rw [State.hostLoad_mem]
    | reset => cases hstep; exact State.read_resetBlock { s with inputs := rest } h
    | wait => exact read_engineStep_of_inv (hinv.inputs rest) hstep h

/-! ### The operand registers (R21 to R27) -/

/-- The operand registers and `CMD` are the registers of index 0 to 6. -/
theorem Regs.get_eq_of_operands (r r' : Regs) (h0 : r.srcAddr = r'.srcAddr) (h1 : r.srcLen = r'.srcLen) (h2 : r.dstAddr = r'.dstAddr)
    (h3 : r.dstLen = r'.dstLen) (h4 : r.exposure = r'.exposure) (h5 : r.gamma = r'.gamma) (h6 : r.cmd = r'.cmd) {i : Nat} (hi : i ≤ 6) :
    r.get i = r'.get i := by
  interval_cases i <;> assumption

theorem Regs.get_withOutcome_operand (r : Regs) (n : Nat) {i : Nat} (hi : i ≤ 6) : (r.withOutcome n).get i = r.get i :=
  Regs.get_eq_of_operands (r.withOutcome n) r rfl rfl rfl rfl rfl rfl rfl hi

theorem Regs.get_scramble_operand (r : Regs) (d : Nat) {i : Nat} (hi : i ≤ 6) : (r.scramble d).get i = r.get i :=
  Regs.get_eq_of_operands (r.scramble d) r rfl rfl rfl rfl rfl rfl rfl hi

theorem Regs.get_commit_operand (r : Regs) (st : Staged) {i : Nat} (hi : i ≤ 6) : (r.commit st).get i = r.get i :=
  Regs.get_eq_of_operands (r.commit st) r rfl rfl rfl rfl rfl rfl rfl hi

theorem Regs.get_withCount_operand (r : Regs) (n : Word) {i : Nat} (hi : i ≤ 6) : Regs.get { r with count := n } i = r.get i :=
  Regs.get_eq_of_operands { r with count := n } r rfl rfl rfl rfl rfl rfl rfl hi

theorem State.endDisturbed_regs (s : State) :
    ∃ d, s.endDisturbed.regs = (s.regs.scramble d).withOutcome (Config.disturbedOutcome d % 7) :=
  ⟨s.spoilDestination.draws + 1, by simp [State.endDisturbed]⟩

/-- A command that ends leaves the operand registers alone, disturbed or not, where the registers it hands over have them. -/
theorem State.get_conclude_operand {s : State} (o : Option FailKind) {regs : Regs} {i : Nat} (hi : i ≤ 6)
    (hregs : regs.get i = s.regs.get i) : (s.conclude o regs).regs.get i = s.regs.get i := by
  cases hd : s.disturbed with
  | false => rw [State.conclude_undisturbed _ _ _ hd, Regs.get_withOutcome_operand _ _ hi, hregs]
  | true =>
    obtain ⟨d, heq⟩ := s.endDisturbed_regs
    rw [State.conclude_disturbed _ _ _ hd, heq, Regs.get_withOutcome_operand _ _ hi, Regs.get_scramble_operand _ _ hi]

theorem State.get_raise_operand (s : State) (k : FailKind) {i : Nat} (hi : i ≤ 6) : (s.raise k).regs.get i = s.regs.get i := by
  unfold State.raise
  split
  · rw [State.get_conclude_operand _ hi (by simp), State.spoilDestination_regs]
  · exact State.get_conclude_operand _ hi rfl

theorem State.conclude_busData (s : State) (o : Option FailKind) (regs : Regs) : (s.conclude o regs).busData = s.busData := by
  unfold State.conclude
  split
  · simp [State.endDisturbed]
  · rfl

theorem State.raise_busData (s : State) (k : FailKind) : (s.raise k).busData = s.busData := by
  unfold State.raise
  split <;> simp [State.conclude_busData]

/-- What every answer of a running command leaves alone. -/
structure KeepsOperands (s t : State) : Prop where
  operands : ∀ i, i ≤ 6 → t.regs.get i = s.regs.get i
  registers : t.run ≠ none → t.regs = s.regs
  inputs : t.inputs = s.inputs
  busData : t.busData = s.busData

theorem KeepsOperands.goesOn (s : State) (m : Memory) (r : Run) : KeepsOperands s { s with mem := m, run := some r } :=
  ⟨fun _ _ => rfl, fun _ => rfl, rfl, rfl⟩

theorem KeepsOperands.raise (s : State) (k : FailKind) : KeepsOperands s (s.raise k) :=
  ⟨fun _ hi => s.get_raise_operand k hi, fun h => absurd (s.raise_run k) h, s.raise_inputs k, s.raise_busData k⟩

theorem KeepsOperands.finish (s : State) (m : Memory) {regs : Regs} (hregs : ∀ i, i ≤ 6 → regs.get i = s.regs.get i) :
    KeepsOperands s (State.finish { s with mem := m } regs) :=
  ⟨fun _ hi => State.get_conclude_operand (s := { s with mem := m }) none hi (hregs _ hi), fun h => absurd (State.finish_run _ _) h,
    State.finish_inputs _ _, State.conclude_busData _ _ _⟩

theorem KeepsOperands.commit (s : State) (m : Memory) (st : Staged) : KeepsOperands s (State.finish { s with mem := m } (s.regs.commit st)) :=
  .finish s m fun _ hi => Regs.get_commit_operand _ _ hi

theorem convert_keepsOperands {s t : State} {strideIn strideOut : Nat} {ok : Bool} {pixel : Memory → Nat → List Byte}
    (h : convert strideIn strideOut ok pixel s = .next t) : KeepsOperands s t := by
  rw [convert_eq] at h
  split at h <;> cases h
  · exact .finish s _ fun _ hi => Regs.get_withCount_operand _ _ hi
  · exact .raise s _

theorem execHdr_keepsOperands {s t : State} {text : List Byte} (h : execHdr text s = .next t) : KeepsOperands s t := by
  unfold execHdr at h
  split at h
  case h_2 => cases h
  case h_1 =>
    split at h
    case h_1 => cases h; exact .raise s _
    case h_2 =>
      split at h <;> cases h
      · unfold startImage
        split
        · exact .goesOn s s.mem _
        · exact .raise s _
      · exact .commit s s.mem _

theorem emitThen_keepsOperands {s t : State} {r : Run} {px : List Rgbe} {rc : Option Nat} {rest : Option LinePos}
    (h : emitThen px rc rest r s = .next t) : KeepsOperands s t := by
  rw [emitThen_eq] at h
  split at h <;> cases h
  cases rest with
  | some lp => exact .goesOn s _ _
  | none =>
    rcases endLine_cases rc { r with staged := r.staged.emitted px }
        { s with mem := s.mem.writeBytes (emitAddr s.regs r.staged) (pixelBytes px) } with ⟨n, -, heq⟩ | ⟨-, heq⟩
    · exact heq ▸ .goesOn s _ _
    · exact heq ▸ .commit s _ _

theorem planeToken_keepsOperands {s t : State} {r : Run} {rc : Option Nat} {c : Chan} {tmp : Planes} {n : Nat} {bs : List Byte}
    (h : planeToken rc c tmp n bs r s = .next t) : KeepsOperands s t := by
  rcases planeToken_cases rc c tmp n bs r s with ⟨-, heq⟩ | ⟨-, c', -, heq⟩ | ⟨-, -, heq⟩ <;> rw [heq] at h
  · cases h; exact .goesOn s s.mem _
  · cases h; exact .goesOn s s.mem _
  · exact emitThen_keepsOperands h

theorem execHdrp_keepsOperands {s t : State} (h : execHdrp s = .next t) : KeepsOperands s t := by
  unfold execHdrp at h
  split at h <;> cases h
  · exact .goesOn s s.mem _
  · exact .raise s _

theorem execDhdr_keepsOperands {s t : State} (h : execDhdr s = .next t) : KeepsOperands s t := by
  unfold execDhdr at h
  split at h <;> cases h
  · exact .goesOn s s.mem _
  · exact .raise s _

theorem execScan_keepsOperands {s t : State} (h : execScan s = .next t) : KeepsOperands s t := by
  unfold execScan at h
  split at h <;> cases h
  · exact .raise s _
  · exact .goesOn s s.mem _

theorem execNsSig_keepsOperands {s t : State} {width16 : BitVec 15} (h : execNsSig width16 s = .next t) : KeepsOperands s t := by
  unfold execNsSig at h
  split at h
  case h_2 => cases h
  case h_1 =>
    split at h <;> cases h
    · exact .goesOn s s.mem _
    · exact .raise s _

theorem exec_group_keepsOperands {s t : State} {i : Instr} (h : exec i s = .next t)
    (hgroup : (∃ e, i = .osMark e) ∨ ∃ r g b e, i = .osPix r g b e) : KeepsOperands s t := by
  rcases hgroup with ⟨e, rfl⟩ | ⟨r, g, b, e, rfl⟩
  all_goals
    simp only [exec, execOsMark, execOsPix] at h
    split at h
    case h_2 => cases h
    case h_1 =>
      split at h
      · exact emitThen_keepsOperands h
      · cases h

theorem exec_plane_keepsOperands {s t : State} {i : Instr} {n : Nat} {bs : List Byte} (h : exec i s = .next t)
    (hbytes : planeBytes i = some (n, bs)) : KeepsOperands s t := by
  cases i
  case nsNop0 | nsRun | nsLit =>
    simp only [exec, execNsNop0, execNsRun, execNsLit] at h
    split at h
    case h_1 => exact planeToken_keepsOperands h
    case h_2 => cases h
  all_goals cases hbytes

theorem exec_keepsOperands {s t : State} {i : Instr} (h : exec i s = .next t) : KeepsOperands s t := by
  cases i with
  | hdrp => exact execHdrp_keepsOperands h
  | scan => exact execScan_keepsOperands h
  | dhdr => exact execDhdr_keepsOperands h
  | rgbe2f | f2rgbe | f2rgb9e5 | rgb9e52f | rgbe2ldr | f2ldr => exact convert_keepsOperands h
  | hdr => exact execHdr_keepsOperands h
  | nsSig => exact execNsSig_keepsOperands h
  | osMark e => exact exec_group_keepsOperands h (.inl ⟨e, rfl⟩)
  | osPix r g b e => exact exec_group_keepsOperands h (.inr ⟨r, g, b, e, rfl⟩)
  | nsNop0 | nsRun | nsLit => exact exec_plane_keepsOperands h rfl

theorem engineStep_keepsOperands {s t : State} (h : engineStep s = .next t) : KeepsOperands s t := by
  cases hrun : s.run with
  | none =>
    rw [engineStep_idle s hrun] at h
    cases h
    exact ⟨fun _ _ => rfl, fun _ => rfl, rfl, rfl⟩
  | some r =>
    rw [engineStep_running s r hrun] at h
    cases hfetch : fetch r s with
    | run i => rw [hfetch] at h; exact exec_keepsOperands h
    | failure k => rw [hfetch] at h; cases h; exact .raise s k
    | stop e => rw [hfetch] at h; cases h

/-- Settles O55: a step goes on, fails or finishes, and none of these writes an operand register. -/
theorem engineKeepsRegisters : Obligations.EngineKeepsRegisters := by
  intro s t h
  obtain ⟨hoperands, hregisters, hinputs, hbusData⟩ := engineStep_keepsOperands h
  exact ⟨hoperands, hregisters, hinputs, hbusData⟩

/-! ### A disturbed command (R76) -/

/-- A disturbed command leaves every register alone that it does not write. -/
theorem Regs.get_scramble_of_notMem (r : Regs) (d : Nat) {i : Nat} (hi : i ∉ writtenRegs r.cmd) : (r.scramble d).get i = r.get i := by
  unfold Regs.get
  split <;> simp [Regs.scramble, hi]

/-- `STATUS` and `ERRCODE` are the registers of index 7 and 8. -/
theorem Regs.get_withOutcome_of_ne (r : Regs) (n : Nat) {i : Nat} (h7 : i ≠ 7) (h8 : i ≠ 8) : (r.withOutcome n).get i = r.get i := by
  unfold Regs.get
  split
  case h_8 => exact absurd rfl h7
  case h_9 => exact absurd rfl h8
  all_goals rfl

theorem State.get_endDisturbed (s : State) {i : Nat} (h7 : i ≠ 7) (h8 : i ≠ 8) (hi : i ∉ writtenRegs s.regs.cmd) :
    s.endDisturbed.regs.get i = s.regs.get i := by
  obtain ⟨d, heq⟩ := s.endDisturbed_regs
  rw [heq, Regs.get_withOutcome_of_ne _ _ h7 h8, Regs.get_scramble_of_notMem _ _ hi]

/-- The end of a disturbed command does not depend on what the command would have answered. -/
theorem EngineMove.disturbed_end {s t : State} (hmove : EngineMove s t) (hd : s.disturbed = true) (ht : t.run = none) :
    ∃ u : State, u.regs = s.regs ∧ t = u.endDisturbed ∧ ∃ o regs, t = u.conclude o regs := by
  cases hmove with
  | goesOn m r h => cases ht
  | fails k =>
    unfold State.raise
    split
    · have hd' : s.spoilDestination.disturbed = true := by simpa using hd
      exact ⟨s.spoilDestination, by simp, State.conclude_disturbed _ _ _ hd', _, _, rfl⟩
    · exact ⟨s, rfl, State.conclude_disturbed _ _ _ hd, _, _, rfl⟩
  | finishes m regs => exact ⟨{ s with mem := m }, rfl, State.conclude_disturbed _ _ _ hd, _, _, rfl⟩

/-- A store into a region of the running command changes its byte and marks the command. -/
theorem step_store_disturbs {s : State} {r : Run} {a : Nat} {b : Byte} {rest : List HostMove} (hrun : s.run = some r) (ha : a < 2 ^ 32)
    (hinputs : s.inputs = .store a b :: rest) (hregion : InSource s.regs a ∨ InDestination s.regs a) :
    step s = .next { s with mem := s.mem.write a b, run := some { r with disturbed := true }, inputs := rest } := by
  have htest : (s.regs.inSource a || s.regs.inDestination a) = true := by
    rwa [Bool.or_eq_true, inSource_iff, inDestination_iff]
  have hmem : a < Config.memSize := ha
  simp [step_host s _ _ hinputs, hostStep, hmem, State.hostStore, htest, State.disturb, hrun]

/-- A load from the destination region of the running command gives a free byte and marks the command. -/
theorem step_load_disturbs {s : State} {r : Run} {a : Nat} {rest : List HostMove} (hrun : s.run = some r) (ha : a < 2 ^ 32)
    (hinputs : s.inputs = .load a :: rest) (hregion : InDestination s.regs a) :
    step s = .next
      { s with
        busData := ((Config.busyRead (s.draws + 1) a).setWidth 8).setWidth 32
        draws := s.draws + 1
        run := some { r with disturbed := true }
        inputs := rest } := by
  have htest : s.regs.inDestination a = true := (inDestination_iff _ _).mpr hregion
  have hmem : a < Config.memSize := ha
  simp [step_host s _ _ hinputs, hostStep, hmem, State.hostLoad, htest, State.disturb, hrun]

/-- Settles O60: the two forbidden accesses, and the end of a disturbed command, which is `State.endDisturbed` however it comes. -/
theorem disturbedCommandEnd : Obligations.DisturbedCommandEnd := by
  refine ⟨fun s r a rest hrun ha => ⟨fun b hinputs hregion => ?_, fun hinputs hregion => ?_⟩, fun s t r hrun hr hstep ht => ?_⟩
  · exact ⟨_, step_store_disturbs hrun ha hinputs hregion, rfl, Memory.read_write_same _ _ _,
      fun x hx => Memory.read_write_other _ _ _ hx⟩
  · exact ⟨_, step_load_disturbs hrun ha hinputs hregion⟩
  · have hd : s.disturbed = true := (State.disturbed_of_run hrun).trans hr
    obtain ⟨u, hu, hend, o, regs, hconclude⟩ := (engineStep_engineMove hrun hstep).disturbed_end hd ht
    refine ⟨hconclude ▸ u.conclude_status_errcode o regs, fun i h7 h8 hi => ?_⟩
    rw [hend, u.get_endDisturbed h7 h8 (hu ▸ hi), hu]

end Sys2Proof.Machine
end

section
/-!
PROOFS. The host's side of the block (R20, R27, R37, R70, R74, R353): reset values, register and memory accesses, the issue of a command, and
the step that runs it; O5, O7 to O12 assembled from them.
-/

namespace Sys2Proof.Machine

/-! ### Registers (R20, R37, R44) -/

/-- Settles O5: the registers at reset, of which `EXPOSURE` and `GAMMA` alone are not 0. -/
theorem resetValues : Obligations.ResetValues :=
  ⟨rfl, rfl, rfl, fun _ h4 h5 => Regs.get_reset_eq_zero h4 h5⟩

/-- The index of a register is below 17; every other index reads as 0. -/
theorem Regs.get_of_ge (r : Regs) {i : Nat} (h : 17 ≤ i) : r.get i = 0 := by
  unfold Regs.get
  split
  case h_18 => rfl
  all_goals omega

theorem Regs.get_eq_ite (r : Regs) (i : Nat) : r.get i = if i < 17 then r.get i else 0 := by
  split
  case isTrue => rfl
  case isFalse h => exact r.get_of_ge (Nat.not_lt.mp h)

/-- The indices of the registers that the host may write, `CMD` apart (R20). -/
def hostWritable : List Nat := [0, 1, 2, 3, 4, 5, 9, 10, 12, 13, 14, 15]

/-- A host write reaches the register it names, if the host may write it, and no other register. -/
theorem Regs.get_hostSet (r : Regs) (i : Nat) (v : Word) (j : Nat) :
    (r.hostSet i v).get j = if j = i ∧ i ∈ hostWritable then v else r.get j := by
  by_cases hi : i ∈ hostWritable
  · simp only [hostWritable, List.mem_cons, List.not_mem_nil, or_false] at hi
    rcases hi with rfl | rfl | rfl | rfl | rfl | rfl | rfl | rfl | rfl | rfl | rfl | rfl
    all_goals
      simp only [hostWritable, List.mem_cons, true_or, or_true, and_true]
      unfold Regs.get
      split <;> simp_all [Regs.hostSet]
  · have hsame : r.hostSet i v = r := by
      unfold Regs.hostSet
      split
      case h_13 => rfl
      all_goals exact absurd (by decide) hi
    rw [hsame, if_neg fun h => hi h.2]

theorem State.hostRead_of_idle {s : State} (h : s.run = none) (i : Nat) : s.hostRead i = { s with busData := s.regs.get i } := by
  simp [State.hostRead, h]

theorem State.hostWrite_of_idle {s : State} (h : s.run = none) {i : Nat} (hi : i ≠ 6) (v : Word) :
    s.hostWrite i v = { s with regs := s.regs.hostSet i v } := by
  simp [State.hostWrite, h, hi]

theorem State.hostWrite_of_running {s : State} {r : Run} (h : s.run = some r) (i : Nat) (v : Word) : s.hostWrite i v = s := by
  simp [State.hostWrite, h]

/-- Settles O7: a write while idle is `Regs.hostSet`, a read gives the register. -/
theorem hostIdleAccess : Obligations.HostIdleAccess := by
  refine fun s i rest hidle => ⟨fun v hi hinputs => ?_, fun hinputs => ?_⟩
  · have hwrite := State.hostWrite_of_idle (s := { s with inputs := rest }) hidle hi v
    exact ⟨_, (step_host s _ _ hinputs).trans (congrArg Host.Outcome.next hwrite), rfl, Regs.get_hostSet s.regs i v⟩
  · have hread := State.hostRead_of_idle (s := { s with inputs := rest }) hidle i
    rw [← Regs.get_eq_ite]
    exact (step_host s _ _ hinputs).trans (congrArg Host.Outcome.next hread)

/-- Settles O8: a write while busy does nothing, and `STATUS` is then `BUSY` alone. -/
theorem hostBusyAccess : Obligations.HostBusyAccess := by
  refine fun s r i rest hstatus hrun => ⟨fun v hinputs => ?_, fun hinputs => ?_⟩
  · have hwrite := State.hostWrite_of_running (s := { s with inputs := rest }) hrun i v
    exact (step_host s _ _ hinputs).trans (congrArg Host.Outcome.next hwrite)
  · have hbusy : s.regs.status = statusBusy := ((statusOk_of_running hrun).mp hstatus).1
    rw [step_host s _ _ hinputs]
    simp only [hostStep, State.hostRead]
    split
    case isTrue hfree => exact ⟨_, _, rfl, fun hi => absurd hi hfree.2.1⟩
    case isFalse => exact ⟨_, _, rfl, fun hi => ⟨hi ▸ hbusy, rfl⟩⟩

/-! ### The issue of a command (R27, R353) -/

/-- Settles O9: the write is `State.issue`, and a decoded word is run by the step after it. -/
theorem issueCommand : Obligations.IssueCommand := by
  intro s c rest hidle hinputs
  have hissued : rest = [] → Issued (State.issue { s with inputs := rest } c) := fun hrest => issued_issue c hrest
  exact ⟨_, step_write_cmd hidle hinputs, rfl, rfl, rfl, rfl, hissued, fun i hrest hdec => (hissued hrest).step_eq_exec hdec⟩

/-- A move of the host that is no write to `CMD` starts nothing. -/
theorem run_eq_none_of_hostStep {s t : State} {mv : HostMove} (hidle : s.run = none) (hcmd : ∀ c, mv ≠ .write 6 c)
    (h : hostStep mv s = .next t) : t.run = none := by
  cases mv with
  | write i v =>
    cases h
    rw [State.hostWrite_of_idle hidle fun hi => hcmd v (hi ▸ rfl)]
    exact hidle
  | read i =>
    cases h
    rw [State.hostRead_of_idle hidle]
    exact hidle
  | store a b =>
    simp only [hostStep] at h
    split at h <;> cases h
    simp only [State.hostStore]
    split <;> simp [hidle]
  | load a =>
    simp only [hostStep] at h
    split at h <;> cases h
    simp [State.hostLoad, hidle]
  | reset =>
    cases h
    exact State.resetBlock_run s
  | wait =>
    cases (engineStep_idle s hidle).symm.trans h
    exact hidle

/-- Settles O10: the idle step is no change, and of the host's moves only the write to `CMD` sets a command running. -/
theorem onlyHostStarts : Obligations.OnlyHostStarts := by
  refine ⟨fun s hidle hinputs => (step_engine s hinputs).trans (engineStep_idle s hidle), fun s t hidle hstep hrun => ?_⟩
  by_contra hnone
  push Not at hnone
  cases hinputs : s.inputs with
  | nil =>
    cases (engineStep_idle s hidle).symm.trans (step_engine s hinputs ▸ hstep)
    exact hrun hidle
  | cons mv rest =>
    rw [step_host s mv rest hinputs] at hstep
    have hcmd : ∀ c, mv ≠ .write 6 c := fun c hmv => hnone c rest (hmv ▸ hinputs)
    exact hrun (run_eq_none_of_hostStep (s := { s with inputs := rest }) hidle hcmd hstep)

/-- Settles O12: in a checked source region the fetch finds what the decoder reads, and a `wait` is used up first. -/
theorem stepRunsDecoded : Obligations.StepRunsDecoded := by
  intro s r i hrun hchecked hdec
  have hfetch : fetch r s = .run i := by
    have hpass : ¬ (r.phase ≠ .issued ∧ (!s.regs.srcFits) = true) := by
      rcases hchecked with hissued | hfits
      · simp [hissued]
      · simp [(Regs.srcFits_iff s.regs).mpr hfits]
    rw [fetch, if_neg hpass, hdec]
  refine ⟨fun hinputs => ?_, fun rest hinputs => ?_⟩
  · rw [step_engine s hinputs, engineStep_running s r hrun, hfetch]
    rfl
  · have hfetch' : fetch r { s with inputs := rest } = .run i := hfetch
    rw [step_host s _ _ hinputs, hostStep, engineStep_running { s with inputs := rest } r hrun, hfetch']
    rfl

/-! ### Accesses to memory (R70, R74, R76) -/

theorem step_store {s : State} {a : Nat} {b : Byte} {rest : List HostMove} (ha : a < 2 ^ 32) (hinputs : s.inputs = .store a b :: rest)
    (hallowed : s.run = none ∨ ¬ InSource s.regs a ∧ ¬ InDestination s.regs a) :
    step s = .next { s with mem := s.mem.write a b, inputs := rest } := by
  have hmem : a < Config.memSize := ha
  rw [step_host s _ _ hinputs]
  simp only [hostStep, if_pos hmem, State.hostStore]
  rcases hallowed with hidle | ⟨hsource, hdestination⟩
  · split
    · simp [State.disturb, hidle]
    · rfl
  · rw [← inSource_iff, Bool.not_eq_true] at hsource
    simp [hsource, inDestination_eq_false hdestination]

theorem step_load {s : State} {a : Nat} {rest : List HostMove} (ha : a < 2 ^ 32) (hinputs : s.inputs = .load a :: rest)
    (hallowed : s.run = none ∨ ¬ InDestination s.regs a) :
    step s = .next { s with busData := (s.mem.read a).setWidth 32, inputs := rest } := by
  have hmem : a < Config.memSize := ha
  have htest : ¬ (s.run.isSome = true ∧ s.regs.inDestination a = true) := by
    rcases hallowed with hidle | hdestination
    · simp [hidle]
    · simp [inDestination_eq_false hdestination]
  simp [step_host s _ _ hinputs, hostStep, hmem, State.hostLoad, htest]

/-- Settles O11: a store is one write to memory, a load one read of it, and a load after a store gives the byte stored. -/
theorem hostMemoryAccess : Obligations.HostMemoryAccess := by
  refine fun s a rest ha => ⟨fun b hinputs hallowed => ?_, fun hinputs hallowed => step_load ha hinputs hallowed, fun b hidle hinputs => ?_⟩
  · exact ⟨_, step_store ha hinputs hallowed, rfl, Memory.read_write_same _ _ _, fun x hx => Memory.read_write_other _ _ _ hx⟩
  · have hstore := step_store ha hinputs (.inl hidle)
    have hload := step_load (s := { s with mem := s.mem.write a b, inputs := .load a :: rest }) ha rfl (.inl hidle)
    exact ⟨_, leadsTo_two hstore hload, congrArg (BitVec.setWidth 32) (Memory.read_write_same s.mem a b), rfl⟩

end Sys2Proof.Machine
end

section
/-!
PROOFS. The checks of the conversions (R210, R261), the header token (R143 to R152, R291) and the codes of the failure kinds (R312 to R318):
O17, O24 and O18.
-/

namespace Sys2Proof.Machine

/-! ### The parameters of the tone mappers (R261) -/

theorem f32IsFinite_iff (w : Word) : f32IsFinite w = true ↔ w.toNat / 2 ^ 23 % 2 ^ 8 ≠ 255 := decide_eq_true_iff

/-- A pattern without sign is zero where its magnitude is (R11). -/
theorem f32Magnitude_units_eq_zero_iff {w : Word} (h : w.toNat < 2 ^ 31) : (f32Magnitude w).units = 0 ↔ w.toNat = 0 := by
  rw [f32Magnitude]
  split
  case isTrue hexp =>
    simp only [f32Exponent, Scaled.units, f32Fraction] at hexp ⊢
    omega
  case isFalse hexp =>
    have hpos := Nat.two_pow_pos (f32Exponent w - 1)
    have hne : (2 ^ 23 + f32Fraction w) * 2 ^ (f32Exponent w - 1) ≠ 0 := (Nat.mul_pos (by omega) hpos).ne'
    rw [f32Exponent] at hexp
    exact iff_of_false hne (by omega)

theorem toneParamsOk_iff (exposure gamma : Word) :
    toneParamsOk exposure gamma = true ↔
      exposure.toNat / 2 ^ 23 % 2 ^ 8 ≠ 255 ∧ gamma.toNat / 2 ^ 23 % 2 ^ 8 ≠ 255 ∧ 0 < gamma.toNat ∧ gamma.toNat < 2 ^ 31 := by
  have hsign : f32Sign gamma = false ↔ gamma.toNat < 2 ^ 31 := by rw [f32Sign, decide_eq_false_iff_not, Nat.not_le]
  simp only [toneParamsOk, Bool.and_eq_true, f32IsFinite_iff, Bool.not_eq_true', decide_eq_true_eq, hsign, and_assoc]
  refine and_congr_right fun _ => and_congr_right fun _ => ?_
  rw [and_comm]
  refine and_congr_left fun hlt => ?_
  rw [ne_eq, f32Magnitude_units_eq_zero_iff hlt, Nat.pos_iff_ne_zero]

/-! ### The checks of a conversion (R210) -/

/-- Each conversion is the common frame with its strides, and only the tone mappers check the parameters. -/
theorem exec_of_conversionShape {i : Instr} {strideIn strideOut : Nat} {params : Bool} (s : State)
    (h : conversionShape i = some (strideIn, strideOut, params)) :
    ∃ pixel, exec i s = convert strideIn strideOut (!params || toneParamsOk s.regs.exposure s.regs.gamma) pixel s := by
  cases i
  case rgbe2f | f2rgbe | f2rgb9e5 | rgb9e52f | rgbe2ldr | f2ldr => cases h; exact ⟨_, rfl⟩
  all_goals cases h

theorem convertOk_iff (r : Regs) (strideIn strideOut : Nat) (ok : Bool) :
    convertOk r strideIn strideOut ok = true ↔
      r.regionsOk = true ∧ r.srcLen.toNat % strideIn = 0 ∧ r.dstLen.toNat = r.srcLen.toNat / strideIn * strideOut ∧ ok = true := by
  simp only [convertOk, Bool.and_eq_true, decide_eq_true_eq, and_assoc]
  rfl

/-- Settles O17: a broken condition breaks the frame's test, and a failure at issue is `failedState`. -/
theorem conversionChecks : Obligations.ConversionChecks := by
  refine ⟨fun i strideIn strideOut params s hshape hs hbroken => ?_, toneParamsOk_iff⟩
  obtain ⟨pixel, hexec⟩ := exec_of_conversionShape s hshape
  have hfails : ¬ convertOk s.regs strideIn strideOut (!params || toneParamsOk s.regs.exposure s.regs.gamma) = true := by
    rw [convertOk_iff, Bool.or_eq_true, Bool.not_eq_true', toneParamsOk_iff]
    rintro ⟨hregions, hsrc, hdst, hparams⟩
    rcases hbroken with hbad | hbad | hbad | ⟨htone, hbad⟩
    · exact Bool.noConfusion (hregions.symm.trans hbad)
    · exact hbad hsrc
    · exact hbad hdst
    · obtain ⟨hexposure, hgamma, hpos, hlt⟩ := hparams.resolve_left (by simp [htone])
      omega
  rw [hexec, convert_eq, if_neg hfails, hs.raise_eq]
  rfl

/-! ### The header token -/

theorem headerTerminated_iff (text : List Byte) : headerTerminated text = true ↔ headerLength .s0 text = some text.length :=
  decide_eq_true_iff

theorem parseHeader_of_dims {text : List Byte} {h w : Nat} (hend : headerTerminated text = true)
    (hformat : formatValue text = some formatSupported) (hdims : headerDims text = some (h, w)) : parseHeader .s0 text = .ok (h, w) := by
  simp [parseHeader, (headerTerminated_iff text).mp hend, hformat, hdims]

/-- A failure while the header is due changes `STATUS` and `ERRCODE` and nothing else (R320, R322). -/
theorem State.raise_of_header {s : State} {thenScan : Bool} {hs : HState} {st : Staged}
    (hrun : s.run = some { phase := .header thenScan hs, staged := st, disturbed := false }) (k : FailKind) :
    s.raise k = failedState s k := by
  have hline : s.inScanlines = false := by simp [State.inScanlines, hrun]
  rw [State.raise_eq s k (State.disturbed_of_run hrun), hline]
  rfl

/-- Settles O24: a header that parses commits in `HDRP`; in `DHDR` the capacity check decides. -/
theorem hdrToken : Obligations.HdrToken := by
  intro s st thenScan text h w hrun hend hformat hdims st'
  have hexec := exec_hdr_of_run text hrun
  rw [parseHeader_of_dims hend hformat hdims] at hexec
  refine ⟨?_, ?_, ?_⟩
  · rintro rfl
    rw [hexec]
    exact congrArg Host.Outcome.next (State.finish_eq s _ (State.disturbed_of_run hrun))
  · rintro rfl hfits
    rw [hexec]
    simp only [startImage, if_pos hfits]
    rfl
  · rintro rfl hsmall
    have hraise := State.raise_of_header hrun .outputTooSmall
    rw [hexec]
    simp only [startImage, if_neg (Nat.not_le.mpr hsmall), hraise]
    rfl

/-! ### The codes of the failures -/

theorem failedState_regs (s : State) (k : FailKind) :
    (failedState s k).regs = { s.regs with status := 0b110, errcode := BitVec.ofNat 32 k.code } := by
  cases k <;> rfl

theorem failedInScanlines_regs (s : State) (k : FailKind) :
    (failedInScanlines s k).regs = { s.regs with status := 0b110, errcode := BitVec.ofNat 32 k.code } := by
  rw [failedInScanlines, failedState_regs, State.spoilDestination_regs]

/-- The header that fails with `k` answers the state after that failure. -/
theorem exec_hdr_of_error {s : State} {thenScan : Bool} {st : Staged} {text : List Byte} {k : FailKind}
    (hrun : s.run = some { phase := .header thenScan .s0, staged := st, disturbed := false })
    (hparse : parseHeader .s0 text = .error k) : exec (.hdr text) s = .next (failedState s k) := by
  rw [exec_hdr_of_run text hrun, hparse]
  exact congrArg Host.Outcome.next (State.raise_of_header hrun k)

/-- How many bytes a place in a scanline needs to hold a token at all: a group or a signature four, a control byte one. -/
def leastBytes : LinePos → Nat
  | .plane _ _ => 1
  | _ => 4

theorem decodeToken_of_short {rc : Option Nat} {lp : LinePos} {bs : List Byte} (h : bs.length < leastBytes lp) :
    decodeToken (Phase.line rc lp).place bs = .error .truncated := by
  cases lp with
  | plane c tmp =>
    obtain rfl := List.length_eq_zero_iff.mp (Nat.lt_one_iff.mp h)
    rfl
  | start | old =>
    match bs with
    | [] | [_] | [_, _] | [_, _, _] => rfl
    | _ :: _ :: _ :: _ :: _ =>
      simp only [List.length_cons, leastBytes] at h
      omega

/-- A stream that ends before a group or a control byte is an underrun (R172, R173, R183, R316). -/
theorem engineStep_of_short {s : State} {rc : Option Nat} {lp : LinePos} {st : Staged} {d : Bool}
    (hrun : s.run = some { phase := .line rc lp, staged := st, disturbed := d }) (hfits : s.regs.srcFits = true)
    (h : s.regs.srcLen.toNat < st.pos.toNat + leastBytes lp) : engineStep s = .next (s.raise .inputUnderrun) := by
  have hshort : (s.srcBytes st.pos.toNat longestToken).length < leastBytes lp := by
    have hpos : 0 < leastBytes lp := by cases lp <;> exact Nat.succ_pos _
    rw [srcBytes_length]
    omega
  rw [engineStep_running s _ hrun]
  simp [fetch, fetchCode, hfits, decode_bytes, decodeToken_of_short hshort, decodeFailure, runFetched]

/-- Settles O18: the kind of each cause, and the code of each kind in both forms of a failure. -/
theorem failureCodes : Obligations.FailureCodes := by
  refine ⟨fun s st thenScan text hrun => ⟨fun hend => ?_, fun hend hformat => ?_, fun hend hformat hdims => ?_⟩,
    fun s rc st width16 hrun hwidth => ?_, fun s rc lp st hinputs hrun hfits hshort => ?_, fun s x hx => ?_⟩
  · have hlength : ¬ headerLength .s0 text = some text.length := by simpa [headerTerminated] using hend
    exact exec_hdr_of_error (k := .malformedHeader) hrun (by simp [parseHeader, hlength])
  · have hlength := (headerTerminated_iff text).mp hend
    exact exec_hdr_of_error (k := .unsupportedFormat) hrun (by simp [parseHeader, hlength, hformat])
  · have hlength := (headerTerminated_iff text).mp hend
    exact exec_hdr_of_error (k := .malformedHeader) hrun (by simp [parseHeader, hlength, hformat, hdims])
  · refine ⟨_, (nsSigToken s rc st width16 hrun).2 hwidth, rfl, failedInScanlines_regs s _⟩
  · have hleast : s.regs.srcLen.toNat < st.pos.toNat + leastBytes lp := by
      cases lp <;> exact hshort
    refine ⟨_, (step_engine s hinputs).trans (engineStep_of_short hrun ((Regs.srcFits_iff _).mpr hfits) hleast), State.raise_run _ _, ?_⟩
    rw [State.raise_of_inLine hrun]
    exact failedInScanlines_regs s .inputUnderrun
  · have hcode : BitVec.ofNat 32 x.1.code = x.2 := by
      fin_cases hx <;> rfl
    rw [← hcode]
    exact ⟨failedState_regs s x.1, failedInScanlines_regs s x.1⟩

end Sys2Proof.Machine
end

section
/-!
PROOFS. The resolution line and its dimensions (R147 to R151), and `HDRP` from its issue to its end (R140 to R153): O21, O22 and O23.
-/

namespace Sys2Proof.Machine

/-! ### Decimal numbers (R150, R151) -/

/-- Digits read from the left, after the value `v` of the digits before them. -/
theorem foldl_digits (tok : List Byte) (v : Nat) :
    tok.foldl (fun v b => 10 * v + (b.toNat - 0x30)) v =
      v * 10 ^ tok.length + ∑ i : Fin tok.length, (tok[i].toNat - 0x30) * 10 ^ (tok.length - 1 - i.val) := by
  induction tok generalizing v with
  | nil => simp
  | cons b tok ih =>
    have hexp : ∀ i : Nat, tok.length - 1 - i = tok.length - (i + 1) := by omega
    simp only [List.foldl_cons, ih, List.length_cons, Fin.sum_univ_succ, Fin.getElem_fin, Fin.val_zero, Fin.val_succ,
      List.getElem_cons_zero, List.getElem_cons_succ, hexp, Nat.sub_zero, Nat.add_sub_cancel]
    ring

theorem decimal_eq_sum (tok : List Byte) :
    decimal tok = ∑ i : Fin tok.length, (tok[i].toNat - 0x30) * 10 ^ (tok.length - 1 - i.val) := by
  rw [decimal, foldl_digits, Nat.zero_mul, Nat.zero_add]

theorem all_isDigit_iff (tok : List Byte) : tok.all isDigit = true ↔ ∀ b ∈ tok, 0x30 ≤ b.toNat ∧ b.toNat ≤ 0x39 := by
  simp [isDigit]

theorem headerDim_eq_some_iff (tok : List Byte) (n : Nat) :
    headerDim tok = some n ↔ tok.all isDigit = true ∧ 1 ≤ n ∧ n ≤ Config.dimMax ∧ n = decimal tok := by
  rw [headerDim, Option.ite_none_right_eq_some, Option.some_inj]
  constructor
  · rintro ⟨⟨hdigits, hlo, hhi⟩, rfl⟩
    exact ⟨hdigits, hlo, hhi, rfl⟩
  · rintro ⟨hdigits, hlo, hhi, rfl⟩
    exact ⟨⟨hdigits, hlo, hhi⟩, rfl⟩

/-- Settles O21: the decimal number read from the left is the sum of its digits' values. -/
theorem dimensionValue : Obligations.DimensionValue := by
  intro tok n
  rw [headerDim_eq_some_iff, all_isDigit_iff, decimal_eq_sum]
  rfl

/-! ### The last line (R144, R147) -/

/-- The lines up to an `LF` do not depend on what follows it. -/
theorem headerLinesFrom_append_lf (cur bs rest : List Byte) :
    headerLinesFrom cur (bs ++ lf :: rest) = headerLinesFrom cur (bs ++ [lf]) ++ headerLinesFrom [] rest := by
  induction bs generalizing cur with
  | nil => simp
  | cons b bs ih =>
    simp only [List.cons_append]
    by_cases hb : b = lf
    · subst hb
      rw [headerLinesFrom_lf, headerLinesFrom_lf, ih, List.cons_append]
    · rw [headerLinesFrom_of_ne_lf hb, headerLinesFrom_of_ne_lf hb, ih]

/-- Bytes without `LF` up to an `LF` are one line. -/
theorem headerLinesFrom_line {cur line : List Byte} (h : lf ∉ line) : headerLinesFrom cur (line ++ [lf]) = [cur.reverse ++ line] := by
  induction line generalizing cur with
  | nil => simp
  | cons b line ih =>
    obtain ⟨hb, hline⟩ := List.ne_and_not_mem_of_not_mem_cons h
    rw [List.cons_append, headerLinesFrom_of_ne_lf hb.symm, ih hline]
    simp

theorem resolutionLine_of_last {before line : List Byte} (h : lf ∉ line) :
    resolutionLine (before ++ [lf] ++ line ++ [lf]) = line := by
  have htext : before ++ [lf] ++ line ++ [lf] = before ++ lf :: (line ++ [lf]) := by simp
  rw [resolutionLine, headerLines, htext, headerLinesFrom_append_lf, headerLinesFrom_line h]
  simp

/-! ### The words of a line (R147) -/

theorem isSpace_iff (b : Byte) : isSpace b = true ↔ b ∈ ([0x20, 0x09, 0x0B, 0x0C, 0x0D] : List Byte) := by
  simp [isSpace, or_assoc]

/-- Whitespace between words says nothing. -/
theorem wordsFrom_nil_spaces {sp : List Byte} (h : ∀ b ∈ sp, isSpace b = true) (rest : List Byte) :
    wordsFrom [] (sp ++ rest) = wordsFrom [] rest := by
  induction sp with
  | nil => rfl
  | cons b sp ih =>
    rw [List.forall_mem_cons] at h
    rw [List.cons_append, wordsFrom, if_pos h.1, if_pos rfl, ih h.2]

/-- Bytes that are not whitespace go on with the word. -/
theorem wordsFrom_word {w : List Byte} (h : ∀ b ∈ w, isSpace b = false) (cur rest : List Byte) :
    wordsFrom cur (w ++ rest) = wordsFrom (w.reverse ++ cur) rest := by
  induction w generalizing cur with
  | nil => rfl
  | cons b w ih =>
    rw [List.forall_mem_cons] at h
    rw [List.cons_append, wordsFrom, if_neg (Bool.eq_false_iff.mp h.1), ih h.2]
    simp

/-- Whitespace, or the end of the line, ends a word. -/
theorem wordsFrom_end {cur sp rest : List Byte} (hcur : cur ≠ []) (h : ∀ b ∈ sp, isSpace b = true) (hsp : sp ≠ [] ∨ rest = []) :
    wordsFrom cur (sp ++ rest) = cur.reverse :: wordsFrom [] rest := by
  cases sp with
  | nil =>
    obtain rfl := hsp.resolve_left fun hne => hne rfl
    simp [wordsFrom, hcur]
  | cons b sp =>
    rw [List.forall_mem_cons] at h
    rw [List.cons_append, wordsFrom, if_pos h.1, if_neg hcur, wordsFrom_nil_spaces h.2]

/-- A line of words, each followed by its whitespace, holds these words. -/
theorem wordsFrom_words {words : List (List Byte × List Byte)}
    (h : ∀ x ∈ words, x.1 ≠ [] ∧ (∀ b ∈ x.1, isSpace b = false) ∧ ∀ b ∈ x.2, isSpace b = true)
    (hsep : ∀ x ∈ words.dropLast, x.2 ≠ []) : wordsFrom [] (words.flatMap fun x => x.1 ++ x.2) = words.map Prod.fst := by
  induction words with
  | nil => rfl
  | cons x words ih =>
    obtain ⟨⟨hne, hword, hspace⟩, hrest⟩ := List.forall_mem_cons.mp h
    have hend : x.2 ≠ [] ∨ (words.flatMap fun x => x.1 ++ x.2) = [] := by
      cases words with
      | nil => exact .inr rfl
      | cons y words => exact .inl (hsep x (by simp))
    have hsep' : ∀ y ∈ words.dropLast, y.2 ≠ [] := by
      cases words with
      | nil => simp
      | cons y words => exact fun z hz => hsep z (List.mem_cons_of_mem _ hz)
    rw [List.flatMap_cons, List.append_assoc, wordsFrom_word hword, List.append_nil,
      wordsFrom_end (by simpa using hne) hspace hend, List.reverse_reverse, ih hrest hsep', List.map_cons]

/-- Height and width of the words of a resolution line (R148, R149). -/
def wordDims : List (List Byte) → Option (Nat × Nat)
  | [_, t1, _, t3] =>
    match headerDim t1, headerDim t3 with
    | some h, some w => some (h, w)
    | _, _ => none
  | _ => none

theorem headerDims_eq_wordDims (text : List Byte) : headerDims text = wordDims (lineWords (resolutionLine text)) := rfl

/-- Settles O22: the text's last line is the line of words, and its words are those given. -/
theorem resolutionLineWords : Obligations.ResolutionLineWords := by
  intro before lead words space hlead hwords hsep
  have hspaces : ∀ b : Byte, b ∈ space ↔ isSpace b = true := fun b => (isSpace_iff b).symm
  have hnotLf : ∀ b : Byte, b ∈ space → b ≠ lf := by
    intro b hb hlf
    subst hlf
    exact absurd ((hspaces lf).mp hb) (by decide)
  have hline : lf ∉ lead ++ words.flatMap fun x => x.1 ++ x.2 := by
    intro hmem
    rcases List.mem_append.mp hmem with hmem | hmem
    · exact hnotLf lf (hlead lf hmem) rfl
    · obtain ⟨x, hx, hmem⟩ := List.mem_flatMap.mp hmem
      obtain ⟨-, hword, hspace⟩ := hwords x hx
      rcases List.mem_append.mp hmem with hmem | hmem
      · exact (hword lf hmem).2 rfl
      · exact hnotLf lf (hspace lf hmem) rfl
  have hwords' : ∀ x ∈ words, x.1 ≠ [] ∧ (∀ b ∈ x.1, isSpace b = false) ∧ ∀ b ∈ x.2, isSpace b = true := by
    intro x hx
    obtain ⟨hne, hword, hspace⟩ := hwords x hx
    exact ⟨hne, fun b hb => Bool.eq_false_iff.mpr (mt (hspaces b).mpr (hword b hb).1), fun b hb => (hspaces b).mp (hspace b hb)⟩
  have hlast := resolutionLine_of_last (before := before) hline
  rw [lf] at hlast
  rw [headerDims_eq_wordDims, hlast, lineWords, wordsFrom_nil_spaces fun b hb => (hspaces b).mp (hlead b hb),
    wordsFrom_words hwords' hsep]
  match words with
  | [] | [_] | [_, _] | [_, _, _] | [_, _, _, _] | _ :: _ :: _ :: _ :: _ :: _ => rfl

/-! ### `HDRP` (R140 to R153) -/

/-- The header token that the decoder cuts from the source region: up to the terminator, or all of it (R142). -/
def headerText (bs : List Byte) : List Byte := bs.take ((headerLength .s0 bs).getD bs.length)

/-- The checks on the header token are those on the source region: the terminator is where the token ends. -/
theorem parseHeader_headerText (bs : List Byte) :
    (∃ k, refHeader bs = .error k ∧ parseHeader .s0 (headerText bs) = .error k) ∨
      ∃ n h w, refHeader bs = .ok (n, h, w) ∧ parseHeader .s0 (headerText bs) = .ok (h, w) ∧ (headerText bs).length = n := by
  cases hlength : headerLength .s0 bs with
  | none => exact .inl ⟨.malformedHeader, by simp [refHeader, hlength], by simp [parseHeader, headerText, hlength]⟩
  | some n =>
    have htext : headerText bs = bs.take n := by rw [headerText, hlength, Option.getD_some]
    have hn : (bs.take n).length = n := by simpa using headerLength_le hlength
    have hend : headerLength .s0 (bs.take n) = some (bs.take n).length := by rw [hn, headerLength_take hlength]
    by_cases hformat : formatValue (bs.take n) = some formatSupported
    · cases hdims : headerDims (bs.take n) with
      | none =>
        refine .inl ⟨.malformedHeader, by simp [refHeader, hlength, hformat, hdims], ?_⟩
        simp only [htext, parseHeader, if_pos hend, if_pos hformat, hdims]
      | some hw =>
        obtain ⟨h, w⟩ := hw
        refine .inr ⟨n, h, w, by simp [refHeader, hlength, hformat, hdims], ?_, by rw [htext, hn]⟩
        simp only [htext, parseHeader, if_pos hend, if_pos hformat, hdims]
    · refine .inl ⟨.unsupportedFormat, by simp [refHeader, hlength, hformat], ?_⟩
      simp only [htext, parseHeader, if_pos hend, if_neg hformat]

/-- With the header due and its source region in memory, the engine runs the header token of that region. -/
theorem step_header {s : State} {thenScan : Bool} {st : Staged} {d : Bool}
    (hrun : s.run = some { phase := .header thenScan .s0, staged := st, disturbed := d }) (hinputs : s.inputs = [])
    (hfits : s.regs.srcFits = true) : step s = exec (.hdr (headerText (streamFrom s 0))) s := by
  rw [step_engine s hinputs, engineStep_running s _ hrun, fetch_header hfits]
  rfl

/-- A freshly issued command whose header token is due, its cursor at the token's offset 0 (R31, R142). -/
def State.headerDue (s : State) (thenScan : Bool) : State :=
  { s with run := some { phase := .header thenScan .s0, staged := Staged.atHeader s.regs, disturbed := false } }

theorem Issued.exec_hdrp_eq {s : State} (hs : Issued s) (hfits : s.regs.srcFits = true) : exec .hdrp s = .next (s.headerDue false) := by
  simp [exec, execHdrp, hfits, State.start, hs.disturbed_eq_false, State.headerDue]

theorem exec_hdr_headerDue_of_error {s : State} {thenScan : Bool} {text : List Byte} {k : FailKind}
    (hparse : parseHeader .s0 text = .error k) : exec (.hdr text) (s.headerDue thenScan) = .next (failedState s k) :=
  exec_hdr_of_error (s := s.headerDue thenScan) rfl hparse

/-- What `HDRP` commits is `parsedState`, with the token's length as the offset of the pixel data (R152). -/
theorem exec_hdr_headerDue_of_ok {s : State} {text : List Byte} {h w : Nat} (hparse : parseHeader .s0 text = .ok (h, w)) :
    exec (.hdr text) (s.headerDue false) = .next (parsedState s text.length h w) := by
  rw [exec_hdr_of_run (s := s.headerDue false) text rfl, hparse]
  exact congrArg Host.Outcome.next (State.finish_eq (s.headerDue false) _ rfl)

/-- The header of `HDRP` ends in the state that the checks on the source region give. -/
theorem step_headerDue_hdrp {s : State} (hinputs : s.inputs = []) (hfits : s.regs.srcFits = true) :
    step (s.headerDue false) = .next
      (match refHeader (streamFrom s 0) with
       | .ok (n, h, w) => parsedState s n h w
       | .error k => failedState s k) := by
  have hstep : step (s.headerDue false) = exec (.hdr (headerText (streamFrom s 0))) (s.headerDue false) :=
    step_header (s := s.headerDue false) rfl hinputs hfits
  rw [hstep]
  rcases parseHeader_headerText (streamFrom s 0) with ⟨k, href, hparse⟩ | ⟨n, h, w, href, hparse, hlength⟩
  · rw [href, exec_hdr_headerDue_of_error hparse]
  · rw [href, exec_hdr_headerDue_of_ok hparse, hlength]

/-- Settles O23: the issue, then the header token, whose checks are those of `refHeader`. -/
theorem hdrpCompletes : Obligations.HdrpCompletes := by
  intro s hs hsrc
  have hfits := (Regs.srcFits_iff s.regs).mpr hsrc
  exact ⟨s.headerDue false, hs.exec_hdrp_eq hfits, rfl, step_headerDue_hdrp hs.2 hfits⟩

end Sys2Proof.Machine
end

section
/-!
PROOFS. The tokens of a channel plane and the frame of the tokens of a scanline (R71, R176 to R182, R305): O26 and O29.
-/

namespace Sys2Proof.Machine

/-! ### Channel planes -/

theorem Planes.get_e (tmp : Planes) : tmp.get .e = tmp.e := rfl

theorem get_put_take_length (tmp : Planes) (c : Chan) (bs : List Byte) (k : Nat) :
    ((tmp.put c (bs.take k)).get c).length = (tmp.get c).length + min k bs.length := by
  rw [Planes.get_put, List.length_append, List.length_take]

/-- The state once plane `c` is full (R176, R181): the next plane begins, or the scanline is interleaved and emitted. -/
def planeDone (rc : Option Nat) (c : Chan) (tmp : Planes) (st : Staged) (s : State) : State :=
  match Chan.next c with
  | some c' => { s with run := some { phase := .line rc (.plane c' tmp), staged := st, disturbed := false } }
  | none => scanlineDone rc st (interleave tmp.r tmp.g tmp.b tmp.e) s

/-- A token of a plane that nobody disturbed: what passes the plane's end is dropped, and a full plane is done. -/
theorem exec_plane_eq {s : State} {rc : Option Nat} {c : Chan} {tmp : Planes} {st : Staged} {i : Instr} {n : Nat} {bs : List Byte}
    (hrun : s.run = some { phase := .line rc (.plane c tmp), staged := st, disturbed := false }) (hi : planeBytes i = some (n, bs))
    (hplanes : planesOk st.width.toNat c tmp = true)
    (hroom : c = .e → s.regs.dstAddr.toNat + st.ipos.toNat + 4 * st.width.toNat ≤ 2 ^ 32) :
    let tmp' := tmp.put c (bs.take (st.width.toNat - (tmp.get c).length))
    exec i s = .next
      (if (tmp'.get c).length < st.width.toNat then
        { s with run := some { phase := .line rc (.plane c tmp'), staged := st.skip n, disturbed := false } }
      else planeDone rc c tmp' (st.skip n) s) := by
  intro tmp'
  rw [exec_plane hrun hi]
  rcases planeToken_cases rc c tmp n bs { phase := .line rc (.plane c tmp), staged := st, disturbed := false } s with
    ⟨hshort, heq⟩ | ⟨hfull, c', hnext, heq⟩ | ⟨hfull, hnone, heq⟩
  · rw [heq, if_pos hshort]
  · rw [heq, if_neg (Nat.not_lt.mpr hfull), planeDone, hnext]
  · obtain rfl := chan_eq_e_of_next_eq_none hnone
    have hlength := interleave_length_of_planesOk hplanes (get_put_length_of_full hplanes hfull)
    have hmem : emitAddr s.regs (st.skip n) + 4 * (interleave tmp'.r tmp'.g tmp'.b tmp'.e).length ≤ Config.memSize := by
      rw [hlength]
      exact hroom rfl
    rw [heq, if_neg (Nat.not_lt.mpr hfull), emitThen_eq, if_pos hmem]
    exact congrArg Host.Outcome.next (endLine_emitted rc _ (State.disturbed_of_run hrun) rfl)

theorem scanlineDone_mem (rc : Option Nat) (st : Staged) (px : List Rgbe) (s : State) :
    (scanlineDone rc st px s).mem = s.mem.writeBytes (s.regs.dstAddr.toNat + st.ipos.toNat) (pixelBytes px) := by
  match rc with
  | some (n + 2) | none | some 0 | some 1 => rfl

/-- Pixel `j` of a row of pixels stored at `a`. -/
theorem Memory.rgbeAt_writeBytes_planePixels (m : Memory) (a : Nat) {w : Nat} (r g b e : List Byte) {j : Nat} (hj : j < w) :
    (m.writeBytes a (pixelBytes (planePixels w r g b e))).rgbeAt (a + 4 * j) =
      ⟨r.getD j 0, g.getD j 0, b.getD j 0, e.getD j 0⟩ := by
  have hblocks : pixelBytes (planePixels w r g b e) =
      (List.range w).flatMap fun i => Rgbe.bytes ⟨r.getD i 0, g.getD i 0, b.getD i 0, e.getD i 0⟩ := by
    rw [pixelBytes, planePixels, List.flatMap_map]
  rw [hblocks]
  exact Memory.rgbeAt_of_readBytes (Memory.readBytes_writeBytes_blocks m a (fun _ => Rgbe.bytes_length _) hj)

/-- Settles O26: one equation for the token, read at a plane that stays short, at a full one and at the fourth. -/
theorem planeTokens : Obligations.PlaneTokens := by
  intro i len bs s rc c tmp st hi hrun w st'
  have hexec := exec_plane hrun hi
  refine ⟨fun hshort => ?_, fun hfull c' hnext => ?_, fun hfull hc hplanes hroom => ?_⟩
  · have htake : bs.take (w - (tmp.get c).length) = bs := List.take_of_length_le (by omega)
    have hless : ((tmp.put c bs).get c).length < w := by simpa using hshort
    rw [hexec]
    simp only [planeToken]
    rw [htake, if_pos hless]
    rfl
  · have hfull' : ¬ ((tmp.put c (bs.take (w - (tmp.get c).length))).get c).length < w := by
      rw [get_put_take_length]
      omega
    rw [hexec]
    simp only [planeToken]
    rw [if_neg hfull', hnext]
    rfl
  · subst hc
    have hfull' : ¬ ((tmp.put .e (bs.take (w - (tmp.get .e).length))).get .e).length < w := by
      rw [get_put_take_length, Planes.get_e]
      omega
    have hdone := (exec_plane_eq hrun hi hplanes fun _ => hroom).trans (congrArg Host.Outcome.next (if_neg hfull'))
    refine ⟨hdone, _, hdone, fun j hj => ?_⟩
    obtain ⟨hr, hg, hb, he⟩ := (planesOk_e_iff w tmp).mp hplanes
    have he' : (tmp.e ++ bs.take (w - tmp.e.length)).length = w := by
      rw [List.length_append, List.length_take]
      omega
    have hmem : (planeDone rc .e (tmp.put .e (bs.take (w - (tmp.get .e).length))) (st.skip len) s).mem =
        s.mem.writeBytes (s.regs.dstAddr.toNat + st.ipos.toNat)
          (pixelBytes (planePixels w tmp.r tmp.g tmp.b (tmp.e ++ bs.take (w - tmp.e.length)))) := by
      rw [← interleave_eq_planePixels w _ _ _ _ hr hg hb he']
      exact scanlineDone_mem ..
    have hpixel := Memory.rgbeAt_writeBytes_planePixels s.mem (s.regs.dstAddr.toNat + st.ipos.toNat) tmp.r tmp.g tmp.b
      (tmp.e ++ bs.take (w - tmp.e.length)) hj
    rw [hmem]
    simp only [Memory.rgbeAt, Rgbe.mk.injEq] at hpixel
    exact hpixel

/-! ### The frame of a token (R71, R182, R305) -/

/-- What an emission leaves alone: memory outside the pixels it stores, and the draws. -/
theorem emitThen_frame {s t : State} {r : Run} {px : List Rgbe} {rc : Option Nat} {rest : Option LinePos} (hs : s.disturbed = false)
    (h : emitThen px rc rest r s = .next t) :
    t.mem = s.mem.writeBytes (emitAddr s.regs r.staged) (pixelBytes px) ∧ t.draws = s.draws := by
  rw [emitThen_eq] at h
  split at h <;> cases h
  cases rest with
  | some lp => exact ⟨rfl, rfl⟩
  | none =>
    rcases endLine_cases rc { r with staged := r.staged.emitted px }
        { s with mem := s.mem.writeBytes (emitAddr s.regs r.staged) (pixelBytes px) } with ⟨n, -, heq⟩ | ⟨-, heq⟩
    · rw [heq]
      exact ⟨rfl, rfl⟩
    · rw [heq, State.finish_written _ _ hs]
      exact ⟨rfl, rfl⟩

/-- The bytes that a group stores are its pixels. -/
theorem storedByToken_group {w em sh sh' : Nat} {prev : Word} {lp : LinePos} {i : Instr} {px : List Rgbe}
    (hcounters : groupCounters lp = some (em, sh)) (hi : groupPixels w em sh prev i = some (px, sh')) (a : Nat) :
    storedByToken i w lp a = (a, 4 * px.length) := by
  cases i
  case osPix => cases hi; rfl
  case osMark e =>
    cases hi
    cases lp with
    | start => cases hcounters; simp [storedByToken]
    | plane c tmp => cases hcounters
    | old em sh => cases hcounters; simp [storedByToken]
  all_goals cases hi

/-- A token that fills the fourth plane stores the scanline. -/
theorem storedByToken_plane {w n : Nat} {tmp : Planes} {i : Instr} {bs : List Byte} (hi : planeBytes i = some (n, bs))
    (hplanes : planesOk w .e tmp = true) (hfull : w ≤ tmp.e.length + bs.length) (a : Nat) :
    storedByToken i w (.plane .e tmp) a = (a, 4 * w) := by
  cases i
  case nsRun n v => cases hi; rw [List.length_replicate] at hfull; exact if_pos hfull
  case nsLit data => cases hi; exact if_pos hfull
  case nsNop0 =>
    cases hi
    obtain ⟨-, -, -, he⟩ := (planesOk_e_iff w tmp).mp hplanes
    rw [List.length_nil] at hfull
    omega
  all_goals cases hi

/-- The memory and the draws after a token of a scanline whose signature, if it is one, has the width. -/
theorem lineToken_frame {s t : State} {rc : Option Nat} {lp : LinePos} {st : Staged} {i : Instr}
    (hrun : s.run = some { phase := .line rc lp, staged := st, disturbed := false }) (hlp : linePosOk st.width.toNat lp = true)
    (hwidth : ∀ width16, i = .nsSig width16 → width16.toNat = st.width.toNat)
    (hplace : recognisedAt (Phase.line rc lp).place i = true) (hexec : exec i s = .next t) {a : Nat}
    (ha : a < (storedByToken i st.width.toNat lp (s.regs.dstAddr.toNat + st.ipos.toNat)).1 ∨
      (storedByToken i st.width.toNat lp (s.regs.dstAddr.toNat + st.ipos.toNat)).1 +
        (storedByToken i st.width.toNat lp (s.regs.dstAddr.toNat + st.ipos.toNat)).2 ≤ a) :
    t.mem.read a = s.mem.read a ∧ t.draws = s.draws := by
  have hs : s.disturbed = false := State.disturbed_of_run hrun
  rcases lineToken_cases hplace st.width.toNat st.prev with
    ⟨width16, rfl, rfl⟩ | ⟨em, sh, px, sh', hcounters, hpixels⟩ | ⟨c, tmp, n, bs, rfl, hbytes⟩
  · rw [exec_nsSig_at_start width16 hrun, if_pos (hwidth width16 rfl)] at hexec
    cases hexec
    exact ⟨rfl, rfl⟩
  · rw [storedByToken_group hcounters hpixels] at ha
    rw [(exec_group hrun hcounters hpixels).2] at hexec
    obtain ⟨hmem, hdraws⟩ := emitThen_frame hs hexec
    refine ⟨?_, hdraws⟩
    rw [hmem]
    exact Memory.read_writeBytes_outside _ _ _ (by rwa [pixelBytes_length])
  · rw [exec_plane hrun hbytes] at hexec
    rcases planeToken_cases rc c tmp n bs { phase := .line rc (.plane c tmp), staged := st, disturbed := false } s with
      ⟨-, heq⟩ | ⟨-, c', -, heq⟩ | ⟨hfull, hnone, heq⟩
    · cases heq.symm.trans hexec
      exact ⟨rfl, rfl⟩
    · cases heq.symm.trans hexec
      exact ⟨rfl, rfl⟩
    · obtain rfl := chan_eq_e_of_next_eq_none hnone
      have hplanes : planesOk st.width.toNat .e tmp = true := hlp
      have hfull : st.width.toNat ≤ ((tmp.put .e (bs.take (st.width.toNat - (tmp.get .e).length))).get .e).length := hfull
      have hlength := interleave_length_of_planesOk hplanes (get_put_length_of_full hplanes hfull)
      have hreached : st.width.toNat ≤ tmp.e.length + bs.length := by
        rw [get_put_take_length, Planes.get_e] at hfull
        omega
      rw [storedByToken_plane hbytes hplanes hreached] at ha
      obtain ⟨hmem, hdraws⟩ := emitThen_frame hs (heq.symm.trans hexec)
      refine ⟨?_, hdraws⟩
      have hbytes := (pixelBytes_length _).trans (congrArg (4 * ·) hlength)
      rw [hmem]
      refine Memory.read_writeBytes_outside _ _ _ (ha.imp_right fun hle => ?_)
      exact (Nat.add_le_add_left hbytes.le _).trans hle

/-- Settles O29: the frame of every answer of a running command, and the memory and the draws of a token's. -/
theorem scanlineTokenFrame : Obligations.ScanlineTokenFrame := by
  intro i s t rc lp st hrun hlp hwidth hplace hexec stored
  obtain ⟨hoperands, hregisters, hinputs, hbusData⟩ := exec_keepsOperands hexec
  have hframe := fun a ha => lineToken_frame hrun hlp hwidth hplace hexec (a := a) ha
  have hdraws := (hframe (stored.1 + stored.2) (.inr le_rfl)).2
  exact ⟨fun a ha => (hframe a ha).1, hoperands, hregisters, hinputs, hbusData, hdraws⟩

end Sys2Proof.Machine
end

section
/-!
PROOFS. The token-by-token scanline decoder against the byte-level one (R170 to R183): runs bounded by a number of steps, the source bytes at
the cursor, and the simulation of a channel plane and of an old-style scanline.
-/

namespace Sys2Proof.Machine

/-! ### Runs of at most so many steps -/

/-- At most `n` steps lead from one state to the other. -/
def ReachesIn (n : Nat) (s t : State) : Prop := ∃ k, k ≤ n ∧ leadsTo k s t

theorem leadsTo_zero (s : State) : leadsTo 0 s s := rfl

theorem leadsTo_add {j k : Nat} {s t u : State} (hst : leadsTo j s t) (htu : leadsTo k t u) : leadsTo (j + k) s u := by
  induction j generalizing s with
  | zero =>
    rw [eq_of_leadsTo_zero hst] at htu
    rwa [Nat.zero_add]
  | succ j ih =>
    obtain ⟨v, hstep, hrest⟩ := exists_step_of_leadsTo_succ hst
    rw [Nat.add_right_comm]
    exact leadsTo_succ hstep (ih hrest)

namespace ReachesIn

theorem of_step {s t : State} (h : step s = .next t) : ReachesIn 1 s t := ⟨1, le_rfl, leadsTo_succ h (leadsTo_zero t)⟩

theorem mono {m n : Nat} {s t : State} (h : ReachesIn m s t) (hmn : m ≤ n) : ReachesIn n s t := by
  obtain ⟨k, hk, hsteps⟩ := h
  exact ⟨k, hk.trans hmn, hsteps⟩

theorem trans {m n : Nat} {s t u : State} (hst : ReachesIn m s t) (htu : ReachesIn n t u) : ReachesIn (m + n) s u := by
  obtain ⟨j, hj, hjsteps⟩ := hst
  obtain ⟨k, hk, hksteps⟩ := htu
  exact ⟨j + k, Nat.add_le_add hj hk, leadsTo_add hjsteps hksteps⟩

end ReachesIn

/-! ### The source bytes at the cursor -/

theorem Memory.readBytes_drop (m : Memory) (a n k : Nat) : m.readBytes (a + k) (n - k) = (m.readBytes a n).drop k := by
  refine List.ext_getElem (by simp) fun i hi hi' => ?_
  rw [List.getElem_drop, Memory.readBytes_getElem, Memory.readBytes_getElem, Nat.add_assoc]

theorem Memory.readBytes_take (m : Memory) (a n k : Nat) : m.readBytes a (min k n) = (m.readBytes a n).take k := by
  refine List.ext_getElem (by simp) fun i hi hi' => ?_
  rw [List.getElem_take, Memory.readBytes_getElem, Memory.readBytes_getElem]

theorem streamFrom_eq_readBytes (s : State) (pos : Nat) :
    streamFrom s pos = s.mem.readBytes (s.regs.srcAddr.toNat + pos) (s.regs.srcLen.toNat - pos) := by
  rw [streamFrom, State.srcBytes, Nat.min_self]

theorem streamFrom_add (s : State) (pos n : Nat) : streamFrom s (pos + n) = (streamFrom s pos).drop n := by
  rw [streamFrom_eq_readBytes, streamFrom_eq_readBytes, ← Nat.add_assoc, ← Nat.sub_sub, Memory.readBytes_drop]

theorem srcBytes_eq_take (s : State) (pos n : Nat) : s.srcBytes pos n = (streamFrom s pos).take n := by
  rw [streamFrom_eq_readBytes, State.srcBytes, Memory.readBytes_take]

/-- A write to the destination region leaves the stream alone (R68 c). -/
theorem streamFrom_written {s t : State} {a : Nat} {bs : List Byte} (hregs : t.regs = s.regs) (hmem : t.mem = s.mem.writeBytes a bs)
    (hregions : s.regs.regionsOk = true) (hlo : s.regs.dstAddr.toNat ≤ a)
    (hhi : a + bs.length ≤ s.regs.dstAddr.toNat + s.regs.dstLen.toNat) {pos : Nat} (hpos : pos ≤ s.regs.srcLen.toNat) :
    streamFrom t pos = streamFrom s pos := by
  obtain ⟨-, -, hapart⟩ := (Regs.regionsOk_iff s.regs).mp hregions
  rw [streamFrom_eq_readBytes, streamFrom_eq_readBytes, hregs, hmem]
  refine Memory.readBytes_congr _ _ _ _ fun x hx hx' => Memory.read_writeBytes_outside _ _ _ ?_
  rcases hapart with hsrc | hdst | hbefore | hafter
  · have : s.regs.srcLen.toNat = 0 := congrArg BitVec.toNat hsrc
    omega
  · have : s.regs.dstLen.toNat = 0 := congrArg BitVec.toNat hdst
    omega
  · omega
  · omega

/-! ### A scanline being decoded -/

/-- The state `s` with its command decoding a scanline that nobody has disturbed. -/
def lineState (s : State) (rc : Option Nat) (lp : LinePos) (st : Staged) : State :=
  { s with run := some { phase := .line rc lp, staged := st, disturbed := false } }

/-- A command decodes a scanline, no host move is pending, and `bs` is what is left of its source region. -/
structure Decoding (s : State) (rc : Option Nat) (lp : LinePos) (st : Staged) (bs : List Byte) : Prop where
  inputs : s.inputs = []
  ok : LineOk s.regs rc lp st
  bytes : streamFrom s st.pos.toNat = bs

theorem failedInScanlines_lineState (s : State) (rc : Option Nat) (lp : LinePos) (st : Staged) (k : FailKind) :
    failedInScanlines (lineState s rc lp st) k = failedInScanlines s k := by
  unfold failedInScanlines State.spoilDestination
  by_cases hdst : hasDestination s.regs.cmd = true
  · rw [if_pos hdst, if_pos (by exact hdst)]
    rfl
  · rw [if_neg hdst, if_neg (by exact hdst)]
    rfl

theorem scanlineDone_lineState (s : State) (rc rc' : Option Nat) (lp : LinePos) (st st' : Staged) (px : List Rgbe) :
    scanlineDone rc st px (lineState s rc' lp st') = scanlineDone rc st px s := by
  match rc with
  | some (n + 2) | none | some 0 | some 1 => rfl

theorem planeDone_lineState (s : State) (rc rc' : Option Nat) (lp : LinePos) (c : Chan) (tmp : Planes) (st st' : Staged) :
    planeDone rc c tmp st (lineState s rc' lp st') = planeDone rc c tmp st s := by
  cases c with
  | r | g | b => rfl
  | e => exact scanlineDone_lineState ..

theorem planeDone_of_next {c c' : Chan} (h : Chan.next c = some c') (rc : Option Nat) (tmp : Planes) (st : Staged) (s : State) :
    planeDone rc c tmp st s = lineState s rc (.plane c' tmp) st := by
  rw [planeDone, h]
  rfl

theorem Staged.skip_skip (st : Staged) (m n : Nat) : (st.skip m).skip n = st.skip (m + n) := by
  simp only [Staged.skip, Staged.mk.injEq, true_and, and_true]
  apply BitVec.eq_of_toNat_eq
  simp only [BitVec.toNat_ofNat]
  omega

/-- The 129 bytes that are fetched hold the token that the whole rest of the stream begins with (R107). -/
theorem decodeToken_take (rc : Option Nat) (lp : LinePos) (bs : List Byte) :
    decodeToken (Phase.line rc lp).place (bs.take longestToken) = decodeToken (Phase.line rc lp).place bs := by
  cases lp with
  | start | old =>
    match bs with
    | [] | [_] | [_, _] | [_, _, _] | _ :: _ :: _ :: _ :: _ => rfl
  | plane c tmp =>
    cases bs with
    | nil => rfl
    | cons c rest =>
      simp only [Phase.place, longestToken, List.take_succ_cons, decodeToken_plane_cons]
      split
      · rfl
      split
      case isTrue hlit =>
        rw [List.take_take, Nat.min_eq_left hlit, List.length_take]
        exact ite_congr (propext (by omega)) (fun _ => rfl) fun _ => rfl
      case isFalse =>
        cases rest <;> rfl

namespace Decoding

variable {s : State} {rc : Option Nat} {lp : LinePos} {st : Staged} {bs : List Byte}

theorem length (h : Decoding s rc lp st bs) : bs.length = s.regs.srcLen.toNat - st.pos.toNat := by
  rw [← h.bytes, streamFrom_length]

theorem fetchCode_eq (h : Decoding s rc lp st bs) :
    fetchCode { phase := .line rc lp, staged := st, disturbed := false } (lineState s rc lp st) = .bytes (bs.take longestToken) := by
  rw [← h.bytes, ← srcBytes_eq_take]
  rfl

theorem step_of_ok (h : Decoding s rc lp st bs) {i : Instr} (hdec : decodeToken (Phase.line rc lp).place bs = .ok i) :
    step (lineState s rc lp st) = exec i (lineState s rc lp st) := by
  have hfits : (lineState s rc lp st).regs.srcFits = true := srcFits_of_regionsOk h.ok.regions
  refine step_eq_exec_of_decode rfl h.inputs hfits ?_
  rw [h.fetchCode_eq, decode_bytes, decodeToken_take, hdec]

/-- Where the bytes end inside a token the command fails (R172, R183). -/
theorem step_of_error (h : Decoding s rc lp st bs) {e : DecodeError} (hdec : decodeToken (Phase.line rc lp).place bs = .error e) :
    step (lineState s rc lp st) = .next (failedInScanlines s .inputUnderrun) := by
  have hfits : (lineState s rc lp st).regs.srcFits = true := srcFits_of_regionsOk h.ok.regions
  obtain rfl := decodeToken_line_error hdec
  have hfetch : fetch { phase := .line rc lp, staged := st, disturbed := false } (lineState s rc lp st) =
      .failure .inputUnderrun := by
    rw [fetch, if_neg (by simp [hfits]), h.fetchCode_eq, decode_bytes, decodeToken_take, hdec]
    rfl
  have hraise : (lineState s rc lp st).raise .inputUnderrun = failedInScanlines s .inputUnderrun :=
    (State.raise_of_inLine rfl _).trans (failedInScanlines_lineState ..)
  rw [step_engine (lineState s rc lp st) h.inputs, engineStep_running (lineState s rc lp st) _ rfl, hfetch, ← hraise]
  rfl

/-- The token that is decoded is one of its place and lies whole in the rest of the stream. -/
theorem token (h : Decoding s rc lp st bs) {i : Instr} (hdec : decodeToken (Phase.line rc lp).place bs = .ok i) :
    recognisedAt (Phase.line rc lp).place i = true ∧ 1 ≤ tokenLength i ∧ tokenLength i ≤ bs.length := by
  obtain ⟨-, hplace, e, rest, hencode, rfl⟩ := decodeToken_spec (Phase.place_line_ne_header rc lp) hdec
  refine ⟨hplace, one_le_tokenLength hplace, ?_⟩
  rw [← encode_length_eq_tokenLength hencode, List.length_append]
  omega

theorem bytes_skip (h : Decoding s rc lp st bs) {n : Nat} (hn : n ≤ bs.length) :
    streamFrom s (st.skip n).pos.toNat = bs.drop n := by
  rw [h.length] at hn
  rw [h.ok.toNat_pos_skip hn, streamFrom_add, h.bytes]

end Decoding

/-! ### A channel plane (R175 to R179) -/

theorem Planes.put_put (tmp : Planes) (c : Chan) (a b : List Byte) : (tmp.put c a).put c b = tmp.put c (a ++ b) := by
  cases c <;> simp [Planes.put]

theorem refPlane_of_full {w : Nat} {acc : List Byte} (h : w ≤ acc.length) (fuel : Nat) (bs : List Byte) :
    refPlane w fuel acc bs = some (acc, bs) := by
  cases fuel with
  | zero => exact if_pos h
  | succ fuel => cases bs <;> exact if_pos h

/-- A run of the byte-level decoder (R177). -/
theorem refPlane_run {w : Nat} {acc : List Byte} (h : acc.length < w) {c : Byte} (hc : 128 < c.toNat) (fuel : Nat) (v : Byte)
    (rest : List Byte) :
    refPlane w (fuel + 1) acc (c :: v :: rest) =
      refPlane w fuel (acc ++ List.replicate (min (c.toNat - 128) (w - acc.length)) v) rest :=
  (if_neg (Nat.not_le.mpr h)).trans (if_pos hc)

/-- A literal of the byte-level decoder, an empty one among them (R178, R179). -/
theorem refPlane_lit {w : Nat} {acc : List Byte} (h : acc.length < w) {c : Byte} (hc : c.toNat ≤ 128) (fuel : Nat) {rest : List Byte}
    (hlen : c.toNat ≤ rest.length) :
    refPlane w (fuel + 1) acc (c :: rest) =
      refPlane w fuel (acc ++ (rest.take c.toNat).take (w - acc.length)) (rest.drop c.toNat) :=
  (if_neg (Nat.not_le.mpr h)).trans ((if_neg (Nat.not_lt.mpr hc)).trans (if_pos hlen))

/-- One control byte of the byte-level decoder is one token of a channel plane. -/
theorem refPlane_of_ok {w fuel n : Nat} {acc bs add : List Byte} {i : Instr} (h : acc.length < w)
    (hdec : decodeToken .plane bs = .ok i) (hi : planeBytes i = some (n, add)) :
    refPlane w (fuel + 1) acc bs = refPlane w fuel (acc ++ add.take (w - acc.length)) (bs.drop n) := by
  cases bs with
  | nil => cases hdec
  | cons c rest =>
    rw [decodeToken_plane_cons] at hdec
    split at hdec
    case isTrue hzero =>
      subst hzero
      cases hdec
      cases hi
      rw [refPlane_lit h (Nat.zero_le _) fuel (Nat.zero_le _)]
      rfl
    case isFalse =>
      split at hdec
      case isTrue hlit =>
        split at hdec <;> cases hdec
        case isTrue hlen =>
          cases hi
          rw [refPlane_lit h hlit fuel hlen, List.length_take, Nat.min_eq_left hlen, Nat.add_comm 1, List.drop_succ_cons]
      case isFalse hrun =>
        have hgt := Nat.not_le.mp hrun
        cases rest with
        | nil => cases hdec
        | cons v rest =>
          cases hdec
          cases hi
          rw [refPlane_run h hgt, toNat_runCount hgt, List.take_replicate, Nat.min_comm]
          rfl

/-- Where no token of a channel plane can be decoded the byte-level decoder fails, whatever its fuel. -/
theorem refPlane_of_error {w fuel : Nat} {acc bs : List Byte} {e : DecodeError} (h : acc.length < w)
    (hdec : decodeToken .plane bs = .error e) : refPlane w fuel acc bs = none := by
  cases fuel with
  | zero => exact if_neg (Nat.not_le.mpr h)
  | succ fuel =>
    cases bs with
    | nil => exact if_neg (Nat.not_le.mpr h)
    | cons c rest =>
      rw [decodeToken_plane_cons] at hdec
      split at hdec
      · cases hdec
      split at hdec
      case isTrue hlit =>
        split at hdec <;> cases hdec
        case isFalse hlen => exact (if_neg (Nat.not_le.mpr h)).trans ((if_neg (Nat.not_lt.mpr hlit)).trans (if_neg hlen))
      case isFalse hrun =>
        cases rest with
        | nil => exact (if_neg (Nat.not_le.mpr h)).trans (if_pos (Nat.not_le.mp hrun))
        | cons v rest => cases hdec

/-- A token of a channel plane, run. -/
theorem Decoding.step_plane {s : State} {rc : Option Nat} {c : Chan} {tmp : Planes} {st : Staged} {bs : List Byte}
    (h : Decoding s rc (.plane c tmp) st bs) {i : Instr} {n : Nat} {add : List Byte} (hdec : decodeToken .plane bs = .ok i)
    (hi : planeBytes i = some (n, add)) :
    let tmp' := tmp.put c (add.take (st.width.toNat - (tmp.get c).length))
    step (lineState s rc (.plane c tmp) st) = .next
      (if (tmp'.get c).length < st.width.toNat then lineState s rc (.plane c tmp') (st.skip n)
      else planeDone rc c tmp' (st.skip n) s) := by
  have hroom : c = .e → (lineState s rc (.plane c tmp) st).regs.dstAddr.toNat + st.ipos.toNat + 4 * st.width.toNat ≤ 2 ^ 32 := by
    intro _
    have hfits := (h.ok.emitAddr_le (n := 0) (k := st.width.toNat) (by rw [emittedPixels_plane, Nat.zero_add])).2
    exact hfits
  intro tmp'
  rw [h.step_of_ok hdec, exec_plane_eq rfl hi h.ok.linePos hroom, planeDone_lineState]
  rfl

/-- A channel plane, token by token: the machine fails where the byte-level decoder does, or reaches the plane's end with the same bytes,
in no more steps than bytes. -/
theorem plane_sim {s : State} {rc : Option Nat} {c : Chan} (fuel : Nat) {st : Staged} {tmp : Planes} {bs : List Byte}
    (h : Decoding s rc (.plane c tmp) st bs) (hfuel : bs.length ≤ fuel) :
    (refPlane st.width.toNat fuel (tmp.get c) bs = none ∧
      ReachesIn (bs.length + 1) (lineState s rc (.plane c tmp) st) (failedInScanlines s .inputUnderrun)) ∨
    ∃ used add, 1 ≤ used ∧ used ≤ bs.length ∧
      refPlane st.width.toNat fuel (tmp.get c) bs = some ((tmp.put c add).get c, bs.drop used) ∧
      ((tmp.put c add).get c).length = st.width.toNat ∧
      ReachesIn used (lineState s rc (.plane c tmp) st) (planeDone rc c (tmp.put c add) (st.skip used) s) := by
  induction fuel generalizing st tmp bs with
  | zero =>
    obtain rfl := List.length_eq_zero_iff.mp (Nat.le_zero.mp hfuel)
    have hshort := get_length_lt_of_planesOk h.ok.linePos
    exact .inl ⟨refPlane_of_error hshort rfl, (ReachesIn.of_step (h.step_of_error rfl)).mono (Nat.le_add_left _ _)⟩
  | succ fuel ih =>
    have hplanes : planesOk st.width.toNat c tmp = true := h.ok.linePos
    have hshort := get_length_lt_of_planesOk hplanes
    cases hdec : decodeToken .plane bs with
    | error e => exact .inl ⟨refPlane_of_error hshort hdec, (ReachesIn.of_step (h.step_of_error hdec)).mono (Nat.le_add_left _ _)⟩
    | ok i =>
      obtain ⟨hplace, hpos, hle⟩ := h.token hdec
      obtain ⟨n, add, hi⟩ := exists_planeBytes_of_recognisedAt hplace
      rw [tokenLength_of_planeBytes hi] at hpos hle
      have hstep := h.step_plane hdec hi
      dsimp only at hstep
      have href := refPlane_of_ok (fuel := fuel) hshort hdec hi
      rw [← Planes.get_put] at href
      by_cases hmore : ((tmp.put c (add.take (st.width.toNat - (tmp.get c).length))).get c).length < st.width.toNat
      · rw [if_pos hmore] at hstep
        have hn : n ≤ s.regs.srcLen.toNat - st.pos.toNat := h.length ▸ hle
        have hnext : Decoding s rc (.plane c (tmp.put c (add.take (st.width.toNat - (tmp.get c).length)))) (st.skip n) (bs.drop n) :=
          ⟨h.inputs, h.ok.skip_plane hn (planesOk_put hplanes hmore) rfl, h.bytes_skip hle⟩
        have hlength : (bs.drop n).length = bs.length - n := List.length_drop
        rcases ih hnext (by omega) with ⟨hnone, hreach⟩ | ⟨used, add', -, hused, hsome, hfull, hreach⟩
        · exact .inl ⟨href.trans hnone, ((ReachesIn.of_step hstep).trans hreach).mono (by omega)⟩
        · rw [Planes.put_put] at hsome hfull hreach
          rw [List.drop_drop] at hsome
          rw [Staged.skip_skip] at hreach
          exact .inr ⟨n + used, _, by omega, by omega, href.trans hsome, hfull, ((ReachesIn.of_step hstep).trans hreach).mono (by omega)⟩
      · rw [if_neg hmore] at hstep
        have hfull := get_put_length_of_full hplanes (Nat.not_lt.mp hmore)
        exact .inr ⟨n, _, hpos, hle, href.trans (refPlane_of_full hfull.ge _ _), hfull, (ReachesIn.of_step hstep).mono hpos⟩

end Sys2Proof.Machine
end

section
/-!
PROOFS. A whole scanline, token by token, against the byte-level decoder (R170 to R187): the four planes of a new-style one, the groups of an
old-style one, and the choice between them.
-/

namespace Sys2Proof.Machine

/-! ### New-style scanlines (R175, R181) -/

/-- A full plane gives way to the next, with the bytes after it. -/
theorem Decoding.next_plane {s : State} {rc : Option Nat} {c c' : Chan} {tmp : Planes} {st : Staged} {bs : List Byte}
    (h : Decoding s rc (.plane c tmp) st bs) (hnext : Chan.next c = some c') {add : List Byte}
    (hfull : ((tmp.put c add).get c).length = st.width.toNat) {used : Nat} (hused : used ≤ bs.length) :
    Decoding s rc (.plane c' (tmp.put c add)) (st.skip used) (bs.drop used) :=
  ⟨h.inputs, h.ok.skip_plane (h.length ▸ hused) (planesOk_next h.ok.linePos hnext hfull) rfl, h.bytes_skip hused⟩

/-- The planes from `c` on, in the order R, G, B, E (R175). -/
def Chan.onward : Chan → List Chan
  | .r => [.r, .g, .b, .e]
  | .g => [.g, .b, .e]
  | .b => [.b, .e]
  | .e => [.e]

theorem Chan.onward_of_next {c c' : Chan} (h : Chan.next c = some c') : c.onward = c :: c'.onward := by
  cases c <;> cases h <;> rfl

/-- One plane replaced as a whole. -/
def Planes.set (tmp : Planes) (c : Chan) (bs : List Byte) : Planes :=
  match c with
  | .r => { tmp with r := bs }
  | .g => { tmp with g := bs }
  | .b => { tmp with b := bs }
  | .e => { tmp with e := bs }

theorem Planes.set_get_put (tmp : Planes) (c : Chan) (add : List Byte) : tmp.set c ((tmp.put c add).get c) = tmp.put c add := by
  cases c <;> rfl

/-- The byte-level decoder of the planes that are listed, the first of which may have begun. -/
def refPlanes (w : Nat) : List Chan → Planes → List Byte → Option (List Rgbe × List Byte)
  | [], tmp, bs => some (planePixels w tmp.r tmp.g tmp.b tmp.e, bs)
  | c :: cs, tmp, bs => (refPlane w bs.length (tmp.get c) bs).bind fun x => refPlanes w cs (tmp.set c x.1) x.2

theorem refNewStyle_eq_refPlanes (w : Nat) (bs : List Byte) : refNewStyle w bs = refPlanes w (Chan.onward .r) Planes.empty bs := rfl

/-- What a simulation of the rest of a scanline says, which answers `ref` for the bytes `bs` left: a failure where the byte-level decoder
fails, else the scanline done in no more steps than bytes, at least one token of them. -/
def LineSim (s : State) (rc : Option Nat) (lp : LinePos) (st : Staged) (bs : List Byte) (ref : Option (List Rgbe × List Byte)) : Prop :=
  (ref = none ∧ ReachesIn (bs.length + 1) (lineState s rc lp st) (failedInScanlines s .inputUnderrun)) ∨
    ∃ used px, leastBytes lp ≤ used ∧ used ≤ bs.length ∧ ref = some (px, bs.drop used) ∧
      emittedPixels lp + px.length = st.width.toNat ∧
      ReachesIn used (lineState s rc lp st) (scanlineDone rc (st.skip used) px s)

/-- The last plane ends the scanline. -/
theorem planes_sim_last {s : State} {rc : Option Nat} {tmp : Planes} {st : Staged} {bs : List Byte}
    (h : Decoding s rc (.plane .e tmp) st bs) :
    LineSim s rc (.plane .e tmp) st bs (refPlanes st.width.toNat (Chan.onward .e) tmp bs) := by
  rcases plane_sim bs.length h le_rfl with ⟨hnone, hreach⟩ | ⟨used, add, hone, hused, hsome, hfull, hreach⟩
  · exact .inl ⟨by rw [Chan.onward, refPlanes, hnone, Option.bind_none], hreach⟩
  · obtain ⟨hr, hg, hb, -⟩ := (planesOk_e_iff _ _).mp h.ok.linePos
    have hpixels := interleave_eq_planePixels st.width.toNat _ _ _ _ hr hg hb hfull
    refine .inr ⟨used, _, hone, hused, ?_, ?_, hreach⟩
    · rw [Chan.onward, refPlanes, hsome, Option.bind_some, Planes.set_get_put]
      exact congrArg some (Prod.ext hpixels.symm rfl)
    · exact (Nat.zero_add _).trans (interleave_length_of_planesOk h.ok.linePos hfull)

/-- One plane and then the planes after it: the step counts add up. -/
theorem planes_sim_next {s : State} {rc : Option Nat} {c c' : Chan} (hnext : Chan.next c = some c')
    (ih : ∀ {tmp : Planes} {st : Staged} {bs : List Byte}, Decoding s rc (.plane c' tmp) st bs →
      LineSim s rc (.plane c' tmp) st bs (refPlanes st.width.toNat c'.onward tmp bs))
    {tmp : Planes} {st : Staged} {bs : List Byte} (h : Decoding s rc (.plane c tmp) st bs) :
    LineSim s rc (.plane c tmp) st bs (refPlanes st.width.toNat c.onward tmp bs) := by
  rw [LineSim, Chan.onward_of_next hnext, refPlanes]
  rcases plane_sim bs.length h le_rfl with ⟨hnone, hreach⟩ | ⟨used, add, hone, hused, hsome, hfull, hreach⟩
  · exact .inl ⟨by rw [hnone, Option.bind_none], hreach⟩
  · have hlength : (bs.drop used).length = bs.length - used := List.length_drop
    rw [planeDone_of_next hnext] at hreach
    rw [hsome, Option.bind_some, Planes.set_get_put]
    rcases ih (h.next_plane hnext hfull hused) with ⟨hnone, hrest⟩ | ⟨used', px, -, hused', hsome', hpx, hrest⟩
    · exact .inl ⟨hnone, (hreach.trans hrest).mono (by omega)⟩
    · rw [List.drop_drop] at hsome'
      rw [Staged.skip_skip] at hrest
      exact .inr ⟨used + used', px, hone.trans (Nat.le_add_right _ _), by omega, hsome', hpx, hreach.trans hrest⟩

theorem newStyle_sim {s : State} {rc : Option Nat} {st : Staged} {bs : List Byte} (h : Decoding s rc (.plane .r Planes.empty) st bs) :
    LineSim s rc (.plane .r Planes.empty) st bs (refNewStyle st.width.toNat bs) := by
  rw [refNewStyle_eq_refPlanes]
  exact planes_sim_next (c := .r) rfl (planes_sim_next rfl (planes_sim_next rfl planes_sim_last)) h

/-! ### Pixels stored one group after another (R182) -/

theorem pixelOfPrev_prevOfPixel (p : Rgbe) : pixelOfPrev (prevOfPixel p) = p := by
  obtain ⟨r, g, b, e⟩ := p
  have hr := r.isLt
  have hg := g.isLt
  have hb := b.isLt
  have he := e.isLt
  simp only [pixelOfPrev, prevOfPixel, wordByte, leWord, Rgbe.mk.injEq, ← BitVec.toNat_inj, BitVec.toNat_ofNat]
  omega

/-- The last pixel stored, or the one before, as the decoder remembers it (R35). -/
theorem pixelOfPrev_getD (px : List Rgbe) (prev : Word) :
    pixelOfPrev ((px.getLast?.map prevOfPixel).getD prev) = px.getLast?.getD (pixelOfPrev prev) := by
  cases px.getLast? with
  | none => rfl
  | some p => exact pixelOfPrev_prevOfPixel p

theorem pixelBytes_append (px px' : List Rgbe) : pixelBytes (px ++ px') = pixelBytes px ++ pixelBytes px' := List.flatMap_append

theorem Staged.emitted_emitted (st : Staged) (px px' : List Rgbe) : (st.emitted px).emitted px' = st.emitted (px ++ px') := by
  have hipos : BitVec.ofNat 32 ((BitVec.ofNat 32 (st.ipos.toNat + 4 * px.length)).toNat + 4 * px'.length) =
      BitVec.ofNat 32 (st.ipos.toNat + 4 * (px ++ px').length) := by
    apply BitVec.eq_of_toNat_eq
    simp only [BitVec.toNat_ofNat, List.length_append]
    omega
  have hprev : (px'.getLast?.map prevOfPixel).getD ((px.getLast?.map prevOfPixel).getD st.prev) =
      ((px ++ px').getLast?.map prevOfPixel).getD st.prev := by
    rw [List.getLast?_append]
    cases px'.getLast? <;> rfl
  simp only [Staged.emitted, hipos, hprev]

theorem scanlineDone_eq_emitted (rc : Option Nat) (st : Staged) (px : List Rgbe) (s : State) :
    scanlineDone rc st px s =
      match rc with
      | some (n + 2) =>
        lineState { s with mem := s.mem.writeBytes (s.regs.dstAddr.toNat + st.ipos.toNat) (pixelBytes px) } (some (n + 1)) .start
          { st.emitted px with row := st.row + 1 }
      | _ =>
        { s with
          mem := s.mem.writeBytes (s.regs.dstAddr.toNat + st.ipos.toNat) (pixelBytes px)
          regs := (s.regs.commit { st.emitted px with row := st.row + 1 }).withOutcome 0
          run := none } := by
  match rc with
  | some (n + 2) | none | some 0 | some 1 => rfl

/-- The state after the pixels `px` have been stored. -/
def storedState (s : State) (st : Staged) (px : List Rgbe) : State :=
  { s with mem := s.mem.writeBytes (s.regs.dstAddr.toNat + st.ipos.toNat) (pixelBytes px) }

/-- The end of a scanline that was stored in two parts. -/
theorem scanlineDone_stored {s : State} {st : Staged} {px : List Rgbe} (hipos : (st.emitted px).ipos.toNat = st.ipos.toNat + 4 * px.length)
    (rc : Option Nat) (px' : List Rgbe) :
    scanlineDone rc (st.emitted px) px' (storedState s st px) = scanlineDone rc st (px ++ px') s := by
  have hmem : (storedState s st px).mem.writeBytes (s.regs.dstAddr.toNat + (st.emitted px).ipos.toNat) (pixelBytes px') =
      s.mem.writeBytes (s.regs.dstAddr.toNat + st.ipos.toNat) (pixelBytes (px ++ px')) := by
    rw [pixelBytes_append, Memory.writeBytes_append, hipos, pixelBytes_length, ← Nat.add_assoc]
    rfl
  rw [scanlineDone_eq_emitted, scanlineDone_eq_emitted, ← Staged.emitted_emitted, ← hmem]
  match rc with
  | some (n + 2) | none | some 0 | some 1 => rfl

/-! ### A failure after bytes have been stored (R72) -/

theorem filter_insertCell {cells : List Host.Cell} {p : Host.Cell → Bool} {x : Nat} {v : Byte} (hp : ∀ b, p (x, b) = false) :
    (insertCell cells x v).filter p = cells.filter p := by
  induction cells with
  | nil => simp [insertCell, hp]
  | cons c rest ih =>
    obtain ⟨a, b⟩ := c
    unfold insertCell
    split
    · simp [hp]
    · split
      · rename_i hxa
        subst hxa
        simp [hp]
      · simp [List.filter_cons, ih]

/-- What was written to a range is lost when the range is spoiled. -/
theorem Memory.spoil_writeBytes (m : Memory) {a lo len : Nat} {bs : List Byte} (d : Nat) (hlo : lo ≤ a) (hhi : a + bs.length ≤ lo + len) :
    (m.writeBytes a bs).spoil lo len d = m.spoil lo len d := by
  induction bs generalizing m a with
  | nil => rfl
  | cons b bs ih =>
    rw [List.length_cons] at hhi
    rw [Memory.writeBytes_cons, ih (m.write a b) (by omega) (by omega)]
    have hcells : (m.write a b).cells.filter (fun c => c.1 < lo || lo + len ≤ c.1) =
        m.cells.filter (fun c => c.1 < lo || lo + len ≤ c.1) := by
      refine filter_insertCell fun v => ?_
      simp only [Bool.or_eq_false_iff, decide_eq_false_iff_not]
      omega
    simp only [Memory.spoil, hcells, Memory.write_unspec]

theorem hasDestination_of_lineCommand {cmd : Word} {rc : Option Nat} {lp : LinePos} (h : phaseCommandOk cmd (.line rc lp) = true) :
    hasDestination cmd = true := by
  rw [cmd_of_lineCommand h]
  split <;> rfl

theorem failedInScanlines_eq {s : State} (h : hasDestination s.regs.cmd = true) (k : FailKind) :
    failedInScanlines s k =
      { s with
        mem := s.mem.spoil s.regs.dstAddr.toNat s.regs.dstLen.toNat (s.draws + 1)
        draws := s.draws + 1
        regs := s.regs.withOutcome k.code
        run := none } := by
  rw [failedInScanlines, State.spoilDestination, if_pos h]
  rfl

/-- A failure in a scanline leaves nothing of what the scanline had stored. -/
theorem failedInScanlines_stored {s : State} {st : Staged} {px : List Rgbe} (hdst : hasDestination s.regs.cmd = true)
    (hroom : st.ipos.toNat + 4 * px.length ≤ s.regs.dstLen.toNat) (k : FailKind) :
    failedInScanlines (storedState s st px) k = failedInScanlines s k := by
  have hspoil := s.mem.spoil_writeBytes (a := s.regs.dstAddr.toNat + st.ipos.toNat) (lo := s.regs.dstAddr.toNat)
    (len := s.regs.dstLen.toNat) (bs := pixelBytes px) (s.draws + 1) (Nat.le_add_right _ _) (by rw [pixelBytes_length]; omega)
  have hdst' : hasDestination (storedState s st px).regs.cmd = true := hdst
  rw [failedInScanlines_eq hdst', failedInScanlines_eq hdst, ← hspoil]
  rfl

/-! ### Old-style scanlines (R183 to R187) -/

theorem refOldStyle_of_full {w em : Nat} (h : w ≤ em) (fuel sh : Nat) (prev : Rgbe) (bs : List Byte) :
    refOldStyle w fuel em sh prev bs = some ([], bs) := by
  cases fuel with
  | zero => exact if_pos h
  | succ fuel =>
    match bs with
    | [] | [_] | [_, _] | [_, _, _] | _ :: _ :: _ :: _ :: _ => exact if_pos h

theorem refOldStyle_of_short {w em : Nat} (h : em < w) {bs : List Byte} (hbs : bs.length < 4) (fuel sh : Nat) (prev : Rgbe) :
    refOldStyle w fuel em sh prev bs = none := by
  cases fuel with
  | zero => exact if_neg (Nat.not_le.mpr h)
  | succ fuel =>
    match bs with
    | [] | [_] | [_, _] | [_, _, _] => exact if_neg (Nat.not_le.mpr h)
    | _ :: _ :: _ :: _ :: _ =>
      simp only [List.length_cons] at hbs
      omega

/-- A group in the byte-level decoder: a marker repeats the last pixel, any other four bytes are a pixel (R185, R186). -/
theorem refOldStyle_group {w em : Nat} (h : em < w) (fuel sh : Nat) (prev : Word) (b0 b1 b2 b3 : Byte) (rest : List Byte) :
    ∃ px sh', groupPixels w em sh prev (decodeGroup b0 b1 b2 b3) = some (px, sh') ∧
      refOldStyle w (fuel + 1) em sh (pixelOfPrev prev) (b0 :: b1 :: b2 :: b3 :: rest) =
        (refOldStyle w fuel (em + px.length) sh' (pixelOfPrev ((px.getLast?.map prevOfPixel).getD prev)) rest).map
          fun x => (px ++ x.1, x.2) := by
  by_cases hmark : b0 = 1 ∧ b1 = 1 ∧ b2 = 1
  · have hgroup : decodeGroup b0 b1 b2 b3 = .osMark b3 := if_pos hmark
    have hlast : ((List.replicate (markerCount w em sh b3) (pixelOfPrev prev)).getLast?.map prevOfPixel).getD prev = prev := by
      cases markerCount w em sh b3 with
      | zero => rfl
      | succ k => simp [List.getLast?_replicate, prevOfPixel_pixelOfPrev]
    refine ⟨_, _, by rw [hgroup]; rfl, ?_⟩
    rw [hlast, List.length_replicate]
    exact (if_neg (Nat.not_le.mpr h)).trans (if_pos hmark)
  · have hgroup : decodeGroup b0 b1 b2 b3 = .osPix b0 b1 b2 b3 := if_neg hmark
    refine ⟨_, _, by rw [hgroup]; rfl, ?_⟩
    rw [pixelOfPrev_getD]
    exact (if_neg (Nat.not_le.mpr h)).trans (if_neg hmark)

/-- A group, run: its pixels are stored, and the scanline goes on or is done. -/
theorem Decoding.step_group {s : State} {rc : Option Nat} {lp : LinePos} {st : Staged} {bs : List Byte} (h : Decoding s rc lp st bs)
    {i : Instr} {em sh sh' : Nat} {px : List Rgbe} (hdec : decodeToken (Phase.line rc lp).place bs = .ok i)
    (hlp : groupCounters lp = some (em, sh)) (hi : groupPixels st.width.toNat em sh st.prev i = some (px, sh')) :
    (em + px.length < st.width.toNat ∧
      step (lineState s rc lp st) = .next
        (lineState (storedState s (st.skip 4) px) rc (.old (em + px.length) sh') ((st.skip 4).emitted px))) ∨
    (em + px.length = st.width.toNat ∧ step (lineState s rc lp st) = .next (scanlineDone rc (st.skip 4) px s)) := by
  obtain ⟨hem, hle, -, -⟩ := groupPixels_bounds h.ok.linePos h.ok.one_le_width hlp hi
  subst hem
  have hfits := (h.ok.emitAddr_le (n := 4) hle).2
  rw [h.step_of_ok hdec, (exec_group (s := lineState s rc lp st) rfl hlp hi).2]
  rcases Nat.lt_or_eq_of_le hle with hmore | hlast
  · exact .inl ⟨hmore, emitThen_oldRest_of_lt (s := lineState s rc lp st) rc sh' hmore hfits⟩
  · refine .inr ⟨hlast, ?_⟩
    rw [← scanlineDone_lineState s rc rc lp (st.skip 4) st]
    exact emitThen_oldRest_of_le (s := lineState s rc lp st) rc sh' hlast.ge rfl rfl hfits

/-- After a group with more to come the decoding goes on behind it. -/
theorem Decoding.next_group {s : State} {rc : Option Nat} {lp : LinePos} {st : Staged} {bs : List Byte} (h : Decoding s rc lp st bs)
    {sh : Nat} {px : List Rgbe} (hmore : emittedPixels lp + px.length < st.width.toNat) (hmod : sh % 8 = 0) (hsh : sh ≤ 248)
    (hbs : 4 ≤ bs.length) :
    Decoding (storedState s (st.skip 4) px) rc (.old (emittedPixels lp + px.length) sh) ((st.skip 4).emitted px) (bs.drop 4) := by
  have hn : 4 ≤ s.regs.srcLen.toNat - st.pos.toNat := h.length ▸ hbs
  have hroom := h.ok.room
  refine ⟨h.inputs, h.ok.skip_group hn hmore hmod hsh, ?_⟩
  rw [← h.bytes_skip hbs]
  refine streamFrom_written (t := storedState s (st.skip 4) px) (s := s) (bs := pixelBytes px) rfl rfl h.ok.regions (Nat.le_add_right _ _) ?_ ?_
  · rw [pixelBytes_length, Staged.skip_ipos]
    omega
  · have hpos := h.ok.toNat_pos_skip hn
    rw [Staged.emitted_pos]
    omega

theorem emittedPixels_of_counters {lp : LinePos} {em sh : Nat} (h : groupCounters lp = some (em, sh)) :
    emittedPixels lp = em ∧ leastBytes lp = 4 := by
  cases lp with
  | plane c tmp => cases h
  | start | old => cases h; exact ⟨rfl, rfl⟩

/-- A stream that ends before a group fails in both decoders (R183). -/
theorem lineSim_of_short {s : State} {rc : Option Nat} {lp : LinePos} {st : Staged} {bs : List Byte} {em sh : Nat}
    (h : Decoding s rc lp st bs) (hlp : groupCounters lp = some (em, sh)) (hbs : bs.length < 4) (fuel : Nat) :
    LineSim s rc lp st bs (refOldStyle st.width.toNat fuel em sh (pixelOfPrev st.prev) bs) := by
  obtain ⟨rfl, hleast⟩ := emittedPixels_of_counters hlp
  have hstep := h.step_of_error (decodeToken_of_short (by rwa [hleast]))
  exact .inl ⟨refOldStyle_of_short h.ok.emittedPixels_lt hbs _ _ _, (ReachesIn.of_step hstep).mono (Nat.le_add_left _ _)⟩

/-- An old-style scanline, group by group, from any place where its groups are recognised. -/
theorem oldStyle_sim {rc : Option Nat} (fuel : Nat) {s : State} {lp : LinePos} {st : Staged} {bs : List Byte} {em sh : Nat}
    (h : Decoding s rc lp st bs) (hlp : groupCounters lp = some (em, sh)) (hfuel : bs.length ≤ fuel)
    (hdec : ∀ b0 b1 b2 b3 rest, bs = b0 :: b1 :: b2 :: b3 :: rest →
      decodeToken (Phase.line rc lp).place bs = .ok (decodeGroup b0 b1 b2 b3)) :
    LineSim s rc lp st bs (refOldStyle st.width.toNat fuel em sh (pixelOfPrev st.prev) bs) := by
  induction fuel generalizing s lp st bs em sh with
  | zero => exact lineSim_of_short h hlp (by omega) 0
  | succ fuel ih =>
    match bs with
    | [] | [_] | [_, _] | [_, _, _] => exact lineSim_of_short h hlp (by simp) _
    | b0 :: b1 :: b2 :: b3 :: rest =>
      have hlength : (b0 :: b1 :: b2 :: b3 :: rest).length = rest.length + 4 := rfl
      obtain ⟨hem, hleast⟩ := emittedPixels_of_counters hlp
      have hlt : em < st.width.toNat := hem ▸ h.ok.emittedPixels_lt
      obtain ⟨px, sh', hi, href⟩ := refOldStyle_group hlt fuel sh st.prev b0 b1 b2 b3 rest
      obtain ⟨-, hle, hmod, hsh⟩ := groupPixels_bounds h.ok.linePos h.ok.one_le_width hlp hi
      rw [LineSim, href, hem]
      rcases h.step_group (hdec b0 b1 b2 b3 rest rfl) hlp hi with ⟨hmore, hstep⟩ | ⟨hlast, hstep⟩
      · subst hem
        have hnext : Decoding (storedState s (st.skip 4) px) rc (.old (emittedPixels lp + px.length) sh') ((st.skip 4).emitted px) rest :=
          h.next_group hmore hmod hsh (by omega)
        have hipos := h.ok.toNat_ipos_emitted hle 4
        have hroom : (st.skip 4).ipos.toNat + 4 * px.length ≤ s.regs.dstLen.toNat := by
          have := h.ok.room
          rw [Staged.skip_ipos]
          omega
        rcases ih hnext rfl (by omega) (fun _ _ _ _ _ heq => heq ▸ rfl) with
          ⟨hnone, hrest⟩ | ⟨used, px', -, hused, hsome, hpx, hrest⟩
        · rw [failedInScanlines_stored (hasDestination_of_lineCommand h.ok.command) hroom] at hrest
          refine .inl ⟨?_, ((ReachesIn.of_step hstep).trans hrest).mono (by omega)⟩
          exact Option.map_eq_none_iff.mpr hnone
        · refine .inr ⟨4 + used, px ++ px', by omega, by omega, ?_, ?_, ?_⟩
          · rw [← List.drop_drop]
            exact Option.map_eq_some_iff.mpr ⟨_, hsome, rfl⟩
          · rw [List.length_append, ← Nat.add_assoc]
            exact hpx
          · have hdone : scanlineDone rc (((st.skip 4).emitted px).skip used) px' (storedState s (st.skip 4) px) =
                scanlineDone rc ((st.skip 4).skip used) (px ++ px') s :=
              scanlineDone_stored (st := (st.skip 4).skip used) hipos rc px'
            rw [hdone, Staged.skip_skip] at hrest
            exact (ReachesIn.of_step hstep).trans hrest |>.mono (by omega)
      · refine .inr ⟨4, px, hleast.le, by omega, ?_, hlast, (ReachesIn.of_step hstep).mono (by omega)⟩
        rw [refOldStyle_of_full hlast.ge]
        simp

end Sys2Proof.Machine
end

section
/-!
PROOFS. `SCAN` from its issue to its end (R170 to R188): a whole scanline in both decoders, the state it ends in, and the one end that a
command has; O30 and O31 assembled from them.
-/

namespace Sys2Proof.Machine

/-! ### A scanline (R173, R174) -/

theorem refScanline_of_short {bs : List Byte} (h : bs.length < 4) (w : Nat) (prev : Rgbe) :
    refScanline w prev bs = .error .inputUnderrun := by
  match bs with
  | [] | [_] | [_, _] | [_, _, _] => rfl
  | _ :: _ :: _ :: _ :: _ =>
    simp only [List.length_cons] at h
    omega

/-- The result of a decoder that fails with an underrun. -/
def orUnderrun : Option (List Rgbe × List Byte) → Except FailKind (List Rgbe × List Byte)
  | some x => .ok x
  | none => .error .inputUnderrun

theorem refScanline_of_signature {b0 b1 b2 : Byte} (h : isSignature b0 b1 b2 = true) (w : Nat) (prev : Rgbe) (b3 : Byte) (rest : List Byte) :
    refScanline w prev (b0 :: b1 :: b2 :: b3 :: rest) =
      if (width16 b2 b3).toNat = w then orUnderrun (refNewStyle w rest) else .error .scanlineWidthMismatch := by
  have hsig := (isSignature_iff b0 b1 b2).mp h
  obtain ⟨-, -, hb2⟩ := id hsig
  rw [toNat_width16 hb2, refScanline, if_pos hsig]
  cases refNewStyle w rest <;> rfl

theorem refScanline_of_not_signature {b0 b1 b2 : Byte} (h : isSignature b0 b1 b2 = false) (w : Nat) (prev : Rgbe) (b3 : Byte)
    (rest : List Byte) :
    refScanline w prev (b0 :: b1 :: b2 :: b3 :: rest) =
      orUnderrun (refOldStyle w (b0 :: b1 :: b2 :: b3 :: rest).length 0 0 prev (b0 :: b1 :: b2 :: b3 :: rest)) := by
  have hsig : ¬ (b0 = 2 ∧ b1 = 2 ∧ b2.toNat < 128) := by rw [← isSignature_iff, h]; exact Bool.false_ne_true
  rw [refScanline, if_neg hsig]
  cases refOldStyle w (b0 :: b1 :: b2 :: b3 :: rest).length 0 0 prev (b0 :: b1 :: b2 :: b3 :: rest) <;> rfl

/-- The two failures of a scanline (R315, R316). -/
def IsLineFailure (k : FailKind) : Prop := k = .scanlineWidthMismatch ∨ k = .inputUnderrun

/-- A whole scanline: the machine fails where the byte-level decoder does and with the same kind, or has stored the same pixels, with the same
bytes left. -/
theorem scanline_sim {s : State} {rc : Option Nat} {st : Staged} {bs : List Byte} (h : Decoding s rc .start st bs) :
    (∃ e, refScanline st.width.toNat (pixelOfPrev st.prev) bs = .error e ∧ IsLineFailure e ∧
      ReachesIn (bs.length + 1) (lineState s rc .start st) (failedInScanlines s e)) ∨
    ∃ used px, 4 ≤ used ∧ used ≤ bs.length ∧ refScanline st.width.toNat (pixelOfPrev st.prev) bs = .ok (px, bs.drop used) ∧
      px.length = st.width.toNat ∧ ReachesIn used (lineState s rc .start st) (scanlineDone rc (st.skip used) px s) := by
  rcases Nat.lt_or_ge bs.length 4 with hshort | hlong
  · have hstep := h.step_of_error (decodeToken_of_short hshort)
    exact .inl ⟨_, refScanline_of_short hshort _ _, .inr rfl, (ReachesIn.of_step hstep).mono (Nat.le_add_left _ _)⟩
  obtain ⟨b0, b1, b2, b3, rest, rfl⟩ : ∃ b0 b1 b2 b3 rest, bs = b0 :: b1 :: b2 :: b3 :: rest := by
    match bs with
    | [] | [_] | [_, _] | [_, _, _] => simp at hlong
    | b0 :: b1 :: b2 :: b3 :: rest => exact ⟨b0, b1, b2, b3, rest, rfl⟩
  cases hsig : isSignature b0 b1 b2 with
  | true =>
    have hdec : decodeToken (Phase.line rc .start).place (b0 :: b1 :: b2 :: b3 :: rest) = .ok (.nsSig (width16 b2 b3)) :=
      decodeToken_lineStart_of_signature hsig b3 rest
    have hexec := exec_nsSig_at_start (s := lineState s rc .start st) (width16 b2 b3) rfl
    rw [refScanline_of_signature hsig]
    by_cases hwidth : (width16 b2 b3).toNat = st.width.toNat
    · rw [if_pos hwidth] at hexec
      have hstep : step (lineState s rc .start st) = .next (lineState s rc (.plane .r Planes.empty) (st.skip 4)) :=
        (h.step_of_ok hdec).trans hexec
      have hn : 4 ≤ s.regs.srcLen.toNat - st.pos.toNat := h.length ▸ hlong
      have hnext : Decoding s rc (.plane .r Planes.empty) (st.skip 4) rest :=
        ⟨h.inputs, h.ok.skip_plane hn (planesOk_empty h.ok.one_le_width) rfl, h.bytes_skip hlong⟩
      have hlength : (b0 :: b1 :: b2 :: b3 :: rest).length = rest.length + 4 := rfl
      rw [if_pos hwidth]
      rcases newStyle_sim hnext with ⟨hnone, hreach⟩ | ⟨used, px, -, hused, hsome, hpx, hreach⟩
      · rw [Staged.skip_width] at hnone
        exact .inl ⟨.inputUnderrun, by rw [hnone]; rfl, .inr rfl, ((ReachesIn.of_step hstep).trans hreach).mono (by omega)⟩
      · rw [Staged.skip_skip] at hreach
        rw [Staged.skip_width] at hsome
        refine .inr ⟨4 + used, px, by omega, by omega, ?_, (Nat.zero_add _).symm.trans hpx,
          ((ReachesIn.of_step hstep).trans hreach).mono (by omega)⟩
        rw [hsome, ← List.drop_drop]
        rfl
    · rw [if_neg hwidth, State.raise_of_inLine rfl, failedInScanlines_lineState] at hexec
      rw [if_neg hwidth]
      have hstep := (h.step_of_ok hdec).trans hexec
      exact .inl ⟨_, rfl, .inl rfl, (ReachesIn.of_step hstep).mono (Nat.le_add_left _ _)⟩
  | false =>
    have hsim := oldStyle_sim (b0 :: b1 :: b2 :: b3 :: rest).length h rfl le_rfl fun c0 c1 c2 c3 rest' heq => by
      cases heq
      exact decodeToken_lineStart_of_not_signature hsig b3 rest
    rw [refScanline_of_not_signature hsig]
    rcases hsim with ⟨hnone, hreach⟩ | ⟨used, px, hfour, hused, hsome, hpx, hreach⟩
    · exact .inl ⟨.inputUnderrun, by rw [hnone]; rfl, .inr rfl, hreach⟩
    · exact .inr ⟨used, px, hfour, hused, by rw [hsome]; rfl, (Nat.zero_add _).symm.trans hpx, hreach⟩

/-! ### `SCAN` (R171, R188) -/

/-- A freshly issued `SCAN` whose checks pass, at the start of its scanline. -/
theorem Issued.decoding_scan {s : State} (hs : Issued s) (hcmd : s.regs.cmd = 2) (hpass : scanFailure s.regs = none) :
    Decoding s none .start (Staged.ofRegs s.regs) (streamFrom s s.regs.pos.toNat) := by
  obtain ⟨hregions, ⟨hlo, hhi⟩, hpos, hroom⟩ := (scanFailure_eq_none_iff s.regs).mp hpass
  have hcommand : phaseCommandOk s.regs.cmd (.line none .start) = true := decide_eq_true hcmd
  have hcapacity : s.regs.ipos.toNat + 4 * (linesLeft none * s.regs.width.toNat - emittedPixels .start) ≤ s.regs.dstLen.toNat := by
    simpa [linesLeft, emittedPixels] using hroom
  exact ⟨hs.2, ⟨hcommand, rfl, hregions, hlo, hhi, hpos, hcapacity, rfl⟩, rfl⟩

theorem Issued.exec_scan_of_passed {s : State} (hs : Issued s) (hpass : scanFailure s.regs = none) :
    exec .scan s = .next (lineState s none .start (Staged.ofRegs s.regs)) := by
  rw [hs.exec_scan_eq, hpass]
  rfl

/-- What `SCAN` commits, in the terms of the bytes it has left (R188). -/
theorem scanlineDone_eq_scannedState {s : State} {bs : List Byte} {used : Nat} (hbs : bs.length = s.regs.srcLen.toNat - s.regs.pos.toNat)
    (hpos : s.regs.pos.toNat ≤ s.regs.srcLen.toNat) (hused : used ≤ bs.length) (px : List Rgbe) :
    scanlineDone none ((Staged.ofRegs s.regs).skip used) px s = scannedState s px (bs.drop used) := by
  have hleft : s.regs.pos.toNat + used = s.regs.srcLen.toNat - (bs.drop used).length := by
    rw [List.length_drop]
    omega
  rw [scannedState, ← hleft]
  rfl

/-- The scanline of a `SCAN` whose checks pass: both decoders agree, in at most one step more than bytes. -/
theorem Issued.scan_sim {s : State} (hs : Issued s) (hcmd : s.regs.cmd = 2) (hpass : scanFailure s.regs = none) :
    (∃ e, refScanline s.regs.width.toNat (pixelOfPrev s.regs.prev) (streamFrom s s.regs.pos.toNat) = .error e ∧ IsLineFailure e ∧
      ReachesIn (s.regs.srcLen.toNat - s.regs.pos.toNat + 1) (lineState s none .start (Staged.ofRegs s.regs)) (failedInScanlines s e)) ∨
    ∃ used px, 4 ≤ used ∧ used ≤ s.regs.srcLen.toNat - s.regs.pos.toNat ∧
      refScanline s.regs.width.toNat (pixelOfPrev s.regs.prev) (streamFrom s s.regs.pos.toNat) =
        .ok (px, (streamFrom s s.regs.pos.toNat).drop used) ∧
      px.length = s.regs.width.toNat ∧
      ReachesIn (s.regs.srcLen.toNat - s.regs.pos.toNat + 1) (lineState s none .start (Staged.ofRegs s.regs))
        (scannedState s px ((streamFrom s s.regs.pos.toNat).drop used)) := by
  obtain ⟨-, -, hpos, -⟩ := (scanFailure_eq_none_iff s.regs).mp hpass
  have hlength := streamFrom_length s s.regs.pos.toNat
  rcases scanline_sim (hs.decoding_scan hcmd hpass) with ⟨e, href, he, hreach⟩ | ⟨used, px, hfour, hused, href, hpx, hreach⟩
  · rw [hlength] at hreach
    exact .inl ⟨e, href, he, hreach⟩
  · rw [scanlineDone_eq_scannedState hlength hpos hused] at hreach
    exact .inr ⟨used, px, hfour, hlength ▸ hused, href, hpx, hreach.mono (by omega)⟩

/-- Settles O30: the issue, then the scanline in both decoders. -/
theorem scanCompletes : Obligations.ScanCompletes := by
  intro s hs hcmd hregions hlo hhi hpos hroom
  have hpass := (scanFailure_eq_none_iff s.regs).mpr ⟨hregions, ⟨hlo, hhi⟩, hpos, hroom⟩
  rcases hs.scan_sim hcmd hpass with ⟨e, href, -, k, hk, hsteps⟩ | ⟨used, px, -, -, href, -, k, hk, hsteps⟩
  · exact ⟨_, k, hs.exec_scan_of_passed hpass, hk, by rw [href]; exact hsteps⟩
  · exact ⟨_, k, hs.exec_scan_of_passed hpass, hk, by rw [href]; exact hsteps⟩

/-! ### The one end of a command -/

/-- A step with no host move pending leaves none pending. -/
theorem inputs_of_step {s t : State} (hinputs : s.inputs = []) (h : step s = .next t) : t.inputs = [] :=
  (engineStep_keepsOperands (step_engine s hinputs ▸ h)).inputs.trans hinputs

/-- The machine is deterministic, and an idle one at rest: two idle states that a state leads to are one. -/
theorem idle_end_unique {j k : Nat} {s t u : State} (hinputs : s.inputs = []) (ht : t.run = none) (hu : u.run = none)
    (hst : leadsTo j s t) (hsu : leadsTo k s u) : t = u := by
  induction j generalizing s k with
  | zero =>
    obtain rfl := eq_of_leadsTo_zero hst
    exact (eq_of_leadsTo_of_idle ht hinputs hsu).symm
  | succ j ih =>
    cases k with
    | zero =>
      obtain rfl := eq_of_leadsTo_zero hsu
      exact eq_of_leadsTo_of_idle hu hinputs hst
    | succ k =>
      obtain ⟨v, hstep, hvt⟩ := exists_step_of_leadsTo_succ hst
      obtain ⟨v', hstep', hvu⟩ := exists_step_of_leadsTo_succ hsu
      obtain rfl := next_inj hstep hstep'
      exact ih (inputs_of_step hinputs hstep) hvt hvu

/-- A command that the host issues ends where its issued state leads to. -/
theorem Ends.eq_of_reaches {s t u : State} {c : Word} {n : Nat} (h : Ends s c t) (hu : u.run = none) (hreach : ReachesIn n (s.issue c) u) :
    t = u := by
  obtain ⟨-, hinputs, ht, k, hsteps⟩ := h
  obtain ⟨j, -, hsteps'⟩ := hreach
  exact idle_end_unique (s := s.issue c) hinputs ht hu hsteps hsteps'

theorem Ends.issued {s t : State} {c : Word} (h : Ends s c t) : Issued (s.issue c) := issued_issue c h.2.1

theorem decodeCommand_scan {w : Word} (h : w = 2) : decodeCommand w = .ok .scan := by
  subst h
  rfl

theorem failKind_number_ne_zero (k : FailKind) : BitVec.ofNat 32 k.code ≠ 0 := by
  cases k <;> decide

theorem failedState_errcode_ne_zero (s : State) (k : FailKind) : (failedState s k).regs.errcode ≠ 0 :=
  failKind_number_ne_zero k

theorem failedInScanlines_errcode_ne_zero (s : State) (k : FailKind) : (failedInScanlines s k).regs.errcode ≠ 0 :=
  failedState_errcode_ne_zero _ k

/-- The ends of `SCAN`: a check fails at its issue, its scanline fails, or the scanline is decoded (R171, R188). -/
theorem Ends.scan_cases {s t : State} (h : Ends s 2 t) :
    (∃ k, scanFailure (s.issue 2).regs = some k ∧ t = failedState (s.issue 2) k) ∨
    (∃ k, IsLineFailure k ∧ t = failedInScanlines (s.issue 2) k) ∨
    ∃ used px, scanFailure (s.issue 2).regs = none ∧ 4 ≤ used ∧ used ≤ s.regs.srcLen.toNat - s.regs.pos.toNat ∧
      refScanline s.regs.width.toNat (pixelOfPrev s.regs.prev) (streamFrom (s.issue 2) s.regs.pos.toNat) =
        .ok (px, (streamFrom (s.issue 2) s.regs.pos.toNat).drop used) ∧
      px.length = s.regs.width.toNat ∧
      t = scannedState (s.issue 2) px ((streamFrom (s.issue 2) s.regs.pos.toNat).drop used) := by
  have hissued := h.issued
  have hstep := hissued.step_eq_exec (decodeCommand_scan rfl)
  cases hfail : scanFailure (s.issue 2).regs with
  | some k =>
    have hend : step (s.issue 2) = .next (failedState (s.issue 2) k) := by rw [hstep, hissued.exec_scan_eq, hfail]; rfl
    exact .inl ⟨k, rfl, h.eq_of_reaches rfl (ReachesIn.of_step hend)⟩
  | none =>
    have hstart := ReachesIn.of_step (hstep.trans (hissued.exec_scan_of_passed hfail))
    rcases hissued.scan_sim rfl hfail with ⟨e, -, he, hreach⟩ | ⟨used, px, hfour, hused, href, hpx, hreach⟩
    · exact .inr (.inl ⟨e, he, h.eq_of_reaches rfl (hstart.trans hreach)⟩)
    · exact .inr (.inr ⟨used, px, rfl, hfour, hused, href, hpx, h.eq_of_reaches rfl (hstart.trans hreach)⟩)

/-! ### The last pixel stored (R35) -/

/-- The word at the last pixel of a row of pixels is what `PREV` holds after it. -/
theorem readWord_last_pixel (m : Memory) (a : Nat) {px : List Rgbe} (hpx : px ≠ []) (prev : Word) :
    (px.getLast?.map prevOfPixel).getD prev = (m.writeBytes a (pixelBytes px)).readWord (a + 4 * px.length - 4) := by
  obtain ⟨qx, p, rfl⟩ := (List.eq_nil_or_concat' px).resolve_left hpx
  have haddr : a + 4 * (qx ++ [p]).length - 4 = a + 4 * qx.length := by
    rw [List.length_append, List.length_singleton]
    omega
  have hbytes : ((m.writeBytes a (pixelBytes (qx ++ [p]))).readBytes (a + 4 * qx.length) 4) = p.bytes := by
    rw [pixelBytes_append, Memory.writeBytes_append, pixelBytes_length]
    have hlast := Memory.readBytes_writeBytes (m.writeBytes a (pixelBytes qx)) (a + 4 * qx.length) p.bytes
    rw [Rgbe.bytes_length] at hlast
    simpa [pixelBytes] using hlast
  have hpixel : prevOfPixel ((m.writeBytes a (pixelBytes (qx ++ [p]))).rgbeAt (a + 4 * qx.length)) = prevOfPixel p :=
    congrArg prevOfPixel (Memory.rgbeAt_of_readBytes hbytes)
  rw [haddr, List.getLast?_concat, Option.map_some, Option.getD_some, ← hpixel]
  rfl

/-- Settles O31: the registers of `scannedState`, whose pixels are the whole scanline. -/
theorem scanAdvances : Obligations.ScanAdvances := by
  intro s t h herr
  rcases h.scan_cases with ⟨k, -, rfl⟩ | ⟨k, -, rfl⟩ | ⟨used, px, hpass, hfour, hused, -, hpx, rfl⟩
  · exact absurd herr (failedState_errcode_ne_zero _ k)
  · exact absurd herr (failedInScanlines_errcode_ne_zero _ k)
  obtain ⟨-, ⟨hlo, -⟩, hpos, -⟩ := (scanFailure_eq_none_iff _).mp hpass
  have hpos : s.regs.pos.toNat ≤ s.regs.srcLen.toNat := hpos
  have hlo : 1 ≤ s.regs.width.toNat := hlo
  have hne : px ≠ [] := by
    rintro rfl
    rw [← hpx] at hlo
    exact absurd hlo (by simp)
  have hlast := readWord_last_pixel s.mem (s.regs.dstAddr.toNat + s.regs.ipos.toNat) hne s.regs.prev
  have hcursor : (scannedState (s.issue 2) px ((streamFrom (s.issue 2) s.regs.pos.toNat).drop used)).regs.pos.toNat =
      s.regs.pos.toNat + used := by
    have hlt := s.regs.srcLen.isLt
    have hlength : ((streamFrom (s.issue 2) s.regs.pos.toNat).drop used).length = s.regs.srcLen.toNat - s.regs.pos.toNat - used := by
      rw [List.length_drop, streamFrom_length]
      rfl
    have htoNat : (scannedState (s.issue 2) px ((streamFrom (s.issue 2) s.regs.pos.toNat).drop used)).regs.pos.toNat =
        (s.regs.srcLen.toNat - ((streamFrom (s.issue 2) s.regs.pos.toNat).drop used).length) % 2 ^ 32 := BitVec.toNat_ofNat ..
    rw [htoNat, hlength]
    omega
  refine ⟨?_, by omega, by omega, fun a ha => ?_⟩
  · have hprev : (scannedState (s.issue 2) px ((streamFrom (s.issue 2) s.regs.pos.toNat).drop used)).mem.readWord
        (s.regs.dstAddr.toNat + s.regs.ipos.toNat + 4 * px.length - 4) = (px.getLast?.map prevOfPixel).getD s.regs.prev := hlast.symm
    rw [← hpx, hprev]
    rfl
  · exact Memory.read_writeBytes_outside s.mem _ _ (by rwa [pixelBytes_length, hpx])

end Sys2Proof.Machine
end

section
/-!
PROOFS. `DHDR` from its issue to its end (R290 to R297): the scanlines of an image one after another, the ends of the command; O32 and O33
assembled from them.
-/

namespace Sys2Proof.Machine

/-! ### The scanlines of an image (R293) -/

theorem refScanlines_succ_of_error {w : Nat} {prev : Rgbe} {bs : List Byte} {k : FailKind} (h : refScanline w prev bs = .error k) (n : Nat) :
    refScanlines w (n + 1) prev bs = .error k := by
  rw [refScanlines, h]

theorem refScanlines_succ_of_ok {w : Nat} {prev : Rgbe} {bs rest : List Byte} {px : List Rgbe} (h : refScanline w prev bs = .ok (px, rest))
    (n : Nat) :
    refScanlines w (n + 1) prev bs = (refScanlines w n (px.getLast?.getD prev) rest).map fun x => (px ++ x.1, x.2) := by
  rw [refScanlines, h]
  dsimp only
  cases refScanlines w n (px.getLast?.getD prev) rest <;> rfl

theorem refScanlines_succ_of_rest_ok {w n : Nat} {prev : Rgbe} {bs bs' rest : List Byte} {px px' : List Rgbe}
    (h : refScanline w prev bs = .ok (px, bs')) (hrest : refScanlines w n (px.getLast?.getD prev) bs' = .ok (px', rest)) :
    refScanlines w (n + 1) prev bs = .ok (px ++ px', rest) := by
  rw [refScanlines_succ_of_ok h, hrest]
  rfl

theorem refScanlines_succ_of_rest_error {w n : Nat} {prev : Rgbe} {bs bs' : List Byte} {px : List Rgbe} {k : FailKind}
    (h : refScanline w prev bs = .ok (px, bs')) (hrest : refScanlines w n (px.getLast?.getD prev) bs' = .error k) :
    refScanlines w (n + 1) prev bs = .error k := by
  rw [refScanlines_succ_of_ok h, hrest]
  rfl

/-- The staged values after `n` scanlines with the pixels `px`. -/
def Staged.linesOn (st : Staged) (px : List Rgbe) (n : Nat) : Staged := { st.emitted px with row := st.row + BitVec.ofNat 32 n }

/-- The state after the last of `n` scanlines, which hold the pixels `px` (R290, R296). -/
def imageDone (s : State) (st : Staged) (px : List Rgbe) (n : Nat) : State :=
  { storedState s st px with regs := (s.regs.commit (st.linesOn px n)).withOutcome 0, run := none }

theorem scanlineDone_some_add_two (s : State) (st : Staged) (px : List Rgbe) (n : Nat) :
    scanlineDone (some (n + 2)) st px s = lineState (storedState s st px) (some (n + 1)) .start (st.linesOn px 1) := rfl

theorem Staged.linesOn_linesOn (st : Staged) (px px' : List Rgbe) (n used : Nat) :
    ((st.linesOn px 1).skip used).linesOn px' n = (st.skip used).linesOn (px ++ px') (n + 1) := by
  have hrow : st.row + BitVec.ofNat 32 1 + BitVec.ofNat 32 n = st.row + BitVec.ofNat 32 (n + 1) := by
    rw [BitVec.add_assoc, ← BitVec.ofNat_add, Nat.add_comm 1]
  have hemitted := (st.skip used).emitted_emitted px px'
  calc ((st.linesOn px 1).skip used).linesOn px' n
      = { ((st.skip used).emitted px).emitted px' with row := st.row + BitVec.ofNat 32 1 + BitVec.ofNat 32 n } := rfl
    _ = (st.skip used).linesOn (px ++ px') (n + 1) := by rw [hemitted, hrow]; rfl

/-- An image that was stored in two parts. -/
theorem imageDone_stored {s : State} {st : Staged} {px : List Rgbe} (hipos : (st.emitted px).ipos.toNat = st.ipos.toNat + 4 * px.length)
    (px' : List Rgbe) (n used : Nat) :
    imageDone (storedState s st px) ((st.linesOn px 1).skip used) px' n = imageDone s (st.skip used) (px ++ px') (n + 1) := by
  have hmem : (storedState s st px).mem.writeBytes (s.regs.dstAddr.toNat + (st.emitted px).ipos.toNat) (pixelBytes px') =
      s.mem.writeBytes (s.regs.dstAddr.toNat + st.ipos.toNat) (pixelBytes (px ++ px')) := by
    rw [pixelBytes_append, Memory.writeBytes_append, hipos, pixelBytes_length, ← Nat.add_assoc]
    rfl
  have hstored : storedState (storedState s st px) ((st.linesOn px 1).skip used) px' = storedState s (st.skip used) (px ++ px') :=
    congrArg (fun m => { s with mem := m }) hmem
  rw [imageDone, imageDone, Staged.linesOn_linesOn, hstored]
  rfl

/-- Behind a scanline with more to come the decoding goes on. -/
theorem Decoding.next_line {s : State} {n : Nat} {st : Staged} {bs : List Byte} (h : Decoding s (some (n + 2)) .start st bs) {used : Nat}
    (hused : used ≤ bs.length) {px : List Rgbe} (hpx : px.length = st.width.toNat) :
    Decoding (storedState s (st.skip used) px) (some (n + 1)) .start ((st.skip used).linesOn px 1) (bs.drop used) := by
  have hn : used ≤ s.regs.srcLen.toNat - st.pos.toNat := h.length ▸ hused
  have hlast : emittedPixels .start + px.length = st.width.toNat := (Nat.zero_add _).trans hpx
  have hroom := h.ok.room
  refine ⟨h.inputs, h.ok.skip_lineEnd hn hlast _, ?_⟩
  rw [← h.bytes_skip hused]
  refine streamFrom_written (t := storedState s (st.skip used) px) (s := s) (bs := pixelBytes px) rfl rfl h.ok.regions
    (Nat.le_add_right _ _) ?_ ?_
  · rw [pixelBytes_length, Staged.skip_ipos, hpx]
    rw [emittedPixels_start] at hroom
    omega
  · have hpos : ((st.skip used).linesOn px 1).pos.toNat = st.pos.toNat + used := h.ok.toNat_pos_skip hn
    have hle := h.ok.pos_le
    omega

/-- The scanlines of an image: the machine fails where the byte-level decoder does and with the same kind, or has stored the same pixels. -/
theorem lines_sim (n : Nat) {s : State} {st : Staged} {bs : List Byte} (h : Decoding s (some (n + 1)) .start st bs) :
    (∃ e, refScanlines st.width.toNat (n + 1) (pixelOfPrev st.prev) bs = .error e ∧ IsLineFailure e ∧
      ReachesIn (bs.length + 1) (lineState s (some (n + 1)) .start st) (failedInScanlines s e)) ∨
    ∃ used px, 4 * (n + 1) ≤ used ∧ used ≤ bs.length ∧
      refScanlines st.width.toNat (n + 1) (pixelOfPrev st.prev) bs = .ok (px, bs.drop used) ∧
      px.length = (n + 1) * st.width.toNat ∧ ReachesIn used (lineState s (some (n + 1)) .start st) (imageDone s (st.skip used) px (n + 1)) := by
  induction n generalizing s st bs with
  | zero =>
    rcases scanline_sim h with ⟨e, href, he, hreach⟩ | ⟨used, px, hfour, hused, href, hpx, hreach⟩
    · exact .inl ⟨e, refScanlines_succ_of_error href 0, he, hreach⟩
    · refine .inr ⟨used, px, by omega, hused, ?_, by omega, hreach⟩
      rw [refScanlines_succ_of_rest_ok href rfl, List.append_nil]
  | succ n ih =>
    rcases scanline_sim h with ⟨e, href, he, hreach⟩ | ⟨used, px, hfour, hused, href, hpx, hreach⟩
    · exact .inl ⟨e, refScanlines_succ_of_error href _, he, hreach⟩
    have hlength : (bs.drop used).length = bs.length - used := List.length_drop
    have hle : emittedPixels .start + px.length ≤ st.width.toNat := ((Nat.zero_add _).trans hpx).le
    have hprev : pixelOfPrev ((st.skip used).linesOn px 1).prev = px.getLast?.getD (pixelOfPrev st.prev) := pixelOfPrev_getD px st.prev
    have hwidth : ((st.skip used).linesOn px 1).width = st.width := rfl
    have hipos := h.ok.toNat_ipos_emitted hle used
    have hroom : (st.skip used).ipos.toNat + 4 * px.length ≤ s.regs.dstLen.toNat := by
      have := h.ok.room
      rw [emittedPixels_start] at this
      rw [Staged.skip_ipos]
      omega
    rw [scanlineDone_some_add_two] at hreach
    have hrest := ih (h.next_line hused hpx)
    rw [hprev, hwidth] at hrest
    rcases hrest with ⟨e, href', he, hreach'⟩ | ⟨used', px', hfour', hused', href', hpx', hreach'⟩
    · rw [failedInScanlines_stored (hasDestination_of_lineCommand h.ok.command) hroom] at hreach'
      exact .inl ⟨e, refScanlines_succ_of_rest_error href href', he, (hreach.trans hreach').mono (by omega)⟩
    · rw [imageDone_stored hipos, Staged.skip_skip] at hreach'
      rw [List.drop_drop] at href'
      refine .inr ⟨used + used', px ++ px', by omega, by omega, refScanlines_succ_of_rest_ok href href', ?_, hreach.trans hreach'⟩
      rw [List.length_append, hpx, hpx']
      ring

/-! ### The ends of `DHDR` (R290 to R297) -/

/-- The states that `DHDR` can end in once its regions are in order: its header fails, the image does not fit, a scanline fails, or the image
is decoded. -/
inductive DhdrEnd (s : State) : State → Prop
  | header (k : FailKind) (href : refHeader (streamFrom s 0) = .error k) : DhdrEnd s (failedState s k)
  | tooSmall (n h w : Nat) (href : refHeader (streamFrom s 0) = .ok (n, h, w)) (hsmall : s.regs.dstLen.toNat < 4 * w * h) :
    DhdrEnd s (failedState s .outputTooSmall)
  | scanline (n h w : Nat) (href : refHeader (streamFrom s 0) = .ok (n, h, w)) (hfits : 4 * w * h ≤ s.regs.dstLen.toNat) (k : FailKind)
      (hk : IsLineFailure k) (hlines : refScanlines w h { r := 0, g := 0, b := 0, e := 0 } ((streamFrom s 0).drop n) = .error k) :
    DhdrEnd s (failedInScanlines s k)
  | decoded (n h w : Nat) (href : refHeader (streamFrom s 0) = .ok (n, h, w)) (hfits : 4 * w * h ≤ s.regs.dstLen.toNat)
      (used : Nat) (px : List Rgbe) (hlo : 4 * h ≤ used) (hhi : n + used ≤ s.regs.srcLen.toNat)
      (hlines : refScanlines w h { r := 0, g := 0, b := 0, e := 0 } ((streamFrom s 0).drop n) = .ok (px, (streamFrom s 0).drop (n + used)))
      (hpx : px.length = h * w) :
    DhdrEnd s (decodedState s n h w px ((streamFrom s 0).drop (n + used)))

/-- What a header that passes says: where it ends, and its dimensions (R142, R151). -/
theorem refHeader_ok {bs : List Byte} {n h w : Nat} (href : refHeader bs = .ok (n, h, w)) :
    (4 ≤ n ∧ n ≤ bs.length) ∧ (1 ≤ h ∧ h ≤ Config.dimMax) ∧ 1 ≤ w ∧ w ≤ Config.dimMax := by
  rw [refHeader] at href
  split at href
  case h_1 => cases href
  case h_2 t hlength =>
    split at href
    case isFalse => cases href
    case isTrue =>
      split at href
      case h_2 => cases href
      case h_1 hdims =>
        cases href
        obtain ⟨hh, hw⟩ := headerDims_bounds hdims
        exact ⟨⟨four_le_of_headerLength hlength, headerLength_le hlength⟩, hh, hw⟩

/-- The header token of `DHDR` begins the image where it fits. -/
theorem exec_hdr_image {s : State} {text : List Byte} {h w : Nat} (hparse : parseHeader .s0 text = .ok (h, w))
    (hfits : 4 * w * h ≤ s.regs.dstLen.toNat) :
    exec (.hdr text) (s.headerDue true) =
      .next (lineState s (some h) .start (stageHeader (Staged.atHeader s.regs) text.length h w)) := by
  rw [exec_hdr_of_run (s := s.headerDue true) text rfl, hparse]
  exact congrArg Host.Outcome.next (if_pos hfits)

theorem exec_hdr_image_too_small {s : State} {text : List Byte} {h w : Nat} (hparse : parseHeader .s0 text = .ok (h, w))
    (hsmall : s.regs.dstLen.toNat < 4 * w * h) :
    exec (.hdr text) (s.headerDue true) = .next (failedState s .outputTooSmall) := by
  rw [exec_hdr_of_run (s := s.headerDue true) text rfl, hparse]
  refine congrArg Host.Outcome.next ((if_neg (Nat.not_le.mpr hsmall)).trans ?_)
  exact State.raise_of_header (s := s.headerDue true) rfl _

/-- What `DHDR` commits, in the terms of the bytes it has left (R296). -/
theorem imageDone_eq_decodedState {s : State} {n h w used : Nat} {px : List Rgbe} (hhi : n + used ≤ s.regs.srcLen.toNat)
    (hpx : px.length = h * w) :
    imageDone s ((stageHeader (Staged.atHeader s.regs) n h w).skip used) px h =
      decodedState s n h w px ((streamFrom s 0).drop (n + used)) := by
  have hlt := s.regs.srcLen.isLt
  have hleft : s.regs.srcLen.toNat - ((streamFrom s 0).drop (n + used)).length = (BitVec.ofNat 32 n : Word).toNat + used := by
    rw [List.length_drop, streamFrom_length, BitVec.toNat_ofNat]
    omega
  have hcount : 0 + 4 * px.length = 4 * w * h := by
    rw [hpx]
    ring
  have hrow : ((stageHeader (Staged.atHeader s.regs) n h w).skip used).row + BitVec.ofNat 32 h = BitVec.ofNat 32 h := BitVec.zero_add _
  rw [decodedState, hleft, ← hcount, imageDone, Staged.linesOn, hrow]
  rfl

theorem pixelOfPrev_zero : pixelOfPrev 0 = { r := 0, g := 0, b := 0, e := 0 } := by decide

/-- `DHDR` behind its issue: it comes to one of its ends, in at most one step more than source bytes. -/
theorem Issued.dhdr_sim {s : State} (hs : Issued s) (hcmd : s.regs.cmd = 3) (hregions : s.regs.regionsOk = true) :
    ∃ t, DhdrEnd s t ∧ ReachesIn (s.regs.srcLen.toNat + 1) (s.headerDue true) t := by
  have hfits := srcFits_of_regionsOk hregions
  have hlength : (streamFrom s 0).length = s.regs.srcLen.toNat := streamFrom_length s 0
  have hstep : step (s.headerDue true) = exec (.hdr (headerText (streamFrom s 0))) (s.headerDue true) :=
    step_header (s := s.headerDue true) rfl hs.2 hfits
  rcases parseHeader_headerText (streamFrom s 0) with ⟨k, href, hparse⟩ | ⟨n, h, w, href, hparse, htext⟩
  · rw [exec_hdr_headerDue_of_error hparse] at hstep
    exact ⟨_, .header k href, (ReachesIn.of_step hstep).mono (Nat.le_add_left _ _)⟩
  rcases Nat.lt_or_ge s.regs.dstLen.toNat (4 * w * h) with hsmall | hroom
  · rw [exec_hdr_image_too_small hparse hsmall] at hstep
    exact ⟨_, .tooSmall n h w href hsmall, (ReachesIn.of_step hstep).mono (Nat.le_add_left _ _)⟩
  obtain ⟨⟨hn, hn'⟩, ⟨hh, -⟩, hw⟩ := refHeader_ok href
  rw [hlength] at hn'
  obtain ⟨m, rfl⟩ : ∃ m, h = m + 1 := ⟨h - 1, by omega⟩
  rw [exec_hdr_image hparse hroom, htext] at hstep
  have hmax : Config.dimMax = 65535 := rfl
  have hlt := s.regs.srcLen.isLt
  have hwidth : (stageHeader (Staged.atHeader s.regs) n (m + 1) w).width.toNat = w := by
    rw [stageHeader_width, BitVec.toNat_ofNat]
    omega
  have hpos : (stageHeader (Staged.atHeader s.regs) n (m + 1) w).pos.toNat = 0 + n := by
    rw [stageHeader_pos, BitVec.toNat_ofNat]
    omega
  have hheader : HeaderOk s.regs true .s0 (Staged.atHeader s.regs) := ⟨hcmd, rfl, rfl, hfits, fun _ => hregions⟩
  have hdecoding : Decoding s (some (m + 1)) .start (stageHeader (Staged.atHeader s.regs) n (m + 1) w) ((streamFrom s 0).drop n) :=
    ⟨hs.2, lineOk_stageHeader hheader hn' hh hw hroom, by rw [hpos, streamFrom_add]⟩
  have hleft : ((streamFrom s 0).drop n).length = s.regs.srcLen.toNat - n := by rw [List.length_drop, hlength]
  have hsim := lines_sim m hdecoding
  have hprev : pixelOfPrev (stageHeader (Staged.atHeader s.regs) n (m + 1) w).prev = { r := 0, g := 0, b := 0, e := 0 } := pixelOfPrev_zero
  rw [hwidth, hprev] at hsim
  rcases hsim with ⟨e, hlines, he, hreach⟩ | ⟨used, px, hlo, hused, hlines, hpx, hreach⟩
  · exact ⟨_, .scanline n _ w href hroom e he hlines, ((ReachesIn.of_step hstep).trans hreach).mono (by omega)⟩
  · have hhi : n + used ≤ s.regs.srcLen.toNat := by omega
    rw [imageDone_eq_decodedState hhi hpx] at hreach
    rw [List.drop_drop] at hlines
    exact ⟨_, .decoded n _ w href hroom used px hlo hhi hlines hpx, ((ReachesIn.of_step hstep).trans hreach).mono (by omega)⟩

theorem Issued.exec_dhdr_of_regionsOk {s : State} (hs : Issued s) (hregions : s.regs.regionsOk = true) :
    exec .dhdr s = .next (s.headerDue true) := by
  rw [hs.exec_dhdr_eq, if_pos hregions]
  rfl

/-- Settles O32: the issue, then one of the ends of `DHDR`. -/
theorem dhdrCompletes : Obligations.DhdrCompletes := by
  intro s hs hcmd hregions
  obtain ⟨t, hend, k, hk, hsteps⟩ := hs.dhdr_sim hcmd hregions
  refine ⟨s.headerDue true, k, hs.exec_dhdr_of_regionsOk hregions, rfl, hk, ?_⟩
  cases hend with
  | header e href => rwa [href]
  | tooSmall n h w href hsmall =>
    rw [href]
    dsimp only
    rwa [if_pos hsmall]
  | scanline n h w href hfits e he hlines =>
    rw [href]
    dsimp only
    rwa [if_neg (Nat.not_lt.mpr hfits), hlines]
  | decoded n h w href hfits used px hlo hhi hlines hpx =>
    rw [href]
    dsimp only
    rwa [if_neg (Nat.not_lt.mpr hfits), hlines]

/-- The ends of a `DHDR` that the host issues: its regions are not in order, or one of `DhdrEnd`. -/
theorem Ends.dhdr_cases {s t : State} (h : Ends s 3 t) :
    t = failedState (s.issue 3) .badOperand ∨ (s.regs.regionsOk = true ∧ DhdrEnd (s.issue 3) t) := by
  have hissued := h.issued
  have hstep : step (s.issue 3) = exec .dhdr (s.issue 3) := hissued.step_eq_exec rfl
  cases hregions : (s.issue 3).regs.regionsOk with
  | false =>
    have hfail : exec .dhdr (s.issue 3) = .next (failedState (s.issue 3) .badOperand) := by
      rw [hissued.exec_dhdr_eq, if_neg (Bool.eq_false_iff.mp hregions)]
    exact .inl (h.eq_of_reaches rfl (ReachesIn.of_step (hstep.trans hfail)))
  | true =>
    obtain ⟨u, hend, hreach⟩ := hissued.dhdr_sim rfl hregions
    have hidle : u.run = none := by cases hend <;> rfl
    have hstart := ReachesIn.of_step (hstep.trans (hissued.exec_dhdr_of_regionsOk hregions))
    obtain rfl := h.eq_of_reaches hidle (hstart.trans hreach)
    exact .inr ⟨hregions, hend⟩

/-- The cursor after an image, behind the header and the tokens of its scanlines. -/
theorem decodedState_pos {s : State} {n h w used : Nat} {px : List Rgbe} (hhi : n + used ≤ s.regs.srcLen.toNat) :
    (decodedState s n h w px ((streamFrom s 0).drop (n + used))).regs.pos.toNat = n + used := by
  have hlt := s.regs.srcLen.isLt
  have hlength : ((streamFrom s 0).drop (n + used)).length = s.regs.srcLen.toNat - (n + used) := by
    rw [List.length_drop, streamFrom_length]
    rfl
  have htoNat : (decodedState s n h w px ((streamFrom s 0).drop (n + used))).regs.pos.toNat =
      (s.regs.srcLen.toNat - ((streamFrom s 0).drop (n + used)).length) % 2 ^ 32 := BitVec.toNat_ofNat ..
  rw [htoNat, hlength]
  omega

/-- Settles O33: the registers of `decodedState`, whose pixels are the whole image. -/
theorem dhdrCommits : Obligations.DhdrCommits := by
  intro s t hends herr
  rcases hends.dhdr_cases with rfl | ⟨-, hend⟩
  · exact absurd herr (failedState_errcode_ne_zero _ _)
  cases hend with
  | header k => exact absurd herr (failedState_errcode_ne_zero _ _)
  | tooSmall => exact absurd herr (failedState_errcode_ne_zero _ _)
  | scanline n h w href hfits k => exact absurd herr (failedInScanlines_errcode_ne_zero _ _)
  | decoded n h w href hfits used px hlo hhi hlines hpx =>
    obtain ⟨⟨hn, -⟩, ⟨hh, hh'⟩, hw, hw'⟩ := refHeader_ok href
    have hmax : Config.dimMax = 65535 := rfl
    have hlt : (s.issue 3).regs.srcLen.toNat < 2 ^ 32 := BitVec.isLt _
    have hwidth : (BitVec.ofNat 32 w : Word).toNat = w := by rw [BitVec.toNat_ofNat]; omega
    have hheight : (BitVec.ofNat 32 h : Word).toNat = h := by rw [BitVec.toNat_ofNat]; omega
    have hoff : (BitVec.ofNat 32 n : Word).toNat = n := by rw [BitVec.toNat_ofNat]; omega
    have hpos := decodedState_pos (h := h) (w := w) (px := px) hhi
    have hcount : 4 * px.length = 4 * w * h := by rw [hpx]; ring
    have hne : px ≠ [] := by
      rintro rfl
      have : 0 < h * w := Nat.mul_pos hh hw
      exact absurd hpx this.ne
    have hlast := readWord_last_pixel s.mem s.regs.dstAddr.toNat hne 0
    rw [hcount] at hlast
    intro w' h'
    have hw'' : w' = w := hwidth
    have hh'' : h' = h := hheight
    have hoff' : (decodedState (s.issue 3) n h w px ((streamFrom (s.issue 3) 0).drop (n + used))).regs.dataOff.toNat = n := hoff
    rw [hw'', hh'', hpos, hoff']
    refine ⟨?_, hw, by omega, hh, by omega, hfits, hn, by omega, hhi, fun a ha => ?_⟩
    · have hprev : (decodedState (s.issue 3) n h w px ((streamFrom (s.issue 3) 0).drop (n + used))).mem.readWord
          (s.regs.dstAddr.toNat + 4 * w * h - 4) = (px.getLast?.map prevOfPixel).getD 0 := hlast.symm
      rw [hprev]
      rfl
    · exact Memory.read_writeBytes_outside s.mem _ _ (by rwa [pixelBytes_length, hcount])

end Sys2Proof.Machine
end

section
/-!
PROOFS. `DHDR` as `HDRP` and one `SCAN` for each scanline (R298): the ends of `HDRP`, what several successful `SCAN`s amount to, and O34
assembled from them.
-/

namespace Sys2Proof.Machine

/-! ### Ends from runs -/

theorem Ends.of_reaches {s t : State} {c : Word} {n : Nat} (hrun : s.run = none) (hinputs : s.inputs = []) (ht : t.run = none)
    (h : ReachesIn n (s.issue c) t) : Ends s c t := by
  obtain ⟨k, -, hsteps⟩ := h
  exact ⟨hrun, hinputs, ht, k, hsteps⟩

/-! ### The ends of `HDRP` (R140 to R153) -/

/-- The states that `HDRP` can end in: its source region is not in memory, its header fails, or its header is committed. -/
inductive HdrpEnd (s : State) : State → Prop
  | region (hfits : s.regs.srcFits = false) : HdrpEnd s (failedState s .badOperand)
  | header (k : FailKind) (hfits : s.regs.srcFits = true) (href : refHeader (streamFrom s 0) = .error k) : HdrpEnd s (failedState s k)
  | parsed (n h w : Nat) (hfits : s.regs.srcFits = true) (href : refHeader (streamFrom s 0) = .ok (n, h, w)) :
    HdrpEnd s (parsedState s n h w)

theorem HdrpEnd.run_eq_none {s t : State} (h : HdrpEnd s t) : t.run = none := by cases h <;> rfl

theorem DhdrEnd.run_eq_none {s t : State} (h : DhdrEnd s t) : t.run = none := by cases h <;> rfl

/-- A freshly issued `HDRP` comes to one of its ends in two steps. -/
theorem Issued.hdrp_sim {s : State} (hs : Issued s) (hcmd : s.regs.cmd = 1) : ∃ t, HdrpEnd s t ∧ ReachesIn 2 s t := by
  have hdecode : decodeCommand s.regs.cmd = .ok .hdrp := by rw [hcmd]; rfl
  have hstep := hs.step_eq_exec hdecode
  cases hfits : s.regs.srcFits with
  | false =>
    have hfail : exec .hdrp s = .next (s.raise .badOperand) := execHdrp_of_srcFits_eq_false hfits
    rw [hfail, hs.raise_eq] at hstep
    exact ⟨_, .region hfits, (ReachesIn.of_step hstep).mono (by omega)⟩
  | true =>
    rw [hs.exec_hdrp_eq hfits] at hstep
    have hheader := step_headerDue_hdrp hs.2 hfits
    cases href : refHeader (streamFrom s 0) with
    | error k =>
      rw [href] at hheader
      exact ⟨_, .header k hfits href, (ReachesIn.of_step hstep).trans (ReachesIn.of_step hheader)⟩
    | ok x =>
      obtain ⟨n, h, w⟩ := x
      rw [href] at hheader
      exact ⟨_, .parsed n h w hfits href, (ReachesIn.of_step hstep).trans (ReachesIn.of_step hheader)⟩

theorem Ends.hdrp_cases {s t : State} (h : Ends s 1 t) : HdrpEnd (s.issue 1) t := by
  obtain ⟨u, hend, hreach⟩ := h.issued.hdrp_sim rfl
  obtain rfl := h.eq_of_reaches hend.run_eq_none hreach
  exact hend

/-! ### Successful `SCAN`s one after another -/

/-- The registers let the first of `n` scanlines begin, and the destination region has room for all of them (R171, R292). -/
structure ScansReady (r : Regs) (n : Nat) : Prop where
  regions : r.regionsOk = true
  width : 1 ≤ r.width.toNat ∧ r.width.toNat ≤ Config.dimMax
  pos : r.pos.toNat ≤ r.srcLen.toNat
  room : r.ipos.toNat + 4 * r.width.toNat * n ≤ r.dstLen.toNat

theorem scansReady_one_iff (r : Regs) : ScansReady r 1 ↔ scanFailure r = none := by
  rw [scanFailure_eq_none_iff]
  constructor
  · rintro ⟨hregions, hwidth, hpos, hroom⟩
    exact ⟨hregions, hwidth, hpos, by omega⟩
  · rintro ⟨hregions, hwidth, hpos, hroom⟩
    exact ⟨hregions, hwidth, hpos, by omega⟩

/-- The state after `n` successful `SCAN`s which decoded the pixels `px` from `used` bytes. -/
def scansDone (s : State) (px : List Rgbe) (n used : Nat) : State := imageDone (s.issue 2) ((Staged.ofRegs s.regs).skip used) px n

/-- `n` scanlines are decoded at the cursor of `s`, from `used` bytes. -/
structure Scanned (s : State) (n : Nat) (px : List Rgbe) (used : Nat) : Prop where
  ready : ScansReady s.regs n
  used_le : used ≤ s.regs.srcLen.toNat - s.regs.pos.toNat
  lines : refScanlines s.regs.width.toNat n (pixelOfPrev s.regs.prev) (streamFrom s s.regs.pos.toNat) =
    .ok (px, (streamFrom s s.regs.pos.toNat).drop used)
  length : px.length = n * s.regs.width.toNat

theorem scannedState_eq_scansDone {s : State} {used : Nat} (hpos : s.regs.pos.toNat ≤ s.regs.srcLen.toNat)
    (hused : used ≤ s.regs.srcLen.toNat - s.regs.pos.toNat) (px : List Rgbe) :
    scannedState (s.issue 2) px ((streamFrom (s.issue 2) s.regs.pos.toNat).drop used) = scansDone s px 1 used := by
  have hlength : (streamFrom (s.issue 2) s.regs.pos.toNat).length = (s.issue 2).regs.srcLen.toNat - (s.issue 2).regs.pos.toNat :=
    streamFrom_length _ _
  exact (scanlineDone_eq_scannedState (s := s.issue 2) hlength hpos (hlength ▸ hused) px).symm

theorem refScanlines_one {w : Nat} {prev : Rgbe} {bs rest : List Byte} {px : List Rgbe} :
    refScanlines w 1 prev bs = .ok (px, rest) ↔ refScanline w prev bs = .ok (px, rest) := by
  cases h : refScanline w prev bs with
  | error k => simp [refScanlines_succ_of_error h]
  | ok x =>
    obtain ⟨px', rest'⟩ := x
    rw [refScanlines_succ_of_ok h]
    simp [refScanlines, Except.map]

/-- A `SCAN` succeeds where its checks pass and its scanline is decoded (R188). -/
theorem scan_succeeds_iff {s t : State} (hrun : s.run = none) (hinputs : s.inputs = []) :
    (Ends s 2 t ∧ t.regs.errcode = 0) ↔ ∃ px used, Scanned s 1 px used ∧ t = scansDone s px 1 used := by
  constructor
  · rintro ⟨hends, herr⟩
    rcases hends.scan_cases with ⟨k, -, rfl⟩ | ⟨k, -, rfl⟩ | ⟨used, px, hpass, -, hused, href, hpx, rfl⟩
    · exact absurd herr (failedState_errcode_ne_zero _ k)
    · exact absurd herr (failedInScanlines_errcode_ne_zero _ k)
    have hready : ScansReady s.regs 1 := (scansReady_one_iff s.regs).mpr hpass
    exact ⟨px, used, ⟨hready, hused, refScanlines_one.mpr href, hpx.trans (Nat.one_mul _).symm⟩,
      scannedState_eq_scansDone hready.pos hused px⟩
  · rintro ⟨px, used, ⟨hready, hused, hlines, hpx⟩, rfl⟩
    have hissued : Issued (s.issue 2) := issued_issue 2 hinputs
    have hpass : scanFailure (s.issue 2).regs = none := (scansReady_one_iff s.regs).mp hready
    have hstart := ReachesIn.of_step ((hissued.step_eq_exec (decodeCommand_scan rfl)).trans (hissued.exec_scan_of_passed hpass))
    have href := refScanlines_one.mp hlines
    rcases hissued.scan_sim rfl hpass with ⟨e, href', -, -⟩ | ⟨used', px', -, hused', href', -, hreach⟩
    · cases href.symm.trans href'
    · obtain ⟨rfl, hrest⟩ : px = px' ∧ _ = _ := Prod.mk.inj (Except.ok.inj (href.symm.trans href'))
      rw [← scannedState_eq_scansDone hready.pos hused]
      have hrest' : (streamFrom (s.issue 2) s.regs.pos.toNat).drop used = (streamFrom (s.issue 2) s.regs.pos.toNat).drop used' := hrest
      rw [hrest']
      exact ⟨Ends.of_reaches hrun hinputs rfl (hstart.trans hreach), rfl⟩

namespace Scanned

variable {s : State} {px : List Rgbe} {used : Nat}

theorem toNat_pos (h : Scanned s 1 px used) : (scansDone s px 1 used).regs.pos.toNat = s.regs.pos.toNat + used := by
  have hlt := s.regs.srcLen.isLt
  have hpos := h.ready.pos
  have hused := h.used_le
  have htoNat : (scansDone s px 1 used).regs.pos.toNat = (s.regs.pos.toNat + used) % 2 ^ 32 := BitVec.toNat_ofNat ..
  omega

theorem toNat_ipos (h : Scanned s 1 px used) : (scansDone s px 1 used).regs.ipos.toNat = s.regs.ipos.toNat + 4 * px.length := by
  have hlt := s.regs.dstLen.isLt
  have hroom := h.ready.room
  have hpx := h.length
  have htoNat : (scansDone s px 1 used).regs.ipos.toNat = (s.regs.ipos.toNat + 4 * px.length) % 2 ^ 32 := BitVec.toNat_ofNat ..
  omega

/-- What is stored leaves the bytes behind the cursor alone. -/
theorem stream (h : Scanned s 1 px used) :
    streamFrom (scansDone s px 1 used) (scansDone s px 1 used).regs.pos.toNat = (streamFrom s s.regs.pos.toNat).drop used := by
  have hpos := h.ready.pos
  have hused := h.used_le
  have hroom := h.ready.room
  have hpx := h.length
  rw [h.toNat_pos, ← streamFrom_add]
  exact streamFrom_written (t := storedState s (Staged.ofRegs s.regs) px) (s := s) (bs := pixelBytes px) rfl rfl h.ready.regions
    (Nat.le_add_right _ _) (by rw [pixelBytes_length]; show _ + s.regs.ipos.toNat + _ ≤ _; omega) (by omega)

theorem pixelOfPrev_prev (s : State) (px : List Rgbe) (used : Nat) :
    pixelOfPrev (scansDone s px 1 used).regs.prev = px.getLast?.getD (pixelOfPrev s.regs.prev) := pixelOfPrev_getD px s.regs.prev

theorem scansReady_next_iff (h : Scanned s 1 px used) (n : Nat) :
    ScansReady (scansDone s px 1 used).regs n ↔ ScansReady s.regs (n + 1) := by
  have hipos := h.toNat_ipos
  have hpos := h.toNat_pos
  have hused := h.used_le
  have hpx := h.length
  have hlines : 4 * s.regs.width.toNat * (n + 1) = 4 * s.regs.width.toNat * n + 4 * s.regs.width.toNat := by ring
  obtain ⟨hregions, hwidth, hpos', -⟩ := h.ready
  constructor
  · rintro ⟨-, -, -, hroom⟩
    have hroom : (scansDone s px 1 used).regs.ipos.toNat + 4 * s.regs.width.toNat * n ≤ s.regs.dstLen.toNat := hroom
    exact ⟨hregions, hwidth, hpos', by omega⟩
  · rintro ⟨-, -, -, hroom⟩
    have hle : (scansDone s px 1 used).regs.pos.toNat ≤ s.regs.srcLen.toNat := by omega
    have hfits : (scansDone s px 1 used).regs.ipos.toNat + 4 * s.regs.width.toNat * n ≤ s.regs.dstLen.toNat := by omega
    exact ⟨hregions, hwidth, hle, hfits⟩

/-- A scanline and the scanlines after it. -/
theorem append (h : Scanned s 1 px used) {n used' : Nat} {px' : List Rgbe} (h' : Scanned (scansDone s px 1 used) n px' used') :
    Scanned s (n + 1) (px ++ px') (used + used') := by
  have hused := h.used_le
  have hused' : used' ≤ s.regs.srcLen.toNat - (scansDone s px 1 used).regs.pos.toNat := h'.used_le
  have hpos := h.toNat_pos
  have hlines := h'.lines
  have hlength : px'.length = n * s.regs.width.toNat := h'.length
  rw [h.stream, pixelOfPrev_prev, List.drop_drop] at hlines
  refine ⟨(h.scansReady_next_iff n).mp h'.ready, by omega, refScanlines_succ_of_rest_ok (refScanlines_one.mp h.lines) hlines, ?_⟩
  rw [List.length_append, h.length, hlength]
  ring

/-- The state after a scanline and the scanlines after it. -/
theorem scansDone_append (h : Scanned s 1 px used) (n used' : Nat) (px' : List Rgbe) :
    scansDone (scansDone s px 1 used) px' n used' = scansDone s (px ++ px') (n + 1) (used + used') := by
  have hipos : (((Staged.ofRegs s.regs).skip used).emitted px).ipos.toNat = ((Staged.ofRegs s.regs).skip used).ipos.toNat + 4 * px.length :=
    h.toNat_ipos
  have hstored := imageDone_stored (s := s.issue 2) hipos px' n used'
  rw [Staged.skip_skip] at hstored
  exact hstored

end Scanned

/-- What successful `SCAN`s one after another amount to. -/
theorem scanned_of_scansTo {n : Nat} {s v : State} (hrun : s.run = none) (hinputs : s.inputs = []) (h : scansTo (n + 1) s v) :
    ∃ px used, Scanned s (n + 1) px used ∧ v = scansDone s px (n + 1) used := by
  induction n generalizing s with
  | zero =>
    obtain ⟨t, hends, herr, rfl⟩ := h
    exact (scan_succeeds_iff hrun hinputs).mp ⟨hends, herr⟩
  | succ n ih =>
    obtain ⟨t, hends, herr, hrest⟩ := h
    obtain ⟨px, used, hscan, rfl⟩ := (scan_succeeds_iff hrun hinputs).mp ⟨hends, herr⟩
    obtain ⟨px', used', hscans, rfl⟩ := ih (s := scansDone s px 1 used) rfl hinputs hrest
    exact ⟨px ++ px', used + used', hscan.append hscans, hscan.scansDone_append _ _ _⟩

theorem ScansReady.mono {r : Regs} {m n : Nat} (h : ScansReady r n) (hmn : m ≤ n) : ScansReady r m :=
  ⟨h.regions, h.width, h.pos, (Nat.add_le_add_left (Nat.mul_le_mul_left _ hmn) _).trans h.room⟩

/-- With its checks in order, a `SCAN` decodes what the byte-level decoder does. -/
theorem scanned_of_ready {s : State} (hinputs : s.inputs = []) (hready : ScansReady s.regs 1) :
    (∃ e, refScanline s.regs.width.toNat (pixelOfPrev s.regs.prev) (streamFrom s s.regs.pos.toNat) = .error e) ∨
    ∃ px used, Scanned s 1 px used := by
  have hissued : Issued (s.issue 2) := issued_issue 2 hinputs
  rcases hissued.scan_sim rfl ((scansReady_one_iff s.regs).mp hready) with ⟨e, href, -, -⟩ | ⟨used, px, -, hused, href, hpx, -⟩
  · exact .inl ⟨e, href⟩
  · exact .inr ⟨px, used, hready, hused, refScanlines_one.mpr href, hpx.trans (Nat.one_mul _).symm⟩

/-- With their checks in order, successful `SCAN`s decode what the byte-level decoder does. -/
theorem scansTo_of_ready {n : Nat} {s : State} (hrun : s.run = none) (hinputs : s.inputs = []) (hready : ScansReady s.regs (n + 1)) :
    (∃ e, refScanlines s.regs.width.toNat (n + 1) (pixelOfPrev s.regs.prev) (streamFrom s s.regs.pos.toNat) = .error e) ∨
    ∃ px used, Scanned s (n + 1) px used ∧ scansTo (n + 1) s (scansDone s px (n + 1) used) := by
  induction n generalizing s with
  | zero =>
    rcases scanned_of_ready hinputs hready with ⟨e, href⟩ | ⟨px, used, hscan⟩
    · exact .inl ⟨e, refScanlines_succ_of_error href 0⟩
    · obtain ⟨hends, herr⟩ := (scan_succeeds_iff hrun hinputs).mpr ⟨px, used, hscan, rfl⟩
      exact .inr ⟨px, used, hscan, _, hends, herr, rfl⟩
  | succ n ih =>
    rcases scanned_of_ready hinputs (hready.mono (by omega)) with ⟨e, href⟩ | ⟨px, used, hscan⟩
    · exact .inl ⟨e, refScanlines_succ_of_error href _⟩
    obtain ⟨hends, herr⟩ := (scan_succeeds_iff hrun hinputs).mpr ⟨px, used, hscan, rfl⟩
    have hrest := ih (s := scansDone s px 1 used) rfl hinputs ((hscan.scansReady_next_iff _).mpr hready)
    rw [hscan.stream, Scanned.pixelOfPrev_prev] at hrest
    rcases hrest with ⟨e, href⟩ | ⟨px', used', hscans, hto⟩
    · exact .inl ⟨e, refScanlines_succ_of_rest_error (refScanlines_one.mp hscan.lines) href⟩
    · rw [hscan.scansDone_append] at hto
      exact .inr ⟨px ++ px', used + used', hscan.append hscans, _, hends, herr, hto⟩

/-! ### `DHDR` is `HDRP` and then `SCAN`s (R298) -/

/-- The registers after `HDRP` are ready for the scanlines where those of `DHDR` are. -/
theorem scansReady_parsedState_iff {s : State} {n h w : Nat} (hn : n ≤ s.regs.srcLen.toNat) (hw : 1 ≤ w ∧ w ≤ Config.dimMax) :
    ScansReady (parsedState s n h w).regs h ↔ s.regs.regionsOk = true ∧ 4 * w * h ≤ s.regs.dstLen.toNat := by
  have hmax : Config.dimMax = 65535 := rfl
  have hlt := s.regs.srcLen.isLt
  have hwidth : (BitVec.ofNat 32 w : Word).toNat = w := by rw [BitVec.toNat_ofNat]; omega
  have hpos : (BitVec.ofNat 32 n : Word).toNat = n := by rw [BitVec.toNat_ofNat]; omega
  constructor
  · rintro ⟨hregions, -, -, hroom⟩
    have hroom : 0 + 4 * (BitVec.ofNat 32 w : Word).toNat * h ≤ s.regs.dstLen.toNat := hroom
    rw [hwidth, Nat.zero_add] at hroom
    exact ⟨hregions, hroom⟩
  · rintro ⟨hregions, hroom⟩
    have hroom' : 0 + 4 * (BitVec.ofNat 32 w : Word).toNat * h ≤ s.regs.dstLen.toNat := by rwa [hwidth, Nat.zero_add]
    have hwidth' : 1 ≤ (BitVec.ofNat 32 w : Word).toNat ∧ (BitVec.ofNat 32 w : Word).toNat ≤ Config.dimMax := by rwa [hwidth]
    exact ⟨hregions, hwidth', hpos.le.trans hn, hroom'⟩

/-- The scanlines after `HDRP`, in the terms of the byte-level decoder of `DHDR`. -/
theorem refScanlines_parsedState {s : State} {n h w : Nat} (hn : n ≤ s.regs.srcLen.toNat) (hw : w ≤ Config.dimMax) :
    refScanlines (parsedState s n h w).regs.width.toNat h (pixelOfPrev (parsedState s n h w).regs.prev)
        (streamFrom (parsedState s n h w) (parsedState s n h w).regs.pos.toNat) =
      refScanlines w h { r := 0, g := 0, b := 0, e := 0 } ((streamFrom s 0).drop n) := by
  have hmax : Config.dimMax = 65535 := rfl
  have hlt := s.regs.srcLen.isLt
  have hwidth : (parsedState s n h w).regs.width.toNat = w := (BitVec.toNat_ofNat w 32).trans (Nat.mod_eq_of_lt (by omega))
  have hpos : (parsedState s n h w).regs.pos.toNat = 0 + n :=
    (BitVec.toNat_ofNat n 32).trans ((Nat.mod_eq_of_lt (by omega)).trans (Nat.zero_add n).symm)
  have hprev : pixelOfPrev (parsedState s n h w).regs.prev = { r := 0, g := 0, b := 0, e := 0 } := pixelOfPrev_zero
  rw [hwidth, hpos, hprev, streamFrom_add]
  rfl

/-- The two ways to decode an image end in one state, `CMD` apart. -/
theorem decodedState_eq_scansDone {s : State} {n h w used : Nat} {px : List Rgbe} (hhi : n + used ≤ s.regs.srcLen.toNat)
    (hpx : px.length = h * w) :
    decodedState (s.issue 3) n h w px ((streamFrom (s.issue 3) 0).drop (n + used)) =
      { scansDone (parsedState (s.issue 1) n h w) px h used with
        regs := { (scansDone (parsedState (s.issue 1) n h w) px h used).regs with cmd := 3 } } :=
  (imageDone_eq_decodedState (s := s.issue 3) hhi hpx).symm

/-- What the scanlines after `HDRP` leave is what is left behind the header and their bytes. -/
theorem streamFrom_parsedState {s : State} {n h w : Nat} (hn : n ≤ s.regs.srcLen.toNat) :
    streamFrom (parsedState s n h w) (parsedState s n h w).regs.pos.toNat = (streamFrom s 0).drop n := by
  have hlt := s.regs.srcLen.isLt
  have hpos : (parsedState s n h w).regs.pos.toNat = 0 + n :=
    (BitVec.toNat_ofNat n 32).trans ((Nat.mod_eq_of_lt (by omega)).trans (Nat.zero_add n).symm)
  rw [hpos, ← streamFrom_add]
  rfl

/-- Scanlines decoded after `HDRP`, in the terms of the byte-level decoder of `DHDR`. -/
theorem Scanned.of_parsedState {s : State} {n h w used : Nat} {px : List Rgbe} (hn : n ≤ s.regs.srcLen.toNat)
    (hw : 1 ≤ w ∧ w ≤ Config.dimMax) (hscanned : Scanned (parsedState s n h w) h px used) :
    (s.regs.regionsOk = true ∧ 4 * w * h ≤ s.regs.dstLen.toNat) ∧
      refScanlines w h { r := 0, g := 0, b := 0, e := 0 } ((streamFrom s 0).drop n) = .ok (px, (streamFrom s 0).drop (n + used)) ∧
      n + used ≤ s.regs.srcLen.toNat ∧ px.length = h * w := by
  have hmax : Config.dimMax = 65535 := rfl
  have hlt := s.regs.srcLen.isLt
  have hwidth : (parsedState s n h w).regs.width.toNat = w := (BitVec.toNat_ofNat w 32).trans (Nat.mod_eq_of_lt (by omega))
  have hpos : (parsedState s n h w).regs.pos.toNat = n := (BitVec.toNat_ofNat n 32).trans (Nat.mod_eq_of_lt (by omega))
  have hlines := hscanned.lines
  rw [refScanlines_parsedState hn hw.2, streamFrom_parsedState hn, List.drop_drop] at hlines
  have hused : used ≤ s.regs.srcLen.toNat - (parsedState s n h w).regs.pos.toNat := hscanned.used_le
  exact ⟨(scansReady_parsedState_iff hn hw).mp hscanned.ready, hlines, by omega, hscanned.length.trans (by rw [hwidth])⟩

/-- A header that passes is committed by `HDRP`. -/
theorem ends_parsedState {s : State} {n h w : Nat} (hrun : s.run = none) (hinputs : s.inputs = []) (hfits : s.regs.srcFits = true)
    (href : refHeader (streamFrom s 0) = .ok (n, h, w)) : Ends s 1 (parsedState (s.issue 1) n h w) := by
  obtain ⟨t, hend, hreach⟩ := (issued_issue (s := s) 1 hinputs).hdrp_sim rfl
  cases hend with
  | region hfits' => cases hfits.symm.trans hfits'
  | header k hfits' href' => cases href.symm.trans href'
  | parsed n' h' w' hfits' href' =>
    cases href.symm.trans href'
    exact Ends.of_reaches hrun hinputs rfl hreach

/-- A decoded image is what `HDRP` and its `SCAN`s leave. -/
theorem scans_of_dhdrEnd {s t : State} (hrun : s.run = none) (hinputs : s.inputs = []) (hregions : s.regs.regionsOk = true)
    (hend : DhdrEnd (s.issue 3) t) (herr : t.regs.errcode = 0) :
    ∃ u v, Ends s 1 u ∧ u.regs.errcode = 0 ∧ scansTo u.regs.height.toNat u v ∧ t = { v with regs := { v.regs with cmd := 3 } } := by
  cases hend with
  | header k => exact absurd herr (failedState_errcode_ne_zero _ _)
  | tooSmall => exact absurd herr (failedState_errcode_ne_zero _ _)
  | scanline n h w href hfits k => exact absurd herr (failedInScanlines_errcode_ne_zero _ _)
  | decoded n h w href hfits used px hlo hhi hlines hpx =>
    have href : refHeader (streamFrom s 0) = .ok (n, h, w) := href
    have hhi : n + used ≤ s.regs.srcLen.toNat := hhi
    obtain ⟨-, ⟨hh, hh'⟩, hw⟩ := refHeader_ok href
    have hmax : Config.dimMax = 65535 := rfl
    have hn : n ≤ s.regs.srcLen.toNat := by omega
    obtain ⟨m, rfl⟩ : ∃ m, h = m + 1 := ⟨h - 1, by omega⟩
    have hheight : (parsedState (s.issue 1) n (m + 1) w).regs.height.toNat = m + 1 :=
      (BitVec.toNat_ofNat _ 32).trans (Nat.mod_eq_of_lt (by omega))
    have hends := ends_parsedState hrun hinputs (srcFits_of_regionsOk hregions) href
    have hready : ScansReady (parsedState (s.issue 1) n (m + 1) w).regs (m + 1) :=
      (scansReady_parsedState_iff (s := s.issue 1) hn hw).mpr ⟨hregions, hfits⟩
    have hscans := scansTo_of_ready (s := parsedState (s.issue 1) n (m + 1) w) rfl hinputs hready
    rw [refScanlines_parsedState (s := s.issue 1) hn hw.2] at hscans
    rcases hscans with ⟨e, href'⟩ | ⟨px', used', hscanned, hto⟩
    · cases hlines.symm.trans href'
    obtain ⟨-, hlines', hhi', hpx'⟩ := hscanned.of_parsedState (s := s.issue 1) hn hw
    obtain ⟨rfl, hrest⟩ : px = px' ∧ (streamFrom (s.issue 3) 0).drop (n + used) = (streamFrom (s.issue 3) 0).drop (n + used') :=
      Prod.mk.inj (Except.ok.inj (hlines.symm.trans hlines'))
    refine ⟨_, _, hends, rfl, by rwa [hheight], ?_⟩
    rw [hrest, decodedState_eq_scansDone (s := s) hhi' hpx']

/-- `HDRP` and its `SCAN`s leave what the decoded image is. -/
theorem ends_dhdr_of_scans {s u v : State} (hrun : s.run = none) (hinputs : s.inputs = []) (hends : Ends s 1 u)
    (herr : u.regs.errcode = 0) (hscans : scansTo u.regs.height.toNat u v) : Ends s 3 { v with regs := { v.regs with cmd := 3 } } := by
  cases hends.hdrp_cases with
  | region => exact absurd herr (failedState_errcode_ne_zero _ _)
  | header k => exact absurd herr (failedState_errcode_ne_zero _ _)
  | parsed n h w hfits href =>
    obtain ⟨⟨-, hn⟩, ⟨hh, hh'⟩, hw⟩ := refHeader_ok href
    have hmax : Config.dimMax = 65535 := rfl
    rw [streamFrom_length, Nat.sub_zero] at hn
    obtain ⟨m, rfl⟩ : ∃ m, h = m + 1 := ⟨h - 1, by omega⟩
    have hheight : (parsedState (s.issue 1) n (m + 1) w).regs.height.toNat = m + 1 :=
      (BitVec.toNat_ofNat _ 32).trans (Nat.mod_eq_of_lt (by omega))
    rw [hheight] at hscans
    obtain ⟨px, used, hscanned, rfl⟩ := scanned_of_scansTo (s := parsedState (s.issue 1) n (m + 1) w) rfl hinputs hscans
    obtain ⟨⟨hregions, hroom⟩, hlines, hhi, hpx⟩ := hscanned.of_parsedState (s := s.issue 1) hn hw
    suffices hend : Ends s 3 (decodedState (s.issue 3) n (m + 1) w px ((streamFrom (s.issue 3) 0).drop (n + used))) by
      rwa [decodedState_eq_scansDone (s := s) hhi hpx] at hend
    have hissued : Issued (s.issue 3) := issued_issue 3 hinputs
    have href : refHeader (streamFrom (s.issue 3) 0) = .ok (n, m + 1, w) := href
    have hstep : step (s.issue 3) = exec .dhdr (s.issue 3) := hissued.step_eq_exec rfl
    have hstart := ReachesIn.of_step (hstep.trans (hissued.exec_dhdr_of_regionsOk hregions))
    obtain ⟨t, hend, hreach⟩ := hissued.dhdr_sim rfl hregions
    cases hend with
    | header k href' => cases href.symm.trans href'
    | tooSmall n' h' w' href' hsmall =>
      cases href.symm.trans href'
      exact absurd hroom (Nat.not_le.mpr hsmall)
    | scanline n' h' w' href' hfits' k hk hlines' =>
      cases href.symm.trans href'
      cases hlines.symm.trans hlines'
    | decoded n' h' w' href' hfits' used' px' hlo' hhi' hlines' hpx' =>
      cases href.symm.trans href'
      obtain ⟨rfl, hrest⟩ : px = px' ∧ (streamFrom (s.issue 3) 0).drop (n + used) = (streamFrom (s.issue 3) 0).drop (n + used') :=
        Prod.mk.inj (Except.ok.inj (hlines.symm.trans hlines'))
      rw [hrest]
      exact Ends.of_reaches hrun hinputs rfl (hstart.trans hreach)

/-- Settles O34: both sides are decided by the header and the scanlines of the byte-level decoder. -/
theorem dhdrIsHdrpThenScans : Obligations.DhdrIsHdrpThenScans := by
  intro s hrun hinputs
  refine ⟨fun t hends herr => ?_, fun u v hends herr hscans _ _ => ?_⟩
  · rcases hends.dhdr_cases with rfl | ⟨hregions, hend⟩
    · exact absurd herr (failedState_errcode_ne_zero _ _)
    · exact scans_of_dhdrEnd hrun hinputs hregions hend herr
  · exact ends_dhdr_of_scans hrun hinputs hends herr hscans

end Sys2Proof.Machine
end

section
/-!
PROOFS. How any command that the host issues can end (R43, R312, R319, R322): one list of the ends of all of them, and O57, O58 and O59 read
off it.
-/

namespace Sys2Proof.Machine

/-! ### Registers that an operation leaves alone -/

theorem Regs.get_commit_of_notMem (r : Regs) (st : Staged) {i : Nat} (hi : i ∉ [9, 10, 11, 12, 13, 14, 15, 16]) :
    (r.commit st).get i = r.get i := by
  simp only [List.mem_cons, List.not_mem_nil, or_false, not_or] at hi
  have hcases : i ≤ 6 ∨ i = 7 ∨ i = 8 ∨ 17 ≤ i := by omega
  rcases hcases with hle | rfl | rfl | hge
  · exact r.get_commit_operand st hle
  · rfl
  · rfl
  · rw [Regs.get_of_ge _ hge, Regs.get_of_ge _ hge]

theorem Regs.get_withCount_of_ne (r : Regs) (n : Word) {i : Nat} (hi : i ≠ 16) : Regs.get { r with count := n } i = r.get i := by
  unfold Regs.get
  split
  case h_17 => exact absurd rfl hi
  all_goals rfl

theorem State.get_issue_of_notMem (s : State) (c : Word) {i : Nat} (hi : i ∉ [6, 7, 8]) : (s.issue c).regs.get i = s.regs.get i := by
  unfold Regs.get
  split
  case h_7 | h_8 | h_9 => exact absurd hi (by decide)
  all_goals rfl

/-! ### The ends of a command -/

/-- The registers marked for a command (R43). -/
def markedRegs (c : Word) : List Nat :=
  if c = 1 ∨ c = 3 then [9, 10, 11, 12, 13, 14, 15] else if c = 2 then [12, 13, 14, 15] else [16]

/-- The failure kinds of a command that no scanline has part in, by their numbers (R319). -/
def earlyKinds (c : Word) : List Nat :=
  if c = 1 then [1, 2, 6] else if c = 2 then [5, 6] else if c = 3 then [1, 2, 5, 6] else [6]

/-- How a command word that the host issues can end: it fails before any scanline, it fails in one, or it succeeds and writes no register but
those marked for it. -/
inductive CommandEnd (s : State) (c : Word) : State → Prop
  | fails (k : FailKind) (hk : k.code ∈ earlyKinds c) : CommandEnd s c (failedState (s.issue c) k)
  | failsInLine (k : FailKind) (hk : IsLineFailure k) (hc : c = 2 ∨ c = 3) : CommandEnd s c (failedInScanlines (s.issue c) k)
  | succeeds (m : Memory) (regs : Regs) (hlo : 1 ≤ c.toNat) (hhi : c.toNat ≤ 9) (hcmd : regs.cmd = c)
      (hkeeps : ∀ i, i ∉ [6, 7, 8] → i ∉ markedRegs c → regs.get i = (s.issue c).regs.get i) :
    CommandEnd s c { s.issue c with mem := m, regs := regs.withOutcome 0, run := none }

theorem refHeader_error {bs : List Byte} {k : FailKind} (href : refHeader bs = .error k) : k = .malformedHeader ∨ k = .unsupportedFormat := by
  rcases parseHeader_headerText bs with ⟨k', href', hparse⟩ | ⟨n, h, w, href', -⟩
  · cases href.symm.trans href'
    exact parseHeader_error hparse
  · cases href.symm.trans href'

/-- The registers that a decoding command commits are marked for it, but for `COUNT`, which it keeps. -/
theorem get_commit_of_header {r : Regs} {st : Staged} (hcount : st.count = r.count) {i : Nat}
    (hi : i ∉ [9, 10, 11, 12, 13, 14, 15]) : (r.commit st).get i = r.get i := by
  by_cases hlast : i = 16
  · subst hlast
    exact hcount
  · refine r.get_commit_of_notMem st ?_
    simp only [List.mem_cons, List.not_mem_nil, or_false, not_or] at hi ⊢
    omega

theorem CommandEnd.of_hdrpEnd {s t : State} (h : HdrpEnd (s.issue 1) t) : CommandEnd s 1 t := by
  cases h with
  | region => exact .fails .badOperand (by decide)
  | header k hfits href =>
    rcases refHeader_error href with rfl | rfl
    · exact .fails .malformedHeader (by decide)
    · exact .fails .unsupportedFormat (by decide)
  | parsed n h w =>
    exact .succeeds s.mem ((s.issue 1).regs.commit (stageHeader (Staged.ofRegs s.regs) n h w)) (by decide) (by decide) rfl
      fun i _ hi => get_commit_of_header rfl hi

theorem CommandEnd.of_dhdrEnd {s t : State} (h : DhdrEnd (s.issue 3) t) : CommandEnd s 3 t := by
  cases h with
  | header k href =>
    rcases refHeader_error href with rfl | rfl
    · exact .fails .malformedHeader (by decide)
    · exact .fails .unsupportedFormat (by decide)
  | tooSmall => exact .fails .outputTooSmall (by decide)
  | scanline n h w href hfits k hk => exact .failsInLine k hk (.inr rfl)
  | decoded n h w href hfits used px hlo hhi hlines hpx =>
    rw [← imageDone_eq_decodedState hhi hpx]
    exact .succeeds _ ((s.issue 3).regs.commit (((stageHeader (Staged.atHeader s.regs) n h w).skip used).linesOn px h)) (by decide) (by decide)
      rfl fun i _ hi => get_commit_of_header rfl hi

theorem get_commit_scansDone (s : State) (px : List Rgbe) (used : Nat) {i : Nat} (hi : i ∉ [12, 13, 14, 15]) :
    ((s.issue 2).regs.commit (((Staged.ofRegs s.regs).skip used).linesOn px 1)).get i = (s.issue 2).regs.get i := by
  by_cases hkept : i = 9 ∨ i = 10 ∨ i = 11
  · rcases hkept with rfl | rfl | rfl <;> rfl
  · refine get_commit_of_header rfl ?_
    simp only [List.mem_cons, List.not_mem_nil, or_false, not_or] at hi hkept ⊢
    omega

theorem CommandEnd.of_scan {s t : State} (h : Ends s 2 t) : CommandEnd s 2 t := by
  rcases h.scan_cases with ⟨k, hk, rfl⟩ | ⟨k, hk, rfl⟩ | ⟨used, px, hpass, -, hused, -, -, rfl⟩
  · rcases scanFailure_eq_some hk with rfl | rfl
    · exact .fails .badOperand (by decide)
    · exact .fails .outputTooSmall (by decide)
  · exact .failsInLine k hk (.inl rfl)
  · obtain ⟨-, -, hpos, -⟩ := (scanFailure_eq_none_iff _).mp hpass
    rw [scannedState_eq_scansDone (s := s) hpos hused]
    exact .succeeds _ ((s.issue 2).regs.commit (((Staged.ofRegs s.regs).skip used).linesOn px 1)) (by decide) (by decide) rfl
      fun i _ hi => get_commit_scansDone s px used hi

/-- A word that is none of the decoding commands: a conversion, or an illegal word (R92). -/
theorem CommandEnd.of_conversion {s t : State} {c : Word} (h : Ends s c t) (h1 : c ≠ 1) (h2 : c ≠ 2) (h3 : c ≠ 3) : CommandEnd s c t := by
  have hissued := h.issued
  obtain ⟨hrun, hinputs⟩ := id hissued
  obtain ⟨u, hstep, hmove⟩ := engineStep_issued hrun rfl
  rw [← step_engine _ hinputs] at hstep
  have hkinds : earlyKinds c = [6] := by rw [earlyKinds, if_neg h1, if_neg h2, if_neg h3]
  cases hmove with
  | fails k hk =>
    obtain rfl : k = .badOperand := hk.resolve_right fun hscan => h2 hscan.1
    rw [hissued.raise_eq] at hstep
    obtain rfl := h.eq_of_reaches rfl (ReachesIn.of_step hstep)
    exact .fails _ (by rw [hkinds]; decide)
  | header thenScan hok =>
    have hcmd := hok.cmd
    cases thenScan with
    | false => exact absurd hcmd h1
    | true => exact absurd hcmd h3
  | scan hok => exact absurd (cmd_of_lineCommand hok.command) h2
  | converts bs n hlo hhi =>
    rw [State.finish_written _ _ hissued.disturbed_eq_false] at hstep
    obtain rfl := h.eq_of_reaches rfl (ReachesIn.of_step hstep)
    refine .succeeds _ { (s.issue c).regs with count := BitVec.ofNat 32 n } (le_trans (by decide) hlo) hhi rfl fun i _ hi => ?_
    rw [markedRegs, if_neg (not_or.mpr ⟨h1, h3⟩), if_neg h2, List.mem_singleton] at hi
    exact Regs.get_withCount_of_ne _ _ hi

theorem Ends.commandEnd {s t : State} {c : Word} (h : Ends s c t) : CommandEnd s c t := by
  by_cases h1 : c = 1
  · subst h1
    exact .of_hdrpEnd h.hdrp_cases
  by_cases h2 : c = 2
  · subst h2
    exact .of_scan h
  by_cases h3 : c = 3
  · subst h3
    rcases h.dhdr_cases with rfl | ⟨-, hend⟩
    · exact .fails .badOperand (by decide)
    · exact .of_dhdrEnd hend
  exact .of_conversion h h1 h2 h3

/-! ### O57, O58 and O59 -/

theorem failedInScanlines_errcode (s : State) (k : FailKind) : (failedInScanlines s k).regs.errcode = BitVec.ofNat 32 k.code := rfl

theorem toNat_failKind_number (k : FailKind) : (BitVec.ofNat 32 k.code : Word).toNat = k.code := by
  cases k <;> rfl

/-- Settles O57: a success writes only the registers marked for its command, as each end shows. -/
theorem successWritesMarked : Obligations.SuccessWritesMarked := by
  intro s c t h herr
  cases h.commandEnd with
  | fails k => exact absurd herr (failedState_errcode_ne_zero _ k)
  | failsInLine k => exact absurd herr (failedInScanlines_errcode_ne_zero _ k)
  | succeeds m regs hlo hhi hcmd hkeeps =>
    refine ⟨hcmd, rfl, hlo, hhi, fun i hi hmarked => ?_⟩
    simp only [List.mem_cons, List.not_mem_nil, or_false, not_or] at hi
    obtain ⟨h6, h7, h8⟩ := hi
    have hi : i ∉ [6, 7, 8] := by simp [h6, h7, h8]
    rw [Regs.get_withOutcome_of_ne _ _ h7 h8, hkeeps i hi hmarked, State.get_issue_of_notMem s c hi]

/-- The failure kinds of a command: those before any scanline, and those of a scanline where the command decodes one. -/
theorem mem_failureKinds {c : Word} {n : Nat} (h : n ∈ earlyKinds c ∨ ((n = 3 ∨ n = 4) ∧ (c = 2 ∨ c = 3))) :
    n ∈ (if c = 1 then [1, 2, 6] else if c = 2 then [3, 4, 5, 6] else if c = 3 then [1, 2, 3, 4, 5, 6] else [6]) := by
  rcases h with hearly | ⟨hline, rfl | rfl⟩
  · unfold earlyKinds at hearly
    split_ifs at hearly ⊢
    · exact hearly
    · exact List.mem_cons_of_mem _ (List.mem_cons_of_mem _ hearly)
    · simp only [List.mem_cons, List.not_mem_nil, or_false] at hearly ⊢
      omega
    · exact hearly
  · rcases hline with rfl | rfl <;> decide
  · rcases hline with rfl | rfl <;> decide

/-- Settles O58. -/
theorem failureKinds : Obligations.FailureKinds := by
  intro s c t h herr
  cases h.commandEnd with
  | fails k hk =>
    have hcode : (failedState (s.issue c) k).regs.errcode.toNat = k.code := toNat_failKind_number k
    rw [hcode]
    exact mem_failureKinds (.inl hk)
  | failsInLine k hk hc =>
    rw [failedInScanlines_errcode, toNat_failKind_number]
    refine mem_failureKinds (.inr ⟨?_, hc⟩)
    rcases hk with rfl | rfl
    · exact .inl rfl
    · exact .inr rfl
  | succeeds => exact absurd rfl herr

/-- Settles O59: outside a scanline a failure only reports its kind. -/
theorem earlyFailureKeepsMemory : Obligations.EarlyFailureKeepsMemory := by
  intro s c t h herr h3 h4
  cases h.commandEnd with
  | fails k => exact ⟨rfl, rfl⟩
  | failsInLine k hk =>
    rcases hk with rfl | rfl
    · exact absurd rfl h3
    · exact absurd rfl h4
  | succeeds => exact absurd rfl herr

end Sys2Proof.Machine
end

section
/-!
PROOFS. Every command ends (R310, R370): a bound on the steps a running command has left, which every step of the engine lowers, and O53.
-/

namespace Sys2Proof.Machine

/-- The outcomes of a command: it is idle, and done or failed (R28, R29). -/
def Ended (t : State) : Prop :=
  t.run = none ∧
    ((t.regs.status = 0b010 ∧ t.regs.errcode = 0) ∨
      (t.regs.status = 0b110 ∧ 1 ≤ t.regs.errcode.toNat ∧ t.regs.errcode.toNat ≤ 6))

theorem State.conclude_ended (s : State) (o : Option FailKind) (regs : Regs) : Ended (s.conclude o regs) :=
  ⟨s.conclude_run o regs, s.conclude_status_errcode o regs⟩

theorem State.finish_ended (s : State) (regs : Regs) : Ended (s.finish regs) := s.conclude_ended none regs

theorem State.raise_ended (s : State) (k : FailKind) : Ended (s.raise k) := by
  unfold State.raise
  split
  · exact State.conclude_ended _ _ _
  · exact State.conclude_ended _ _ _

/-- A bound on the steps that a running command has left: one for each source byte behind its cursor, and one more, with the header token and
the issue before them. -/
def stepsLeft (regs : Regs) (r : Run) : Nat :=
  match r.phase with
  | .issued => regs.srcLen.toNat + 2
  | .header _ _ => regs.srcLen.toNat + 1
  | .line _ _ => regs.srcLen.toNat - r.staged.pos.toNat + 1

/-- What a step of the engine brings a command that has at most `n + 1` steps left: its end, or at most `n` steps left. -/
def Progress (s : State) (n : Nat) (t : State) : Prop :=
  Ended t ∨ (t.regs = s.regs ∧ ∃ r, t.run = some r ∧ stepsLeft s.regs r ≤ n)

theorem IssueMove.progress {s t : State} (h : IssueMove s t) : Progress s (s.regs.srcLen.toNat + 1) t := by
  cases h with
  | fails k => exact .inl (s.raise_ended k)
  | header thenScan => exact .inr ⟨rfl, _, rfl, le_rfl⟩
  | scan => exact .inr ⟨rfl, _, rfl, Nat.succ_le_succ (Nat.sub_le ..)⟩
  | converts => exact .inl (State.finish_ended _ _)

theorem HeaderMove.progress {s t : State} {thenScan : Bool} {st : Staged} {d : Bool} (h : HeaderMove s thenScan st d t) :
    Progress s s.regs.srcLen.toNat t := by
  cases h with
  | fails k => exact .inl (s.raise_ended k)
  | tooSmall => exact .inl (s.raise_ended _)
  | image n h w hscan hn =>
    have hlt := s.regs.srcLen.isLt
    have hpos : (stageHeader st n h w).pos.toNat = n := (BitVec.toNat_ofNat n 32).trans (Nat.mod_eq_of_lt (by omega))
    have hleft : s.regs.srcLen.toNat - (stageHeader st n h w).pos.toNat + 1 ≤ s.regs.srcLen.toNat := by omega
    exact .inr ⟨rfl, _, rfl, hleft⟩
  | done => exact .inl (State.finish_ended _ _)

theorem LineMove.progress {s t : State} {rc : Option Nat} {lp : LinePos} {st : Staged} {d : Bool} {n : Nat} (h : LineMove s rc lp st d n t)
    (hok : LineOk s.regs rc lp st) (hpos : 1 ≤ n) (hn : n ≤ s.regs.srcLen.toNat - st.pos.toNat) :
    Progress s (s.regs.srcLen.toNat - st.pos.toNat) t := by
  have hskip := hok.toNat_pos_skip hn
  have hleft : s.regs.srcLen.toNat - (st.skip n).pos.toNat + 1 ≤ s.regs.srcLen.toNat - st.pos.toNat := by omega
  cases h with
  | mismatch => exact .inl (s.raise_ended _)
  | plane c tmp => exact .inr ⟨rfl, _, rfl, hleft⟩
  | group px sh => exact .inr ⟨rfl, _, rfl, hleft⟩
  | lineEnd px =>
    rcases endLine_cases rc { phase := .line rc lp, staged := (st.skip n).emitted px, disturbed := d }
        { s with mem := s.mem.writeBytes (emitAddr s.regs (st.skip n)) (pixelBytes px) } with ⟨m, rfl, heq⟩ | ⟨-, heq⟩
    · rw [heq]
      exact .inr ⟨rfl, _, rfl, hleft⟩
    · rw [heq]
      exact .inl (State.finish_ended _ _)

/-- Every step of the engine ends the command or lowers the bound. -/
theorem engineStep_progress {s : State} (h : Inv s) {r : Run} (hrun : s.run = some r) :
    ∃ t n, engineStep s = .next t ∧ n + 1 = stepsLeft s.regs r ∧ Progress s n t := by
  cases h.runningOk (hrun ▸ Option.some_ne_none r) with
  | issued st d hrun' =>
    obtain rfl := Option.some.inj (hrun.symm.trans hrun')
    obtain ⟨t, hstep, hmove⟩ := engineStep_issued hrun rfl
    exact ⟨t, _, hstep, rfl, hmove.progress⟩
  | header thenScan st d hrun' hok =>
    obtain rfl := Option.some.inj (hrun.symm.trans hrun')
    obtain ⟨t, hstep, hmove⟩ := engineStep_header hrun hok
    exact ⟨t, _, hstep, rfl, hmove.progress⟩
  | line rc lp st d hrun' hok =>
    obtain rfl := Option.some.inj (hrun.symm.trans hrun')
    rcases engineStep_line hrun hok with hstep | ⟨n, t, hpos, hn, hstep, hmove⟩
    · exact ⟨_, _, hstep, rfl, .inl (s.raise_ended _)⟩
    · exact ⟨t, _, hstep, rfl, hmove.progress hok hpos hn⟩

/-- A running command ends within its bound. -/
theorem inv_ends_within {n : Nat} {s : State} (h : Inv s) (hinputs : s.inputs = []) {r : Run} (hrun : s.run = some r)
    (hn : stepsLeft s.regs r ≤ n) : ∃ t, ReachesIn n s t ∧ Ended t := by
  induction n generalizing s r with
  | zero =>
    obtain ⟨t, m, -, hm, -⟩ := engineStep_progress h hrun
    omega
  | succ n ih =>
    obtain ⟨t, m, hstep, hm, hprogress⟩ := engineStep_progress h hrun
    rw [← step_engine s hinputs] at hstep
    have hfirst := ReachesIn.of_step hstep
    rcases hprogress with hended | ⟨hregs, r', hrun', hleft⟩
    · exact ⟨t, hfirst.mono (by omega), hended⟩
    · obtain ⟨u, hreach, hended⟩ := ih (stepKeepsInv s t h hstep) (inputs_of_step hinputs hstep) hrun' (by rw [hregs]; omega)
      exact ⟨u, (hfirst.trans hreach).mono (by omega), hended⟩

/-- Settles O53: the bound at the start is at most that of an issued command. -/
theorem everyCommandEnds : Obligations.EveryCommandEnds := by
  intro s h hinputs hrun
  obtain ⟨r, hrun⟩ := Option.ne_none_iff_exists'.mp hrun
  have hbound : stepsLeft s.regs r ≤ s.regs.srcLen.toNat + 2 := by
    unfold stepsLeft
    split <;> omega
  obtain ⟨t, ⟨k, hk, hsteps⟩, hidle, hended⟩ := inv_ends_within h hinputs hrun hbound
  exact ⟨k, t, hk, hsteps, hidle, hended⟩

end Sys2Proof.Machine
end

section
/-!
PROOFS. The arithmetic of the tone function (R264, R277): the search for the largest value bit by bit, the bounds on base-2 logarithms, and the
two comparisons that decide a threshold.
-/

namespace Sys2Proof.Machine

/-! ### The search bit by bit -/

/-- The weights of `k` bits, the highest first. -/
def bitWeights : Nat → List Nat
  | 0 => []
  | k + 1 => 2 ^ k :: bitWeights k

/-- The search from `n` over `k` bits for the last value with `p`. -/
def bitSearch (p : Nat → Bool) (k n : Nat) : Nat := (bitWeights k).foldl (fun n b => if p (n + b) then n + b else n) n

theorem bitSearch_succ (p : Nat → Bool) (k n : Nat) :
    bitSearch p (k + 1) n = bitSearch p k (if p (n + 2 ^ k) then n + 2 ^ k else n) := rfl

/-- The search stays where it began or finds a value with `p`, and what follows is without `p` or beyond its bits. -/
theorem bitSearch_spec (p : Nat → Bool) (k n : Nat) :
    (bitSearch p k n = n ∨ p (bitSearch p k n) = true) ∧
      (bitSearch p k n + 1 = n + 2 ^ k ∨ p (bitSearch p k n + 1) = false) := by
  induction k generalizing n with
  | zero => exact ⟨.inl rfl, .inl rfl⟩
  | succ k ih =>
    rw [bitSearch_succ]
    cases hp : p (n + 2 ^ k) with
    | true =>
      obtain ⟨hfound, hend⟩ := ih (n + 2 ^ k)
      rw [if_pos rfl]
      refine ⟨.inr (hfound.elim (fun heq => by rw [heq, hp]) id), hend.imp_left fun heq => ?_⟩
      rw [heq, pow_succ]
      ring
    | false =>
      obtain ⟨hfound, hend⟩ := ih n
      rw [if_neg Bool.false_ne_true]
      exact ⟨hfound, .inr (hend.elim (fun heq => by rw [heq, hp]) id)⟩

theorem bitSearch_lt (p : Nat → Bool) (k n : Nat) : bitSearch p k n < n + 2 ^ k := by
  induction k generalizing n with
  | zero => exact Nat.lt_succ_self n
  | succ k ih =>
    rw [bitSearch_succ]
    have hpow : 2 ^ (k + 1) = 2 ^ k + 2 ^ k := by ring
    have hpos := Nat.two_pow_pos k
    split
    · have := ih (n + 2 ^ k)
      omega
    · have := ih n
      omega

/-! ### Bounds on logarithms -/

theorem logFloor_eq_bitSearch (n : Nat) :
    logFloor n = bitSearch (fun e => decide (2 ^ e ≤ n ^ 2 ^ logBits)) logBits (2 ^ logBits * Nat.log2 n) := by
  have hweights : bitWeights logBits = (List.range logBits).map fun k => 2 ^ (logBits - 1 - k) := by decide
  rw [bitSearch, hweights, List.foldl_map]
  simp only [decide_eq_true_eq]
  rfl

theorem pow_logFloor_le {n : Nat} (hn : n ≠ 0) : 2 ^ logFloor n ≤ n ^ 2 ^ logBits := by
  obtain ⟨hfound, -⟩ := bitSearch_spec (fun e => decide (2 ^ e ≤ n ^ 2 ^ logBits)) logBits (2 ^ logBits * Nat.log2 n)
  rw [← logFloor_eq_bitSearch, decide_eq_true_eq] at hfound
  rcases hfound with heq | hle
  · rw [heq, Nat.mul_comm, pow_mul]
    exact Nat.pow_le_pow_left (Nat.log2_self_le hn) _
  · exact hle

theorem lt_pow_logFloor_succ (n : Nat) : n ^ 2 ^ logBits < 2 ^ (logFloor n + 1) := by
  obtain ⟨-, hend⟩ := bitSearch_spec (fun e => decide (2 ^ e ≤ n ^ 2 ^ logBits)) logBits (2 ^ logBits * Nat.log2 n)
  rw [← logFloor_eq_bitSearch, decide_eq_false_iff_not, Nat.not_le] at hend
  rcases hend with heq | hlt
  · have hexp : 2 ^ logBits * Nat.log2 n + 2 ^ logBits = (Nat.log2 n + 1) * 2 ^ logBits := by ring
    rw [heq, hexp, pow_mul]
    exact Nat.pow_lt_pow_left Nat.lt_log2_self (by decide)
  · exact hlt

theorem le_pow_logCeil (n : Nat) : n ^ 2 ^ logBits ≤ 2 ^ logCeil n := by
  unfold logCeil
  split
  case isTrue heq => exact heq.ge
  case isFalse => exact (lt_pow_logFloor_succ n).le

theorem logb_two_pow (k : Nat) : Real.logb 2 ((2 : ℝ) ^ k) = k := by
  rw [Real.logb_pow, Real.logb_self_eq_one one_lt_two, mul_one]

theorem logFloor_le_logb {n : Nat} (hn : n ≠ 0) : (logFloor n : ℝ) ≤ 2 ^ logBits * Real.logb 2 n := by
  have hpos : (0 : ℝ) < n := Nat.cast_pos.mpr (Nat.pos_of_ne_zero hn)
  have hle : (2 : ℝ) ^ logFloor n ≤ (n : ℝ) ^ 2 ^ logBits := by exact_mod_cast pow_logFloor_le hn
  have hlog := (Real.logb_le_logb one_lt_two (by positivity) (by positivity)).mpr hle
  rw [logb_two_pow, Real.logb_pow] at hlog
  exact_mod_cast hlog

theorem logb_le_logCeil {n : Nat} (hn : n ≠ 0) : 2 ^ logBits * Real.logb 2 n ≤ logCeil n := by
  have hpos : (0 : ℝ) < n := Nat.cast_pos.mpr (Nat.pos_of_ne_zero hn)
  have hle : (n : ℝ) ^ 2 ^ logBits ≤ (2 : ℝ) ^ logCeil n := by exact_mod_cast le_pow_logCeil n
  have hlog := (Real.logb_le_logb one_lt_two (by positivity) (by positivity)).mpr hle
  rw [logb_two_pow, Real.logb_pow] at hlog
  exact_mod_cast hlog

/-! ### The comparison of a threshold (R277) -/

/-- The difference of the logarithms of the two sides of a threshold, in units of `2^-149` of an octave, with `g` the gamma. -/
noncomputable def thresholdGap (m : Nat) (q : Int) (g d : Nat) : ℝ :=
  2 ^ 149 * Real.logb 2 m + q - g * (Real.logb 2 d - Real.logb 2 510)

theorem logFloor_gap_le {m d g : Nat} (hm : m ≠ 0) (hd : d ≠ 0) (q : Int) :
    ((2 ^ 149 * logFloor m + 2 ^ logBits * q - g * ((logCeil d : Int) - logFloor 510) : Int) : ℝ) ≤ 2 ^ logBits * thresholdGap m q g d := by
  have hleft := mul_le_mul_of_nonneg_left (logFloor_le_logb hm) (by positivity : (0 : ℝ) ≤ 2 ^ 149)
  have hright : (g : ℝ) * (2 ^ logBits * Real.logb 2 d - 2 ^ logBits * Real.logb 2 510) ≤ g * (logCeil d - logFloor 510) :=
    mul_le_mul_of_nonneg_left (sub_le_sub (logb_le_logCeil hd) (logFloor_le_logb (n := 510) (by decide))) (Nat.cast_nonneg g)
  push_cast [thresholdGap]
  linarith

theorem gap_le_logCeil {m d g : Nat} (hm : m ≠ 0) (hd : d ≠ 0) (q : Int) :
    2 ^ logBits * thresholdGap m q g d ≤ ((2 ^ 149 * logCeil m + 2 ^ logBits * q - g * ((logFloor d : Int) - logCeil 510) : Int) : ℝ) := by
  have hleft := mul_le_mul_of_nonneg_left (logb_le_logCeil hm) (by positivity : (0 : ℝ) ≤ 2 ^ 149)
  have hright : (g : ℝ) * (logFloor d - logCeil 510) ≤ g * (2 ^ logBits * Real.logb 2 d - 2 ^ logBits * Real.logb 2 510) :=
    mul_le_mul_of_nonneg_left (sub_le_sub (logFloor_le_logb hd) (logb_le_logCeil (n := 510) (by decide))) (Nat.cast_nonneg g)
  push_cast [thresholdGap]
  linarith

/-- Where the bounds on the logarithms decide the comparison, they decide it right, and the two sides differ. -/
theorem logReaches_sound {m d : Nat} (hm : m ≠ 0) (hd : d ≠ 0) {q : Int} {g : Nat} {b : Bool} (h : logReaches m q g d = some b) :
    (b = true ∧ 0 < thresholdGap m q g d) ∨ (b = false ∧ thresholdGap m q g d < 0) := by
  have hscale : (0 : ℝ) < 2 ^ logBits := by positivity
  unfold logReaches at h
  dsimp only at h
  split_ifs at h with habove hbelow
  · cases h
    refine .inl ⟨rfl, pos_of_mul_pos_right (lt_of_lt_of_le ?_ (logFloor_gap_le hm hd q)) hscale.le⟩
    exact Int.cast_pos.mpr (Int.sub_pos.mpr habove)
  · cases h
    refine .inr ⟨rfl, neg_of_mul_neg_right (lt_of_le_of_lt (gap_le_logCeil hm hd q) ?_) hscale.le⟩
    exact Int.cast_lt_zero.mpr (Int.sub_neg_of_lt hbelow)

theorem logb_mul_two_pow {a : Nat} (ha : a ≠ 0) (e : Nat) : Real.logb 2 ((a * 2 ^ e : ℕ) : ℝ) = Real.logb 2 a + e := by
  have ha' : (a : ℝ) ≠ 0 := Nat.cast_ne_zero.mpr ha
  push_cast
  rw [Real.logb_mul ha' (by positivity), logb_two_pow]

theorem logb_natCast_pow (n a : Nat) : Real.logb 2 ((n ^ a : ℕ) : ℝ) = a * Real.logb 2 n := by
  rw [Nat.cast_pow, Real.logb_pow]

theorem logb_pow_mul_pow {m c : Nat} (hm : m ≠ 0) (hc : c ≠ 0) (a b : Nat) :
    Real.logb 2 ((m ^ a * c ^ b : ℕ) : ℝ) = a * Real.logb 2 m + b * Real.logb 2 c := by
  rw [Nat.cast_mul, Real.logb_mul (Nat.cast_ne_zero.mpr (pow_ne_zero a hm)) (Nat.cast_ne_zero.mpr (pow_ne_zero b hc)), logb_natCast_pow,
    logb_natCast_pow]

theorem natCast_div_mul {n k : Nat} (h : k ∣ n) (hk : k ≠ 0) : ((n / k : ℕ) : ℝ) * k = n := by
  rw [Nat.cast_div h (Nat.cast_ne_zero.mpr hk), div_mul_cancel₀ _ (Nat.cast_ne_zero.mpr hk)]

theorem dvd_toNat {k : Nat} {q : Int} (h : k ∣ q.natAbs) : k ∣ q.toNat := by
  rcases le_total 0 q with hq | hq
  · rwa [← Int.natAbs_of_nonneg hq, Int.toNat_natCast]
  · rw [Int.toNat_of_nonpos hq]
    exact Nat.dvd_zero k

/-- The logarithms of the two integers that are compared, whose exponents share the divisor `k`. -/
theorem thresholdGap_eq {m d k : Nat} (hm : m ≠ 0) (hd : d ≠ 0) {q : Int} {g : Nat} (hk : k ≠ 0) (hpow : k ∣ 2 ^ 149) (hg : k ∣ g)
    (hq : k ∣ q.natAbs) :
    thresholdGap m q g d =
      k * (Real.logb 2 ((m ^ (2 ^ 149 / k) * 510 ^ (g / k) * 2 ^ (q.toNat / k) : ℕ) : ℝ) -
        Real.logb 2 ((d ^ (g / k) * 2 ^ ((-q).toNat / k) : ℕ) : ℝ)) := by
  have hqneg : k ∣ (-q).natAbs := by rwa [Int.natAbs_neg]
  have hsplit : (q : ℝ) = (q.toNat : ℝ) - ((-q).toNat : ℝ) := by
    have hint : q = (q.toNat : ℤ) - ((-q).toNat : ℤ) := by omega
    exact_mod_cast congrArg (Int.cast (R := ℝ)) hint
  have hpow' : ((2 ^ 149 / k : ℕ) : ℝ) * k = 2 ^ 149 := by rw [natCast_div_mul hpow hk]; norm_num
  have hg' := natCast_div_mul hg hk
  have hpos' := natCast_div_mul (dvd_toNat hq) hk
  have hneg' := natCast_div_mul (dvd_toNat hqneg) hk
  rw [logb_mul_two_pow (by positivity), logb_mul_two_pow (by positivity), logb_pow_mul_pow hm (by decide), logb_natCast_pow, thresholdGap,
    hsplit, ← hpow', ← hpos', ← hneg']
  conv_lhs => rw [← hg']
  push_cast
  ring

/-- The comparison by exact powers decides the sign of the difference. -/
theorem powReaches_iff {m d : Nat} (hm : m ≠ 0) (hd : d ≠ 0) (strict : Bool) (q : Int) (g : Nat) :
    powReaches strict m q g d = true ↔ if strict = true then 0 < thresholdGap m q g d else 0 ≤ thresholdGap m q g d := by
  unfold powReaches
  dsimp only
  have hk : Nat.gcd (2 ^ 149) (Nat.gcd g q.natAbs) ≠ 0 := Nat.gcd_ne_zero_left (by positivity)
  have hgap := thresholdGap_eq hm hd hk (Nat.gcd_dvd_left ..) ((Nat.gcd_dvd_right ..).trans (Nat.gcd_dvd_left ..))
    ((Nat.gcd_dvd_right ..).trans (Nat.gcd_dvd_right ..))
  generalize Nat.gcd (2 ^ 149) (Nat.gcd g q.natAbs) = k at hk hgap ⊢
  have hkpos : (0 : ℝ) < k := Nat.cast_pos.mpr (Nat.pos_of_ne_zero hk)
  have hlhs : 0 < m ^ (2 ^ 149 / k) * 510 ^ (g / k) * 2 ^ (q.toNat / k) := by positivity
  have hrhs : 0 < d ^ (g / k) * 2 ^ ((-q).toNat / k) := by positivity
  rw [hgap]
  cases strict with
  | true =>
    rw [if_pos rfl, if_pos rfl, decide_eq_true_iff, mul_pos_iff_of_pos_left hkpos, sub_pos,
      Real.logb_lt_logb_iff one_lt_two (Nat.cast_pos.mpr hrhs) (Nat.cast_pos.mpr hlhs), Nat.cast_lt]
  | false =>
    rw [if_neg Bool.false_ne_true, if_neg Bool.false_ne_true, decide_eq_true_iff, mul_nonneg_iff_of_pos_left hkpos, sub_nonneg,
      Real.logb_le_logb one_lt_two (Nat.cast_pos.mpr hrhs) (Nat.cast_pos.mpr hlhs), Nat.cast_le]

end Sys2Proof.Machine
end

section
/-!
PROOFS. The tone function against the real power (R263, R264, R273): what a threshold says of the real value, and the byte that the search
ends in.
-/

namespace Sys2Proof.Machine

/-! ### The real value of the tone function -/

/-- `255 * (v * ef)^(1 / gamma)` with the real power, before the clamp and the rounding (R264). -/
noncomputable def toneValue (exposure gamma : Word) (v : ℝ) : ℝ :=
  255 * (v * (2 : ℝ) ^ ((f32Units exposure : ℝ) / 2 ^ 149 - 1)) ^ (1 / ((f32Units gamma : ℝ) / 2 ^ 149))

theorem isTone_iff (exposure gamma : Word) (v : ℝ) (n : Nat) :
    IsTone exposure gamma v n ↔ IsRne (max 0 (min 255 (toneValue exposure gamma v))) n := by
  constructor
  · exact fun h => h _ _ rfl rfl
  · rintro h ex ga rfl rfl
    exact h

/-- The gamma of legal parameters is a positive number of units (R261). -/
theorem f32Units_gamma {exposure gamma : Word} (h : toneParamsOk exposure gamma = true) :
    f32Units gamma = ((f32Magnitude gamma).units : Int) ∧ (f32Magnitude gamma).units ≠ 0 := by
  simp only [toneParamsOk, Bool.and_eq_true, Bool.not_eq_true', decide_eq_true_eq] at h
  obtain ⟨⟨-, hsign⟩, hunits⟩ := h
  exact ⟨by rw [f32Units, hsign, if_neg Bool.false_ne_true], hunits⟩

theorem toneValue_zero {exposure gamma : Word} (h : toneParamsOk exposure gamma = true) : toneValue exposure gamma 0 = 0 := by
  obtain ⟨hgamma, hne⟩ := f32Units_gamma h
  have hg : ((f32Magnitude gamma).units : ℝ) ≠ 0 := Nat.cast_ne_zero.mpr hne
  rw [toneValue, hgamma, zero_mul, Real.zero_rpow, mul_zero]
  rw [Int.cast_natCast]
  positivity

/-- The tone value against a threshold, by their logarithms. -/
theorem logb_toneValue_sub {exposure gamma : Word} (h : toneParamsOk exposure gamma = true) {x : Scaled} (hm : x.mant ≠ 0) {d : Nat}
    (hd : d ≠ 0) :
    Real.logb 2 (toneValue exposure gamma ((x.units : ℝ) / 2 ^ 149)) - Real.logb 2 ((d : ℝ) / 2) =
      thresholdGap x.mant (exposedExponent exposure x) (f32Magnitude gamma).units d / (f32Magnitude gamma).units := by
  obtain ⟨hgamma, hne⟩ := f32Units_gamma h
  have hg : ((f32Magnitude gamma).units : ℝ) ≠ 0 := Nat.cast_ne_zero.mpr hne
  have hm' : (0 : ℝ) < x.mant := Nat.cast_pos.mpr (Nat.pos_of_ne_zero hm)
  have hd' : (d : ℝ) ≠ 0 := Nat.cast_ne_zero.mpr hd
  have htwo : Real.logb 2 2 = 1 := Real.logb_self_eq_one one_lt_two
  have h510 : Real.logb 2 510 = Real.logb 2 255 + 1 := by
    rw [← htwo, ← Real.logb_mul (by norm_num) two_ne_zero]
    norm_num
  have hexposed : Real.logb 2 ((x.mant : ℝ) * (2 : ℝ) ^ ((x.shift : ℤ) - 149) * (2 : ℝ) ^ ((f32Units exposure : ℝ) / 2 ^ 149 - 1)) =
      Real.logb 2 x.mant + ((x.shift : ℝ) - 149) + ((f32Units exposure : ℝ) / 2 ^ 149 - 1) := by
    rw [Real.logb_mul (by positivity) (by positivity), Real.logb_mul (by positivity) (by positivity), ← Real.rpow_intCast,
      Real.logb_rpow two_pos (by norm_num), Real.logb_rpow two_pos (by norm_num)]
    push_cast
    ring
  rw [toneValue, hgamma, Scaled.units_div, Real.logb_mul (by norm_num) (by positivity), Real.logb_rpow_eq_mul_logb_of_pos (by positivity),
    hexposed, Real.logb_div hd' two_ne_zero, htwo, thresholdGap, exposedExponent, h510]
  push_cast
  field_simp
  ring

theorem half_le_toneValue_iff {exposure gamma : Word} (h : toneParamsOk exposure gamma = true) {x : Scaled} (hm : x.mant ≠ 0) {d : Nat}
    (hd : d ≠ 0) :
    ((d : ℝ) / 2 ≤ toneValue exposure gamma ((x.units : ℝ) / 2 ^ 149) ↔
        0 ≤ thresholdGap x.mant (exposedExponent exposure x) (f32Magnitude gamma).units d) ∧
      ((d : ℝ) / 2 < toneValue exposure gamma ((x.units : ℝ) / 2 ^ 149) ↔
        0 < thresholdGap x.mant (exposedExponent exposure x) (f32Magnitude gamma).units d) := by
  obtain ⟨-, hne⟩ := f32Units_gamma h
  have hg : (0 : ℝ) < (f32Magnitude gamma).units := Nat.cast_pos.mpr (Nat.pos_of_ne_zero hne)
  have hm' : (0 : ℝ) < x.mant := Nat.cast_pos.mpr (Nat.pos_of_ne_zero hm)
  have hd' : (0 : ℝ) < d := Nat.cast_pos.mpr (Nat.pos_of_ne_zero hd)
  have hvalue : 0 < toneValue exposure gamma ((x.units : ℝ) / 2 ^ 149) := by
    rw [toneValue, Scaled.units_div]
    positivity
  have hgap := logb_toneValue_sub h hm hd
  constructor
  · rw [← Real.logb_le_logb one_lt_two (by positivity) hvalue, ← sub_nonneg, hgap, le_div_iff₀ hg, zero_mul]
  · rw [← Real.logb_lt_logb_iff one_lt_two (by positivity) hvalue, ← sub_pos, hgap, div_pos_iff_of_pos_right hg]

/-! ### The thresholds (R264, R273) -/

/-- The real value `y` rounds to `n` or more, ties going to the even integer. -/
def RoundsTo (y : ℝ) (n : Nat) : Prop := if n % 2 = 1 then (n : ℝ) - 1 / 2 < y else (n : ℝ) - 1 / 2 ≤ y

theorem not_roundsTo_zero {n : Nat} (hn : 1 ≤ n) : ¬ RoundsTo 0 n := by
  have hn' : (1 : ℝ) ≤ n := Nat.one_le_cast.mpr hn
  unfold RoundsTo
  split_ifs <;> linarith

/-- Where the threshold is met with room on either side, ties do not matter. -/
theorem roundsTo_of_lt {y : ℝ} {n : Nat} (h : (n : ℝ) - 1 / 2 < y) : RoundsTo y n := by
  unfold RoundsTo
  split_ifs
  · exact h
  · exact h.le

theorem not_roundsTo_of_lt {y : ℝ} {n : Nat} (h : y < (n : ℝ) - 1 / 2) : ¬ RoundsTo y n := by
  unfold RoundsTo
  split_ifs
  · exact h.not_gt
  · exact h.not_ge

/-- The model's threshold test is the real one. -/
theorem toneReaches_iff {exposure gamma : Word} (h : toneParamsOk exposure gamma = true) (x : Scaled) {n : Nat} (hn : 1 ≤ n) :
    toneReaches exposure gamma x n = true ↔ RoundsTo (toneValue exposure gamma ((x.units : ℝ) / 2 ^ 149)) n := by
  by_cases hm : x.mant = 0
  · have hzero : (x.units : ℝ) / 2 ^ 149 = 0 := by rw [Scaled.units_div, hm, Nat.cast_zero, zero_mul]
    rw [hzero, toneValue_zero h, toneReaches, if_pos hm]
    exact iff_of_false Bool.false_ne_true (not_roundsTo_zero hn)
  have hd : 2 * n - 1 ≠ 0 := by omega
  have hhalf : ((2 * n - 1 : ℕ) : ℝ) / 2 = (n : ℝ) - 1 / 2 := by
    rw [Nat.cast_sub (by omega)]
    push_cast
    ring
  obtain ⟨hle, hlt⟩ := half_le_toneValue_iff h hm hd
  rw [hhalf] at hle hlt
  rw [toneReaches, if_neg hm]
  dsimp only
  cases hlog : logReaches x.mant (exposedExponent exposure x) (f32Magnitude gamma).units (2 * n - 1) with
  | some b =>
    rw [Option.getD_some]
    rcases logReaches_sound hm hd hlog with ⟨rfl, hpos⟩ | ⟨rfl, hneg⟩
    · exact iff_of_true rfl (roundsTo_of_lt (hlt.mpr hpos))
    · exact iff_of_false Bool.false_ne_true (not_roundsTo_of_lt (not_le.mp fun hge => hneg.not_ge (hle.mp hge)))
  | none =>
    rw [Option.getD_none, powReaches_iff hm hd, ← hle, ← hlt]
    simp only [decide_eq_true_eq, RoundsTo]

/-! ### The byte (R264) -/

theorem toneByte_eq_bitSearch (exposure gamma : Word) (x : Scaled) :
    (toneByte exposure gamma x).toNat = bitSearch (toneReaches exposure gamma x) 8 0 := by
  have hlt := bitSearch_lt (toneReaches exposure gamma x) 8 0
  exact (BitVec.toNat_ofNat _ 8).trans (Nat.mod_eq_of_lt (lt_of_lt_of_eq hlt (Nat.zero_add _)))

/-- The byte is the last value that the channel rounds to or above. -/
theorem toneByte_spec {exposure gamma : Word} (h : toneParamsOk exposure gamma = true) (x : Scaled) :
    ((toneByte exposure gamma x).toNat = 0 ∨
        RoundsTo (toneValue exposure gamma ((x.units : ℝ) / 2 ^ 149)) (toneByte exposure gamma x).toNat) ∧
      ((toneByte exposure gamma x).toNat = 255 ∨
        ¬ RoundsTo (toneValue exposure gamma ((x.units : ℝ) / 2 ^ 149)) ((toneByte exposure gamma x).toNat + 1)) := by
  obtain ⟨hfound, hend⟩ := bitSearch_spec (toneReaches exposure gamma x) 8 0
  rw [← toneByte_eq_bitSearch] at hfound hend
  constructor
  · rcases Nat.eq_zero_or_pos (toneByte exposure gamma x).toNat with hzero | hpos
    · exact .inl hzero
    · exact .inr ((toneReaches_iff h x hpos).mp (hfound.resolve_left hpos.ne'))
  · refine hend.imp (fun heq => by omega) fun hfalse hrounds => ?_
    rw [(toneReaches_iff h x (Nat.le_add_left _ _)).mpr hrounds] at hfalse
    cases hfalse

theorem roundsTo_le {y : ℝ} {n : Nat} (h : RoundsTo y n) : (n : ℝ) - 1 / 2 ≤ y := by
  unfold RoundsTo at h
  split_ifs at h
  · exact h.le
  · exact h

theorem roundsTo_lt_of_odd {y : ℝ} {n : Nat} (h : RoundsTo y n) (hodd : n % 2 = 1) : (n : ℝ) - 1 / 2 < y := by
  rwa [RoundsTo, if_pos hodd] at h

theorem not_roundsTo_le {y : ℝ} {n : Nat} (h : ¬ RoundsTo y n) : y ≤ (n : ℝ) - 1 / 2 := not_lt.mp fun hlt => h (roundsTo_of_lt hlt)

theorem not_roundsTo_lt_of_even {y : ℝ} {n : Nat} (h : ¬ RoundsTo y n) (heven : ¬ n % 2 = 1) : y < (n : ℝ) - 1 / 2 := by
  rwa [RoundsTo, if_neg heven, not_le] at h

/-- Within half a step of an integer, and strictly for an odd one, a value rounds to it. -/
theorem isRne_of_bounds {y : ℝ} {n : Nat} (hlo : (n : ℝ) - 1 / 2 ≤ y) (hhi : y ≤ (n : ℝ) + 1 / 2)
    (hodd : n % 2 = 1 → (n : ℝ) - 1 / 2 < y ∧ y < (n : ℝ) + 1 / 2) : IsRne y n := by
  refine ⟨abs_le.mpr ⟨by linarith, by linarith⟩, fun htie => Nat.even_iff.mpr ?_⟩
  by_contra hne
  obtain ⟨hlo', hhi'⟩ := hodd (by omega)
  exact (abs_lt.mpr ⟨by linarith, by linarith⟩).ne htie

/-- The last byte that a value rounds to or above is the value clamped and rounded to nearest, ties to even. -/
theorem isRne_of_roundsTo {y : ℝ} {n : Nat} (hn : n ≤ 255) (hlo : n = 0 ∨ RoundsTo y n) (hhi : n = 255 ∨ ¬ RoundsTo y (n + 1)) :
    IsRne (max 0 (min 255 y)) n := by
  have hn' : (n : ℝ) ≤ 255 := by exact_mod_cast hn
  have hcast : ((n + 1 : ℕ) : ℝ) - 1 / 2 = n + 1 / 2 := by push_cast; ring
  refine isRne_of_bounds ?_ ?_ fun hodd => ⟨?_, ?_⟩
  · rcases hlo with rfl | hrounds
    · exact le_max_of_le_left (by norm_num)
    · exact le_max_of_le_right (le_min (by linarith) (roundsTo_le hrounds))
  · refine max_le (by positivity) ?_
    rcases hhi with rfl | hrounds
    · exact min_le_of_left_le (by norm_num)
    · exact min_le_of_right_le ((not_roundsTo_le hrounds).trans hcast.le)
  · rcases hlo with rfl | hrounds
    · exact lt_max_of_lt_left (by norm_num)
    · exact lt_max_of_lt_right (lt_min (by linarith) (roundsTo_lt_of_odd hrounds hodd))
  · refine max_lt (by positivity) ?_
    rcases hhi with rfl | hrounds
    · exact min_lt_of_left_lt (by norm_num)
    · exact min_lt_of_right_lt ((not_roundsTo_lt_of_even hrounds (by omega)).trans_eq hcast)

/-- Settles O42: the search ends in the byte that the rounding asks for. -/
theorem toneByteIsRoundedPower : Obligations.ToneByteIsRoundedPower := by
  intro exposure gamma x v h hv
  obtain rfl := (isUnits_natCast_iff x.units v).mp hv
  obtain ⟨hlo, hhi⟩ := toneByte_spec h x
  rw [isTone_iff]
  exact isRne_of_roundsTo (Nat.le_of_lt_succ (toneByte exposure gamma x).isLt) hlo hhi

end Sys2Proof.Machine
end

section
/-!
PROOFS. The two tone mappers and the laws of the tone function (R263 to R265, R270, R275, R276), from the byte's characterisation by the real
power.
-/

namespace Sys2Proof.Machine

/-! ### Monotonicity (R264, R275) -/

theorem RoundsTo.of_le {y z : ℝ} {n : Nat} (h : RoundsTo y n) (hyz : y ≤ z) : RoundsTo z n := by
  unfold RoundsTo at h ⊢
  split_ifs at h ⊢
  · exact h.trans_le hyz
  · exact h.trans hyz

theorem RoundsTo.of_lt {y : ℝ} {m n : Nat} (h : RoundsTo y n) (hmn : m < n) : RoundsTo y m := by
  have hcast : (m : ℝ) + 1 ≤ n := by exact_mod_cast hmn
  have hle := roundsTo_le h
  exact roundsTo_of_lt (by linarith)

theorem toneValue_mono {ex1 ex2 gamma : Word} (hex : f32Units ex1 ≤ f32Units ex2) {v w : ℝ} (hv : 0 ≤ v) (hvw : v ≤ w)
    (hgamma : 0 ≤ f32Units gamma) : toneValue ex1 gamma v ≤ toneValue ex2 gamma w := by
  have hex' : (f32Units ex1 : ℝ) ≤ f32Units ex2 := by exact_mod_cast hex
  have hgamma' : (0 : ℝ) ≤ f32Units gamma := by exact_mod_cast hgamma
  have hpow : (2 : ℝ) ^ ((f32Units ex1 : ℝ) / 2 ^ 149 - 1) ≤ (2 : ℝ) ^ ((f32Units ex2 : ℝ) / 2 ^ 149 - 1) :=
    Real.rpow_le_rpow_of_exponent_le one_le_two (by gcongr)
  have hexposed : v * (2 : ℝ) ^ ((f32Units ex1 : ℝ) / 2 ^ 149 - 1) ≤ w * (2 : ℝ) ^ ((f32Units ex2 : ℝ) / 2 ^ 149 - 1) :=
    mul_le_mul hvw hpow (by positivity) (hv.trans hvw)
  have hroot := Real.rpow_le_rpow (by positivity) hexposed (by positivity : 0 ≤ 1 / ((f32Units gamma : ℝ) / 2 ^ 149))
  exact mul_le_mul_of_nonneg_left hroot (by norm_num)

/-- Settles O43: a larger value rounds to every byte that a smaller one does. -/
theorem toneMonotone : Obligations.ToneMonotone := by
  intro ex1 ex2 gamma x y h1 h2 hex hxy
  obtain ⟨hfound, -⟩ := toneByte_spec h1 x
  obtain ⟨-, hend⟩ := toneByte_spec h2 y
  obtain ⟨hgamma, -⟩ := f32Units_gamma h1
  have hunits : (x.units : ℝ) / 2 ^ 149 ≤ (y.units : ℝ) / 2 ^ 149 := by gcongr
  have hvalue := toneValue_mono (gamma := gamma) hex (by positivity) hunits (by rw [hgamma]; exact Int.natCast_nonneg _)
  have hlt1 := (toneByte ex1 gamma x).isLt
  by_contra hgt
  have hlt := not_le.mp hgt
  have hrounds := (hfound.resolve_left (by omega)).of_le hvalue
  have hnext : RoundsTo (toneValue ex2 gamma ((y.units : ℝ) / 2 ^ 149)) ((toneByte ex2 gamma y).toNat + 1) := by
    rcases Nat.lt_or_eq_of_le (Nat.succ_le_of_lt hlt) with hless | heq
    · exact hrounds.of_lt hless
    · rwa [← heq] at hrounds
  exact hend.resolve_left (by omega) hnext

/-! ### The channel counts by its value alone (R265) -/

theorem toneByte_congr {exposure gamma : Word} (h : toneParamsOk exposure gamma = true) {x y : Scaled} (hxy : x.units = y.units) :
    toneByte exposure gamma x = toneByte exposure gamma y :=
  BitVec.eq_of_toNat_eq
    (le_antisymm (toneMonotone _ _ _ _ _ h h le_rfl hxy.le) (toneMonotone _ _ _ _ _ h h le_rfl hxy.ge))

/-- The sanitised value of a pattern without sign that is finite is its value (R13). -/
theorem san_units_of_denotes {w : Word} {units : Nat} (h : denotes w units) : (san w).units = units := by
  obtain ⟨hlt, hunits⟩ := h
  have hsign : f32Sign w = false := (f32Sign_eq_false_iff w).mpr (by omega)
  have hfinite : f32Exponent w ≠ 255 := by
    unfold f32Exponent
    omega
  rw [f32Units, hsign, if_neg Bool.false_ne_true] at hunits
  rw [san_of_finite hsign hfinite]
  exact_mod_cast hunits

/-- Settles O45: `RGBE2F` is exact, and the tone function looks at the value alone. -/
theorem rgbeToneIsFloatTone : Obligations.RgbeToneIsFloatTone := by
  intro exposure gamma p h
  obtain ⟨hr, hg, hb⟩ := denotes_rgbeToFloat p
  have hr' := toneByte_congr h (x := rgbeChannel p.r p.e) (san_units_of_denotes hr).symm
  have hg' := toneByte_congr h (x := rgbeChannel p.g p.e) (san_units_of_denotes hg).symm
  have hb' := toneByte_congr h (x := rgbeChannel p.b p.e) (san_units_of_denotes hb).symm
  rw [rgbeToLdr, floatToLdr, hr', hg', hb']

/-! ### Gamma 1 and exposure 1 (R276) -/

/-- With gamma 1 and exposure 1 nothing but the factor 255 is left. -/
theorem toneValue_one (v : ℝ) : toneValue 0x3F800000 0x3F800000 v = 255 * v := by
  have hone : (f32Units 0x3F800000 : ℝ) / 2 ^ 149 = 1 := by
    have hunits : f32Units 0x3F800000 = 2 ^ 149 := by decide
    rw [hunits]
    norm_num
  rw [toneValue, hone, sub_self, Real.rpow_zero, mul_one, div_one, Real.rpow_one]

/-- Settles O44. -/
theorem gammaOneIsLinear : Obligations.GammaOneIsLinear := by
  intro w x hx
  have htone := toneByteIsRoundedPower 0x3F800000 0x3F800000 (san w) x (by decide) hx
  rwa [isTone_iff, toneValue_one] at htone

/-! ### The two commands -/

theorem read_of_readBytes_ldr {m : Memory} {a : Nat} {p : Ldr} (h : m.readBytes a 4 = p.bytes) :
    m.read a = p.r ∧ m.read (a + 1) = p.g ∧ m.read (a + 2) = p.b ∧ m.read (a + 3) = p.a := by
  have hlist : [m.read a, m.read (a + 1), m.read (a + 2), m.read (a + 3)] = [p.r, p.g, p.b, p.a] := h
  simpa using hlist

/-- A channel of a pixel that a tone mapper reads, through the tone function. -/
theorem isTone_rgbeChannel {exposure gamma : Word} (h : toneParamsOk exposure gamma = true) (m e : Byte) :
    IsTone exposure gamma (m.toNat * (2 : ℝ) ^ ((e.toNat : ℤ) - 136)) (toneByte exposure gamma (rgbeChannel m e)).toNat := by
  refine toneByteIsRoundedPower exposure gamma (rgbeChannel m e) _ h ((isUnits_natCast_iff _ _).mpr ?_)
  have hshift : ((e.toNat + 13 : ℕ) : ℤ) - 149 = (e.toNat : ℤ) - 136 := by push_cast; ring
  rw [Scaled.units_div, rgbeChannel, hshift]

/-- Settles O39: the frame of a conversion, and each channel of its pixels. -/
theorem rgbe2ldrResult : Obligations.Rgbe2ldrResult := by
  intro s hs hparams
  obtain ⟨t, hexec, hdone, hblocks⟩ := hs.exec_spec (i := .rgbe2ldr)
    (pixel := fun m a => (rgbeToLdr s.regs.exposure s.regs.gamma (m.rgbeAt a)).bytes) rfl hparams fun _ _ => Ldr.bytes_length _
  refine ⟨t, hexec, hdone, fun i hi => ?_⟩
  intro p d scale
  obtain ⟨hr, hg, hb, ha⟩ := read_of_readBytes_ldr (hblocks i hi)
  rw [hr, hg, hb, ha]
  exact ⟨isTone_rgbeChannel hparams p.r p.e, isTone_rgbeChannel hparams p.g p.e, isTone_rgbeChannel hparams p.b p.e, rfl⟩

/-- Settles O40. -/
theorem f2ldrResult : Obligations.F2ldrResult := by
  intro s hs hparams
  obtain ⟨t, hexec, hdone, hblocks⟩ := hs.exec_spec (i := .f2ldr)
    (pixel := fun m a => (floatToLdr s.regs.exposure s.regs.gamma (m.floatAt a)).bytes) rfl hparams fun _ _ => Ldr.bytes_length _
  refine ⟨t, hexec, hdone, fun i hi r g b => ?_⟩
  intro q d hr' hg' hb'
  obtain ⟨hr, hg, hb, ha⟩ := read_of_readBytes_ldr (hblocks i hi)
  rw [hr, hg, hb, ha]
  exact ⟨toneByteIsRoundedPower _ _ _ _ hparams hr', toneByteIsRoundedPower _ _ _ _ hparams hg',
    toneByteIsRoundedPower _ _ _ _ hparams hb', rfl⟩

end Sys2Proof.Machine
end

section
/-!
PROOFS. The round trips of the converters (R229, R237): `F2RGBE` after `RGBE2F`, and the error of `RGB9E52F` after `F2RGB9E5`.
-/

namespace Sys2Proof.Machine

/-! ### `RGB9E52F` after `F2RGB9E5` (R237) -/

/-- Rounding half up is off by at most half a step. -/
theorem two_mul_abs_rhuDiv_sub_le (n k : Nat) : 2 * |((rhuDiv n k * 2 ^ k : ℕ) : ℤ) - (n : ℤ)| ≤ ((2 ^ k : ℕ) : ℤ) := by
  have hdouble : 2 ^ (k + 1) = 2 * 2 ^ k := by ring
  have hle : rhuDiv n k * 2 ^ (k + 1) ≤ 2 * n + 2 ^ k := Nat.div_mul_le_self _ _
  have hlt : 2 * n + 2 ^ k < (rhuDiv n k + 1) * 2 ^ (k + 1) :=
    (Nat.div_lt_iff_lt_mul (Nat.two_pow_pos _)).mp (Nat.lt_succ_self (rhuDiv n k))
  have hprod : rhuDiv n k * 2 ^ (k + 1) = 2 * (rhuDiv n k * 2 ^ k) := by rw [hdouble]; ring
  rw [Nat.add_mul, Nat.one_mul] at hlt
  have hbound : |2 * (((rhuDiv n k * 2 ^ k : ℕ) : ℤ) - n)| ≤ ((2 ^ k : ℕ) : ℤ) := by
    generalize rhuDiv n k * 2 ^ k = c at *
    exact abs_le.mpr ⟨by omega, by omega⟩
  rwa [abs_mul, abs_two] at hbound

/-- One channel there and back. -/
theorem rgb9e5_channel_error {d : Word} {c m e k : Nat} (hd : denotes d (m * 2 ^ (e + 125))) (hm : m = rhuDiv c k) (hk : e + 125 = k) :
    2 * |f32Units d - (c : ℤ)| ≤ ((2 ^ (e + 125) : ℕ) : ℤ) := by
  obtain ⟨-, hunits⟩ := hd
  rw [hunits, hm, hk]
  exact two_mul_abs_rhuDiv_sub_le c k

/-- Settles O47: the fields round half up, and their values are exact. -/
theorem rgb9e5RoundTripError : Obligations.Rgb9e5RoundTripError := by
  intro p u q near
  obtain ⟨n, he, hr9, hg9, hb9⟩ : ∃ n, e5 u = finalExponent n ∧ r9 u = rhuDiv (min (san p.r).units rgb9e5Clamp) (125 + finalExponent n) ∧
      g9 u = rhuDiv (min (san p.g).units rgb9e5Clamp) (125 + finalExponent n) ∧
      b9 u = rhuDiv (min (san p.b).units rgb9e5Clamp) (125 + finalExponent n) :=
    ⟨_, fields_floatToRgb9e5 (p := p) rfl rfl rfl rfl⟩
  obtain ⟨hr, hg, hb⟩ := denotes_rgb9e5ToFloat u
  have hk : e5 u + 125 = 125 + finalExponent n := by rw [he, Nat.add_comm]
  exact ⟨rgb9e5_channel_error hr hr9 hk, rgb9e5_channel_error hg hg9 hk, rgb9e5_channel_error hb hb9 hk⟩

/-! ### The exponent of `F2RGBE` for an RGBE value (R220, R222) -/

theorem log2_mul_two_pow {m : Nat} (hm : m ≠ 0) (j : Nat) : Nat.log2 (m * 2 ^ j) = Nat.log2 m + j := by
  refine (Nat.log2_eq_iff (Nat.mul_ne_zero hm (Nat.two_pow_pos j).ne')).mpr ⟨?_, ?_⟩
  · rw [Nat.pow_add]
    exact Nat.mul_le_mul_right _ (Nat.log2_self_le hm)
  · rw [Nat.add_right_comm, Nat.pow_add]
    exact Nat.mul_lt_mul_of_pos_right Nat.lt_log2_self (Nat.two_pow_pos j)

theorem mul_two_pow_ne_two_pow {m : Nat} (hm : m ≠ 0) (hpow : m ≠ 2 ^ Nat.log2 m) (j c : Nat) : m * 2 ^ j ≠ 2 ^ c := by
  intro heq
  have hlog := log2_mul_two_pow hm j
  rw [heq, Nat.log2_two_pow] at hlog
  rw [hlog, Nat.pow_add] at heq
  exact hpow (Nat.eq_of_mul_eq_mul_right (Nat.two_pow_pos j) heq)

theorem ceilLog2_mul_two_pow {m : Nat} (hm : m ≠ 0) (hpow : m ≠ 2 ^ Nat.log2 m) (j : Nat) :
    ceilLog2 (m * 2 ^ j) = Nat.log2 m + j + 1 := by
  rw [ceilLog2, if_neg (mul_two_pow_ne_two_pow hm hpow j _).symm, log2_mul_two_pow hm]

theorem ceilLog2_two_pow (k : Nat) : ceilLog2 (2 ^ k) = k := by
  rw [ceilLog2, Nat.log2_two_pow, if_pos rfl]

/-- A largest mantissa that is no power of two is moved up to the top of its byte, as far as the exponent allows. -/
theorem rgbeExponentClamped_of_not_pow {m e : Nat} (hm : m ≠ 0) (hpow : m ≠ 2 ^ Nat.log2 m) (hlog : Nat.log2 m ≤ 7) (he : e < 256) :
    rgbeExponentClamped (m * 2 ^ (e + 13)) = (e : ℤ) - (min (7 - Nat.log2 m) e : ℕ) - 128 := by
  rw [rgbeExponentClamped, rgbeExponent, if_neg (mul_two_pow_ne_two_pow hm hpow _ _), ceilLog2_mul_two_pow hm hpow]
  omega

theorem rgbeExponentClamped_128 {e : Nat} (he : e < 256) :
    rgbeExponentClamped (128 * 2 ^ (e + 13)) = if e = 0 ∨ e = 128 then (e : ℤ) - 128 else (e : ℤ) - 129 := by
  have hpow : 128 * 2 ^ (e + 13) = 2 ^ (e + 20) := by ring
  have hhalf : 2 ^ (e + 20) = 2 ^ 148 ↔ e = 128 := by
    rw [Nat.pow_right_inj one_lt_two]
    omega
  rw [rgbeExponentClamped, rgbeExponent, hpow, ceilLog2_two_pow]
  simp only [hhalf]
  split_ifs <;> omega

/-! ### `F2RGBE` after `RGBE2F` (R229) -/

/-- A mantissa moved up by `k` bits and saturated (R225). -/
def mantissaUp (k : Nat) (m : Byte) : Byte := BitVec.ofNat 8 (min 255 (m.toNat * 2 ^ k))

theorem rgbeMantissa_of_shift {ec : Int} {k j : Nat} (hj : (141 + ec).toNat + k = j) (m : Byte) :
    rgbeMantissa ec (m.toNat * 2 ^ j) = mantissaUp k m := by
  rw [rgbeMantissa, mantissaUp, ← hj, Nat.pow_add, Nat.mul_comm (2 ^ _), ← Nat.mul_assoc, Nat.mul_div_cancel _ (Nat.two_pow_pos _)]

/-- Where the exponent of the value is `k` below the exponent byte, every mantissa moves up by `k` bits. -/
theorem floatToRgbe_rgbeToFloat {p : Rgbe} {top k : Nat} (htop : max p.r.toNat (max p.g.toNat p.b.toNat) = top) (hne : top ≠ 0)
    (hk : k ≤ p.e.toNat) (hec : rgbeExponentClamped (top * 2 ^ (p.e.toNat + 13)) = (p.e.toNat : ℤ) - k - 128) :
    floatToRgbe (rgbeToFloat p) = ⟨mantissaUp k p.r, mantissaUp k p.g, mantissaUp k p.b, BitVec.ofNat 8 (p.e.toNat - k)⟩ := by
  obtain ⟨hr, hg, hb⟩ := denotes_rgbeToFloat p
  have hr' := san_units_of_denotes hr
  have hg' := san_units_of_denotes hg
  have hb' := san_units_of_denotes hb
  have hmax : max (san (rgbeToFloat p).r).units (max (san (rgbeToFloat p).g).units (san (rgbeToFloat p).b).units) =
      top * 2 ^ (p.e.toNat + 13) := by
    rw [hr', hg', hb', ← htop, Nat.mul_max_mul_right, Nat.mul_max_mul_right]
  have hn : top * 2 ^ (p.e.toNat + 13) ≠ 0 := Nat.mul_ne_zero hne (Nat.two_pow_pos _).ne'
  have hshift : (141 + ((p.e.toNat : ℤ) - k - 128)).toNat + k = p.e.toNat + 13 := by omega
  have hbyte : ((p.e.toNat : ℤ) - k - 128 + 128).toNat = p.e.toNat - k := by omega
  rw [floatToRgbe_of_ne_zero hmax hn, hec, hr', hg', hb', rgbeMantissa_of_shift hshift, rgbeMantissa_of_shift hshift,
    rgbeMantissa_of_shift hshift, hbyte]

theorem mantissaUp_zero (m : Byte) : mantissaUp 0 m = m := by
  have hlt := m.isLt
  apply BitVec.eq_of_toNat_eq
  rw [mantissaUp, BitVec.toNat_ofNat]
  omega

theorem mantissaUp_one (m : Byte) : mantissaUp 1 m = BitVec.ofNat 8 (min 255 (2 * m.toNat)) := by
  rw [mantissaUp, pow_one, Nat.mul_comm]

/-- Below the top of the byte nothing saturates. -/
theorem mantissaUp_of_lt {m : Byte} {k : Nat} (h : m.toNat * 2 ^ k < 256) : mantissaUp k m = BitVec.ofNat 8 (m.toNat * 2 ^ k) := by
  rw [mantissaUp, Nat.min_eq_right (Nat.le_of_lt_succ h)]

theorem ofNat_toNat_sub_zero (b : Byte) : BitVec.ofNat 8 (b.toNat - 0) = b := by
  rw [Nat.sub_zero, BitVec.ofNat_toNat, BitVec.setWidth_eq]

section

variable {p : Rgbe} {top : Nat} (htop : max p.r.toNat (max p.g.toNat p.b.toNat) = top)

include htop

theorem roundTrip_of_large (hbig : 129 ≤ top) : floatToRgbe (rgbeToFloat p) = p := by
  have hrlt := p.r.isLt
  have hglt := p.g.isLt
  have hblt := p.b.isLt
  have hlog : Nat.log2 top = 7 := (Nat.log2_eq_iff (by omega)).mpr ⟨by omega, by omega⟩
  have hec := rgbeExponentClamped_of_not_pow (m := top) (by omega) (by rw [hlog]; omega) hlog.le p.e.isLt
  rw [hlog, Nat.sub_self, Nat.zero_min] at hec
  rw [floatToRgbe_rgbeToFloat htop (by omega) (Nat.zero_le _) hec, mantissaUp_zero, mantissaUp_zero, mantissaUp_zero, ofNat_toNat_sub_zero]

theorem roundTrip_of_128 (h128 : top = 128) (he : p.e.toNat = 0 ∨ p.e.toNat = 128) : floatToRgbe (rgbeToFloat p) = p := by
  subst h128
  have hec := rgbeExponentClamped_128 p.e.isLt
  rw [if_pos he] at hec
  have hec' : rgbeExponentClamped (128 * 2 ^ (p.e.toNat + 13)) = (p.e.toNat : ℤ) - (0 : ℕ) - 128 := by omega
  rw [floatToRgbe_rgbeToFloat htop (by decide) (Nat.zero_le _) hec', mantissaUp_zero, mantissaUp_zero, mantissaUp_zero,
    ofNat_toNat_sub_zero]

theorem roundTrip_of_128_doubled (h128 : top = 128) (he0 : p.e.toNat ≠ 0) (he : p.e.toNat ≠ 128) :
    floatToRgbe (rgbeToFloat p) = ⟨mantissaUp 1 p.r, mantissaUp 1 p.g, mantissaUp 1 p.b, BitVec.ofNat 8 (p.e.toNat - 1)⟩ := by
  subst h128
  have hec := rgbeExponentClamped_128 p.e.isLt
  rw [if_neg (not_or.mpr ⟨he0, he⟩)] at hec
  exact floatToRgbe_rgbeToFloat htop (by decide) (by omega) (by omega)

theorem roundTrip_of_black (hzero : top = 0) : floatToRgbe (rgbeToFloat p) = ⟨0, 0, 0, 0⟩ := by
  obtain ⟨hr, hg, hb⟩ := denotes_rgbeToFloat p
  refine floatToRgbe_of_eq_zero ?_
  rw [san_units_of_denotes hr, san_units_of_denotes hg, san_units_of_denotes hb, Nat.mul_max_mul_right, Nat.mul_max_mul_right, htop, hzero,
    Nat.zero_mul]

theorem roundTrip_of_small (hlo : 1 ≤ top) (hhi : top ≤ 127) (hpow : top ≠ 2 ^ Nat.log2 top) {k : Nat}
    (hk : k = min (7 - Nat.log2 top) p.e.toNat) :
    floatToRgbe (rgbeToFloat p) =
      ⟨BitVec.ofNat 8 (p.r.toNat * 2 ^ k), BitVec.ofNat 8 (p.g.toNat * 2 ^ k), BitVec.ofNat 8 (p.b.toNat * 2 ^ k),
        BitVec.ofNat 8 (p.e.toNat - k)⟩ := by
  have hlog : Nat.log2 top < 7 := (Nat.log2_lt (by omega)).mpr (by omega)
  have hec := rgbeExponentClamped_of_not_pow (m := top) (by omega) hpow hlog.le p.e.isLt
  rw [← hk] at hec
  have hfits : ∀ m : Byte, m.toNat ≤ top → m.toNat * 2 ^ k < 256 := fun m hm =>
    calc m.toNat * 2 ^ k < 2 ^ (Nat.log2 top + 1) * 2 ^ k := Nat.mul_lt_mul_of_pos_right (hm.trans_lt Nat.lt_log2_self) (Nat.two_pow_pos k)
      _ = 2 ^ (Nat.log2 top + 1 + k) := (Nat.pow_add ..).symm
      _ ≤ 2 ^ 8 := Nat.pow_le_pow_right two_pos (by omega)
  rw [floatToRgbe_rgbeToFloat htop (by omega) (by omega) hec, mantissaUp_of_lt (hfits p.r (by omega)), mantissaUp_of_lt (hfits p.g (by omega)),
    mantissaUp_of_lt (hfits p.b (by omega))]

end

/-- Settles O46: in each range of the largest mantissa, the exponent of the value against the exponent byte. -/
theorem rgbeRoundTrip : Obligations.RgbeRoundTrip := by
  intro p top back twice k up
  have htop : max p.r.toNat (max p.g.toNat p.b.toNat) = top := rfl
  refine ⟨fun hbig => ?_, fun h128 hexp => ?_, fun h128 h0 h128' => ?_, fun hzero => ?_, fun hlo hhi hpow => ?_⟩
  · exact roundTrip_of_large htop hbig
  · exact roundTrip_of_128 htop h128 (hexp.imp (congrArg BitVec.toNat) (congrArg BitVec.toNat))
  · have hback := roundTrip_of_128_doubled htop h128 (fun heq => h0 (BitVec.eq_of_toNat_eq heq)) fun heq => h128' (BitVec.eq_of_toNat_eq heq)
    rwa [mantissaUp_one, mantissaUp_one, mantissaUp_one] at hback
  · exact roundTrip_of_black htop hzero
  · exact roundTrip_of_small htop hlo hhi hpow rfl

end Sys2Proof.Machine
end
